-- ==== Sys2Proof/Word.lean ====
section
/-! DEFINITION. The word types of PFCORE: a byte is 8 bits, a byte string is a finite sequence of
bytes with the first byte on the wire first (spec/00_scope.md R11, R12). -/

namespace Sys2Proof

/-- A byte (R11). -/
abbrev Byte := BitVec 8

/-- A byte string, leftmost byte first on the wire (R12). -/
abbrev Bytes := List Byte

end Sys2Proof
end

