-- ==== Sys2Proof/Config.lean ====
section
/-! DEFINITION. The build parameters of PFCORE (spec/00_scope.md R9, spec/92_eei_decisions.md section 6)
and the free values of the points on which the spec states no value.

A build parameter is fixed when the block is instantiated and is an argument of the model (R9, R38). The
machine interface has one argument, so the parameters travel in `State.build`, which no step changes
(log entry 1): a statement about every state holds for every value of every parameter. -/

namespace Sys2Proof

/-- How the product of a fixed-point scaling is formed (R14, D6): exactly, or rounded to binary64. -/
inductive ScaleMode where
  | exact
  | binary64
  deriving DecidableEq, Repr

/-- Where a value exactly half way between two integers is rounded (R14, D6): to the even one, or to
the one of larger magnitude. -/
inductive Tie where
  | even
  | away
  deriving DecidableEq, Repr

/-- The build parameters (R9). `RX_MEM` has no field: the spec models it as unbounded (R50, D38). -/
structure Build where
  /-- `KLV_BUF_MAX`, bytes of the item buffer, at most 2^32-1 (D12). -/
  klvBufMax : Nat
  /-- `OUTQ_DEPTH`, items of the output queue, at least 1 (D34). -/
  outqDepth : Nat
  /-- `TS_ID`, the transport_stream_id of the PAT (D21). -/
  tsId : BitVec 16
  /-- `PMT_PCR_PID`, the PCR_PID field of the PMT (D22). -/
  pmtPcrPid : BitVec 13
  /-- `SCALE_MODE` (D6). -/
  scaleMode : ScaleMode
  /-- `TIE` (D6). -/
  tie : Tie
  deriving DecidableEq, Repr

/-- The legal build parameters (R9). -/
abbrev Build.Legal (b : Build) : Prop := b.klvBufMax ≤ 2 ^ 32 - 1 ∧ 1 ≤ b.outqDepth

/-- FREE VALUE (log entry 8). `SCALE_MODE = binary64` and a product beyond the finite binary64 range:
R14 defines `val` of a finite datum only, so the scaled integer of operand `x` and factor `k` is not
stated. Its magnitude is the largest finite binary64 plus this. -/
opaque Config.freeScaleExcess (x : BitVec 64) (k : Nat) : Nat

/-- FREE VALUE (log entry 9). `ber n` for `n` at or above 2^32, which R118 and U17 leave undefined. -/
opaque Config.freeBer (n : Nat) : Bytes

/-- FREE VALUE (log entry 10). What the 32-bit CSR `OUTQ_LEVEL` reads for `n` queued items, `n` at or
above 2^32, which R36 does not state. -/
opaque Config.freeOutqLevel (n : Nat) : BitVec 32

/-- FREE VALUE (log entry 22). Whether a TelemetrySample without `gps_fixed` counts as fixed, for its
position fields: R18 lets the field be absent and R91 does not say what is emitted then. -/
opaque Config.freeGpsFixed (latitude longitude altitude : Option (BitVec 64)) : Bool

end Sys2Proof
end

