-- ==== Sys2Proof/Machine/State.lean ====
section
/-! DEFINITION. The state of one PFCORE instance (spec/10_state.md R20 to R42) and, beside it, what the
model's step function takes and gives besides the state (spec/00_scope.md R15): the build parameters, the
command stream, the transport's answers, the response. -/

namespace Sys2Proof.Machine

/-- CSR `FRAG_VARIANT`, 2 bits; the value 3 is illegal and never held (R36, R37). -/
inductive FragVariant where
  /-- 0, unset. -/
  | unset
  /-- 1, the frame-oriented header (R181). -/
  | a
  /-- 2, the stream-oriented header (R185). -/
  | b
  deriving DecidableEq, Repr

/-- The configuration registers `s.cfg` (R35, R36). -/
structure Cfg where
  /-- CSR 0x00 `FRAG_VARIANT`. -/
  fragVariant : FragVariant
  /-- CSR 0x01 `FRAG_MAX_CHUNK`, the chunk size C; 0 is unconfigured. -/
  fragMaxChunk : BitVec 32
  /-- CSR 0x02 `TS_PSI_INTERVAL`, N. -/
  tsPsiInterval : BitVec 32
  /-- CSR 0x03 `RX_MAX_FRAMES`, K. -/
  rxMaxFrames : BitVec 32
  /-- CSR 0x04 `INIT_TAG0`. -/
  initTag0 : Byte
  /-- CSR 0x05 `INIT_TAG1`. -/
  initTag1 : Byte
  deriving DecidableEq, Repr

/-- The event counters `s.cnt` (R34). -/
structure Counters where
  /-- `CNT_VALIDATION`, CSR 0x20. -/
  validation : BitVec 32
  /-- `CNT_TX_DROP`, CSR 0x21. -/
  txDrop : BitVec 32
  /-- `CNT_RX_SHORT`, CSR 0x22. -/
  rxShort : BitVec 32
  /-- `CNT_RX_DUP`, CSR 0x23. -/
  rxDup : BitVec 32
  /-- `CNT_RX_EVICTED`, CSR 0x24. -/
  rxEvicted : BitVec 32
  /-- `CNT_RX_FRAMES`, CSR 0x25. -/
  rxFrames : BitVec 32
  /-- `CNT_OUT_DROP`, CSR 0x26. -/
  outDrop : BitVec 32
  /-- `CNT_ILLEGAL`, CSR 0x27. -/
  illegal : BitVec 32
  /-- `CNT_CAPACITY`, CSR 0x28. -/
  capacity : BitVec 32
  deriving DecidableEq, Repr

/-- A map from `w`-bit keys, as a list of pairs in one canonical form: keys strictly rising. -/
abbrev KeyMap (w : Nat) (α : Type) := List (BitVec w × α)

/-- A ReassemblyEntry (R30): the latest `total_chunks` and the chunk map (R31). -/
structure Entry where
  total : BitVec 16
  chunks : KeyMap 16 Bytes
  deriving DecidableEq, Repr

/-- The frame table `s.rx_table` (R29). -/
abbrev FrameTable := KeyMap 32 Entry

/-- An item of the output queue (R32). -/
inductive OutItem where
  /-- Under variant A, a reconstructed Frame. -/
  | frame (fid : BitVec 32) (data : Bytes)
  /-- Under variant B, a datagram passed on. -/
  | datagram (seq : BitVec 32) (ts : BitVec 64) (data : Bytes)
  deriving DecidableEq, Repr

/-- The ports of output records (R76). -/
inductive OutPort where
  /-- 0x01 `KLV_OUT`. -/
  | klvOut
  /-- 0x02 `TS_OUT`. -/
  | tsOut
  /-- 0x03 `TX_OUT`. -/
  | txOut
  /-- 0x04 `FRAME_OUT`. -/
  | frameOut
  /-- 0x05 `CSR_OUT`. -/
  | csrOut
  deriving DecidableEq, Repr

/-- One output record: port, flags, data (R76). -/
structure Record where
  port : OutPort
  flags : Byte
  data : Bytes
  deriving DecidableEq, Repr

/-- The status of a response (R77, R271). -/
inductive Status where
  /-- 0x00. -/
  | ok
  /-- 0x01. -/
  | validationError
  /-- 0x02. -/
  | transportError
  /-- 0x03. -/
  | reassemblyDiscard
  /-- 0x04. -/
  | illegalCommand
  /-- 0x05. -/
  | capacityError
  deriving DecidableEq, Repr

/-- A response: the output records in emission order and the status (R62, R76, R260 (i)). -/
structure Response where
  records : List Record
  status : Status
  deriving DecidableEq, Repr

/-- The state. The fields to `cnt` are the record of R20; the last five are the model's own: they carry
the other arguments and the result of the step function of R15 (log entries 1 and 2). -/
structure State where
  /-- `s.klv_items`, the item buffer (R23). -/
  klvItems : Bytes
  /-- `s.cc_pat`, the continuity counter of PID 0x0000 (R24). -/
  ccPat : BitVec 4
  /-- `s.cc_pmt`, the continuity counter of PID 0x1000 (R24). -/
  ccPmt : BitVec 4
  /-- `s.cc_es`, the continuity counter of PID 0x0100 (R24). -/
  ccEs : BitVec 4
  /-- `s.psi_ctr`, non-empty `TS_WRAP` calls modulo `TS_PSI_INTERVAL` (R25). -/
  psiCtr : BitVec 32
  /-- `s.next_id` (R26). -/
  nextId : BitVec 32
  /-- `s.fid_wrapped`, sticky (R27). -/
  fidWrapped : Bool
  /-- `s.cache0`, the latest unit of tag `INIT_TAG0` (R28). -/
  cache0 : Option Bytes
  /-- `s.cache1`, the latest unit of tag `INIT_TAG1` (R28). -/
  cache1 : Option Bytes
  /-- `s.rx_table`, the frame table (R29). -/
  rxTable : FrameTable
  /-- `s.outq`, the output queue, head first (R32). -/
  outq : List OutItem
  /-- `s.cfg` (R35). -/
  cfg : Cfg
  /-- `s.cnt` (R34). -/
  cnt : Counters
  /-- MODEL'S OWN. The build parameters (R9, R38), which no step changes. -/
  build : Build
  /-- MODEL'S OWN. The bytes the host has presented on the command port and PFCORE has not consumed
  (R70, R313). -/
  cmdIn : Bytes
  /-- MODEL'S OWN. The environment's answers for the commands to come, one list a command: the indices
  of the datagrams the transport refuses (R80, R81). A missing list refuses none. -/
  envIn : List (List Nat)
  /-- MODEL'S OWN. The indices the transport refuses during the command being performed (R80). -/
  refusals : List Nat
  /-- MODEL'S OWN. The response of the latest command; none before the first (R15, R76). -/
  resp : Option Response
  deriving DecidableEq, Repr

/-- The faults. There is none: no condition of PFCORE is fatal, every command of every byte string ends
with a status (R270; spec/93_implementation_defined.md section 1, last paragraph). -/
inductive Fault where
  deriving DecidableEq, Repr

/-- The refusals. -/
inductive Refusal where
  /-- Raised by `exec` for a command the model gives no meaning to. Safe: nothing is claimed of it. No
  arm of `exec` raises it: every command has its meaning. -/
  | notModelled (mnemonic : String)
  /-- Raised by `step` when the command stream ends inside a command: R75 and U7 say that such a stream
  has no meaning and that the model refuses it (PFCORE waits and performs nothing). Safe. -/
  | truncatedCommand
  deriving DecidableEq, Repr

/-- The configuration registers after reset (R36, R42). -/
def Cfg.reset : Cfg where
  fragVariant := .unset
  fragMaxChunk := 0
  tsPsiInterval := 10
  rxMaxFrames := 100
  initTag0 := 7
  initTag1 := 8

/-- The event counters after reset (R42). -/
def Counters.reset : Counters where
  validation := 0
  txDrop := 0
  rxShort := 0
  rxDup := 0
  rxEvicted := 0
  rxFrames := 0
  outDrop := 0
  illegal := 0
  capacity := 0

/-- The build parameters of the machine `State.reset` describes: the setting of
spec/95_test_vectors.md (log entry 1, DESIGN CHOICE; no statement rests on it). -/
def vectorBuild : Build where
  klvBufMax := 4294967295
  outqDepth := 4
  tsId := 0x0001
  pmtPcrPid := 0x1FFF
  scaleMode := .exact
  tie := .even

/-- The machine right after reset (R42, R300). The command port is idle. -/
def State.reset : State where
  klvItems := []
  ccPat := 0
  ccPmt := 0
  ccEs := 0
  psiCtr := 0
  nextId := 0
  fidWrapped := false
  cache0 := none
  cache1 := none
  rxTable := []
  outq := []
  cfg := Cfg.reset
  cnt := Counters.reset
  build := vectorBuild
  cmdIn := []
  envIn := []
  refusals := []
  resp := none

end Sys2Proof.Machine
end

