-- ==== Sys2Proof/Machine/Flags.lean ====
section
/-! DEFINITION. Flags. PFCORE has no condition codes; its only flag bits are those of CSR `STATUS`
(spec/10_state.md R33). -/

namespace Sys2Proof.Machine

/-- CSR `STATUS`: bit 0 `FID_WRAPPED`, bit 1 `OUTQ_NONEMPTY`, bit 2 `KLV_NONEMPTY`, bits 31 to 3 zero
(R33, R36). -/
def statusWord (s : State) : BitVec 32 :=
  (if s.fidWrapped then 1 else 0) ||| (if s.outq.isEmpty then 0 else 2) |||
    (if s.klvItems.isEmpty then 0 else 4)

/-- `s.fid_wrapped` after the identifier `id` is used: set when the counter goes from 2^32-1 to 0, never
cleared by sending (R27, R184). -/
def wrapFlag (old : Bool) (id : BitVec 32) : Bool := old || id == BitVec.allOnes 32

end Sys2Proof.Machine
end

