-- ==== Sys2Proof/Machine/Bytes.lean ====
section
/-! DEFINITION. Byte strings, big-endian fields, slices and the splitting of a byte string into chunks
(spec/00_scope.md R11, R12; spec/20_memory.md R51 to R53; spec/42_frag.md R182). -/

namespace Sys2Proof.Machine

/-- `be_n(v)`: `v` as `n` bytes, most significant byte first (R12, R51). `v` is taken modulo 2^(8n). -/
def be : Nat → Nat → Bytes
  | 0, _ => []
  | n + 1, v => BitVec.ofNat 8 (v / 256 ^ n) :: be n v

/-- `from_be(b)`: the unsigned number a big-endian byte string spells (R12). -/
def fromBe (b : Bytes) : Nat := b.foldl (fun acc x => acc * 256 + x.toNat) 0

/-- `be_n_signed(v)` and `be_n(v)` of an integer: `be_n(v mod 2^(8n))` (R12). -/
def beInt (n : Nat) (v : Int) : Bytes := be n (v % (256 ^ n : Nat)).toNat

/-- `b[i..j)`: the bytes from index `i` up to but not including `j`, clamped to the length (R12). -/
def slice (b : Bytes) (i j : Nat) : Bytes := (b.take j).drop i

/-- `ceil_div(a, b)` for `b >= 1`: the least `q` with `q*b >= a` (R11, R260 (f)). -/
def ceilDiv (a b : Nat) : Nat := (a + b - 1) / b

/-- Chunk `i` of a byte string split into chunks of `c` bytes: `b[c*i .. c*(i+1))` (R145, R182). -/
def chunk (c : Nat) (b : Bytes) (i : Nat) : Bytes := slice b (c * i) (c * (i + 1))

/-- The chunks of a byte string, in order (R145, R182). -/
def chunks (c : Nat) (b : Bytes) : List Bytes :=
  (List.range (ceilDiv b.length c)).map (chunk c b)

end Sys2Proof.Machine
end

