-- ==== Sys2Proof/Machine/Maps.lean ====
section
/-! DEFINITION. The maps of unit RX, the space `RXSTORE` (spec/10_state.md R29 to R31, spec/20_memory.md
R50): reading, writing and deleting a key, and the canonical form that makes equal maps equal data. -/

namespace Sys2Proof.Machine

/-- The value at a key; none where the key is absent. -/
def mapGet {w : Nat} {α : Type} (k : BitVec w) : KeyMap w α → Option α
  | [] => none
  | (k', v) :: rest => if k = k' then some v else mapGet k rest

/-- `m[k] <- v`, keeping keys strictly rising. -/
def mapSet {w : Nat} {α : Type} (k : BitVec w) (v : α) : KeyMap w α → KeyMap w α
  | [] => [(k, v)]
  | (k', v') :: rest =>
    if k.toNat < k'.toNat then (k, v) :: (k', v') :: rest
    else if k = k' then (k, v) :: rest
    else (k', v') :: mapSet k v rest

/-- `delete m[k]`. -/
def mapDel {w : Nat} {α : Type} (k : BitVec w) : KeyMap w α → KeyMap w α
  | [] => []
  | (k', v') :: rest => if k = k' then rest else (k', v') :: mapDel k rest

/-- The canonical form of a map: keys strictly rising, so no key stands twice (R29, R31). -/
def mapWf {w : Nat} {α : Type} : KeyMap w α → Bool
  | [] => true
  | [_] => true
  | (k, _) :: (k', v') :: rest => decide (k.toNat < k'.toNat) && mapWf ((k', v') :: rest)

/-- `count(m)`, the number of keys (R13). -/
def mapCount {w : Nat} {α : Type} (m : KeyMap w α) : Nat := m.length

/-- The canonical form of the space `RXSTORE`: the frame table and every chunk map in it. -/
def storeWf (t : FrameTable) : Bool := mapWf t && t.all fun p => mapWf p.2.chunks

end Sys2Proof.Machine
end

