-- ==== Sys2Proof/Machine/Ops.lean ====
section
/-! DEFINITION. The operations every unit shares: producing the response, raising an error (PFCORE's form
of taking an exception, spec/60_exceptions.md R270 to R280), offering a datagram to the transport, pushing
to the output queue. -/

namespace Sys2Proof.Machine

/-- The end of a command: its response is complete (R57, R76). -/
def State.respond (s : State) (records : List Record) (status : Status) : State :=
  { s with resp := some { records := records, status := status } }

/-- `inc32(c)`: `(c + 1) mod 2^32` (R13, R34). -/
def inc32 (c : BitVec 32) : BitVec 32 := c + 1

/-- What a `raise` reports (R271): the error class, and for `REASSEMBLY_DISCARD` which of its two causes
(R275). -/
inductive Raised where
  /-- `ValidationError` (R102, R273). -/
  | validation
  /-- `CapacityError` (R276). -/
  | capacity
  /-- `IllegalCommand` (R277). -/
  | illegal
  /-- `ReassemblyDiscard`: the datagram is shorter than the header (R211). -/
  | rxShort
  /-- `ReassemblyDiscard`: the new frame_id is lower than every tracked one (R214). -/
  | rxOldest
  deriving DecidableEq, Repr

/-- The status of a raised error (R271). -/
def Raised.status : Raised → Status
  | .validation => .validationError
  | .capacity => .capacityError
  | .illegal => .illegalCommand
  | .rxShort => .reassemblyDiscard
  | .rxOldest => .reassemblyDiscard

/-- The one counter a raised error increments (R34, R279). -/
def Counters.count (c : Counters) : Raised → Counters
  | .validation => { c with validation := inc32 c.validation }
  | .capacity => { c with capacity := inc32 c.capacity }
  | .illegal => { c with illegal := inc32 c.illegal }
  | .rxShort => { c with rxShort := inc32 c.rxShort }
  | .rxOldest => { c with rxEvicted := inc32 c.rxEvicted }

/-- `raise E` (R272, R279): the command ends; the counter of E is incremented; the response has no output
record and the status of E. Nothing is saved and control goes nowhere. -/
def raise (e : Raised) (s : State) : State :=
  { s with cnt := s.cnt.count e }.respond [] e.status

/-- `accept(i)`: whether the transport takes datagram `i` of the command being performed (R80). -/
def State.accepts (s : State) (i : Nat) : Bool := !s.refusals.contains i

/-- A command in progress: the state so far, the output records so far, and what the status of unit FRAG
depends on (R189): whether a datagram was dropped, whether a cached unit was skipped. -/
structure Work where
  st : State
  records : List Record
  dropped : Bool
  skipped : Bool
  deriving DecidableEq, Repr

/-- A command in progress at its start. -/
def State.begin (s : State) : Work := { st := s, records := [], dropped := false, skipped := false }

/-- `emit(port, bytes)` (R13, R76). -/
def Work.emit (w : Work) (port : OutPort) (flags : Byte) (data : Bytes) : Work :=
  { w with records := w.records ++ [{ port := port, flags := flags, data := data }] }

/-- The status of `FRAG_SEND` and `FRAG_REFRESH` once they are not refused, by the priority of R278
(R189). -/
def Work.status (w : Work) : Status :=
  if w.skipped then .capacityError else if w.dropped then .transportError else .ok

/-- The end of a command that emits records. -/
def Work.finish (w : Work) : State := w.st.respond w.records w.status

/-- Datagram `i` of the command is offered to the transport once: emitted on `TX_OUT`, or dropped and
counted; never offered again (R188, R190). -/
def Work.offer (w : Work) (i : Nat) (urgent : Bool) (d : Bytes) : Work :=
  if w.st.accepts i then w.emit .txOut (if urgent then 1 else 0) d
  else
    { w with
      st := { w.st with cnt := { w.st.cnt with txDrop := inc32 w.st.cnt.txDrop } }
      dropped := true }

/-- `push_out(item)`: appended at the tail of `s.outq`, or dropped and counted when it is full (R219). -/
def pushOut (item : OutItem) (s : State) : State :=
  if s.outq.length < s.build.outqDepth then { s with outq := s.outq ++ [item] }
  else { s with cnt := { s.cnt with outDrop := inc32 s.cnt.outDrop } }

/-- The command port at the start of a command: its bytes are consumed and the environment's answers for
it are latched (R15, R60, R80). -/
def State.latch (s : State) (rest : Bytes) : State :=
  { s with cmdIn := rest, refusals := s.envIn.headD [], envIn := s.envIn.tail }

end Sys2Proof.Machine
end

