-- ==== Sys2Proof/Machine/Control.lean ====
section
/-! DEFINITION. The control operations and the CSR map (spec/44_control.md, spec/10_state.md R36, R37), and
the effect of an illegal command (spec/30_encoding.md R73). -/

namespace Sys2Proof.Machine

/-- The code of `FRAG_VARIANT` (R36). -/
def FragVariant.code : FragVariant → BitVec 32
  | .unset => 0
  | .a => 1
  | .b => 2

/-- CSR `OUTQ_LEVEL`; beyond 32 bits the free value of log entry 10. -/
def outqLevel (n : Nat) : BitVec 32 :=
  if n < 2 ^ 32 then BitVec.ofNat 32 n else Config.freeOutqLevel n

/-- The CSR map as read (R36, R252): each register zero-extended to 32 bits; none for a reserved
number. -/
def csrGet (csr : Byte) (s : State) : Option (BitVec 32) :=
  match csr.toNat with
  | 0x00 => some s.cfg.fragVariant.code
  | 0x01 => some s.cfg.fragMaxChunk
  | 0x02 => some s.cfg.tsPsiInterval
  | 0x03 => some s.cfg.rxMaxFrames
  | 0x04 => some (s.cfg.initTag0.zeroExtend 32)
  | 0x05 => some (s.cfg.initTag1.zeroExtend 32)
  | 0x10 => some (statusWord s)
  | 0x11 => some (BitVec.ofNat 32 s.klvItems.length)
  | 0x13 => some (s.ccPat.zeroExtend 32)
  | 0x14 => some (s.ccPmt.zeroExtend 32)
  | 0x15 => some (s.ccEs.zeroExtend 32)
  | 0x16 => some s.psiCtr
  | 0x17 => some s.nextId
  | 0x18 => some (BitVec.ofNat 32 (mapCount s.rxTable))
  | 0x19 => some (outqLevel s.outq.length)
  | 0x20 => some s.cnt.validation
  | 0x21 => some s.cnt.txDrop
  | 0x22 => some s.cnt.rxShort
  | 0x23 => some s.cnt.rxDup
  | 0x24 => some s.cnt.rxEvicted
  | 0x25 => some s.cnt.rxFrames
  | 0x26 => some s.cnt.outDrop
  | 0x27 => some s.cnt.illegal
  | 0x28 => some s.cnt.capacity
  | _ => none

/-- A write of `FRAG_VARIANT`: 0, 1 or 2, while the register is unset (R37, R253). -/
def setVariant (value : BitVec 32) (s : State) : Option State :=
  if s.cfg.fragVariant = .unset then
    match value.toNat with
    | 0 => some s
    | 1 => some { s with cfg := { s.cfg with fragVariant := .a } }
    | 2 => some { s with cfg := { s.cfg with fragVariant := .b } }
    | _ => none
  else none

/-- The write of a configuration register with its side effect; none where the number is reserved or
read-only or the value is not legal (R37, R251, R253 to R257). -/
def csrSet (csr : Byte) (value : BitVec 32) (s : State) : Option State :=
  match csr.toNat with
  | 0x00 => setVariant value s
  | 0x01 => some { s with cfg := { s.cfg with fragMaxChunk := value } }
  | 0x02 =>
    if value = 0 then none
    else some { s with cfg := { s.cfg with tsPsiInterval := value }, psiCtr := 0 }
  | 0x03 =>
    if value = 0 then none else some { s with cfg := { s.cfg with rxMaxFrames := value } }
  | 0x04 =>
    if 255 < value.toNat then none
    else some { s with cfg := { s.cfg with initTag0 := value.setWidth 8 }, cache0 := none }
  | 0x05 =>
    if 255 < value.toNat then none
    else some { s with cfg := { s.cfg with initTag1 := value.setWidth 8 }, cache1 := none }
  | _ => none

/-- `CFG_WRITE csr, value` (R251). -/
def execCfgWrite (csr : Byte) (value : BitVec 32) (s : State) : Host.Outcome State Fault Refusal :=
  .next
    (match csrSet csr value s with
    | some s' => s'.respond [] .ok
    | none => raise .illegal s)

/-- `CSR_READ csr` (R252). -/
def execCsrRead (csr : Byte) (s : State) : Host.Outcome State Fault Refusal :=
  .next
    (match csrGet csr s with
    | some v => s.respond [{ port := .csrOut, flags := 0, data := be 4 v.toNat }] .ok
    | none => raise .illegal s)

/-- Every field of R20 takes its value of R42; the build parameters, the command stream and the
environment are no state of R20 and stay (R38, R250). -/
def resetState (s : State) : State :=
  { State.reset with
    build := s.build, cmdIn := s.cmdIn, envIn := s.envIn, refusals := s.refusals, resp := s.resp }

/-- `RESET` (R250). -/
def execReset (s : State) : Host.Outcome State Fault Refusal := .next ((resetState s).respond [] .ok)

/-- `ILLEGAL(op)` (R73, R277): counted, no other effect, status `ILLEGAL_COMMAND`. -/
def execIllegal (_op : Byte) (s : State) : Host.Outcome State Fault Refusal := .next (raise .illegal s)

end Sys2Proof.Machine
end

