-- ==== Sys2Proof/Machine/Frag.lean ====
section
/-! DEFINITION. Unit FRAG: the fragmentation headers, the payload splitter, the identifier counter, the
refresh cache, `FRAG_SEND`, `FRAG_REFRESH` (spec/42_frag.md). -/

namespace Sys2Proof.Machine

/-- `hdrA(fid, T, i, tag)`, 10 bytes; `reserved` is 0x00 on send (R181). -/
def hdrA (fid : BitVec 32) (total i : Nat) (tag : Byte) : Bytes :=
  be 4 fid.toNat ++ be 2 total ++ be 2 i ++ [tag, 0x00]

/-- `hdrB(seq, ts)`, 12 bytes (R185). -/
def hdrB (seq : BitVec 32) (ts : BitVec 64) : Bytes := be 4 seq.toNat ++ be 8 ts.toNat

/-- Datagram `i` of a Frame under variant A (R181, R182). -/
def datagramA (fid : BitVec 32) (c : Nat) (tag : Byte) (f : Bytes) (i : Nat) : Bytes :=
  hdrA fid (ceilDiv f.length c) i tag ++ chunk c f i

/-- Unit FRAG is not configured: both its operations are illegal (R180, R303). -/
def fragUnconfigured (s : State) : Bool :=
  s.cfg.fragVariant == .unset || s.cfg.fragMaxChunk == 0

/-- The identifier counter is used once: incremented modulo 2^32, the wrap recorded (R26, R27, R184). -/
def advanceId (s : State) : State :=
  { s with nextId := s.nextId + 1, fidWrapped := wrapFlag s.fidWrapped s.nextId }

/-- Whether a tag marks an initialization unit (R190). -/
def isInitTag (c : Cfg) (tag : Byte) : Bool := tag == c.initTag0 || tag == c.initTag1

/-- `send_frame_A(tag, f, base)`: every datagram of the Frame is offered, in ascending `chunk_id`; then
the identifier counter is incremented once, whatever was accepted (R183, R184, R190). -/
def sendFrameA (tag : Byte) (f : Bytes) (base : Nat) (w : Work) : Work :=
  let c := w.st.cfg.fragMaxChunk.toNat
  let fid := w.st.nextId
  let urgent := isInitTag w.st.cfg tag
  let sent := (List.range (ceilDiv f.length c)).foldl
    (fun w' i => w'.offer (base + i) urgent (datagramA fid c tag f i)) w
  { sent with st := advanceId sent.st }

/-- One datagram of `FRAG_SEND` under variant B: it carries the counter, which then advances, accepted or
not (R186). -/
def sendDatagramB (ts : BitVec 64) (c : Nat) (f : Bytes) (w : Work) (i : Nat) : Work :=
  let sent := w.offer i false (hdrB w.st.nextId ts ++ chunk c f i)
  { sent with st := advanceId sent.st }

/-- The cache write of a Frame sent under variant A (R191). -/
def cacheUnit (tag : Byte) (f : Bytes) (s : State) : State :=
  if tag = s.cfg.initTag0 then { s with cache0 := some f }
  else if tag = s.cfg.initTag1 then { s with cache1 := some f }
  else s

/-- `FRAG_SEND` of a configured unit under variant A (R183, R187). -/
def fragSendA (tag : Byte) (f : Bytes) (s : State) : State :=
  if f.length = 0 then s.respond [] .ok
  else if 65535 < ceilDiv f.length s.cfg.fragMaxChunk.toNat then raise .capacity s
  else (sendFrameA tag f 0 (cacheUnit tag f s).begin).finish

/-- `FRAG_SEND` of a configured unit under variant B (R186, R187). -/
def fragSendB (ts : BitVec 64) (f : Bytes) (s : State) : State :=
  if f.length = 0 then s.respond [] .ok
  else
    let c := s.cfg.fragMaxChunk.toNat
    ((List.range (ceilDiv f.length c)).foldl (sendDatagramB ts c f) s.begin).finish

/-- `FRAG_SEND type_tag, timestamp, frame` (R180, R183, R186). -/
def execFragSend (tag : Byte) (ts : BitVec 64) (f : Bytes) (s : State) :
    Host.Outcome State Fault Refusal :=
  .next
    (if fragUnconfigured s then raise .illegal s
    else
      match s.cfg.fragVariant with
      | .b => fragSendB ts f s
      | .a => fragSendA tag f s
      | .unset => raise .illegal s)

/-- The number of datagrams a cached unit was just resent in (R192). -/
def unitDatagrams (c : Nat) : Option Bytes → Nat
  | none => 0
  | some f => if 65535 < ceilDiv f.length c then 0 else ceilDiv f.length c

/-- One cached unit of `FRAG_REFRESH`: resent as a new Frame, or skipped and counted when it needs more
than 65535 chunks (R192). -/
def resendUnit (unit : Option Bytes) (tag : Byte) (base : Nat) (w : Work) : Work :=
  match unit with
  | none => w
  | some f =>
    if 65535 < ceilDiv f.length w.st.cfg.fragMaxChunk.toNat then
      { w with st := { w.st with cnt := w.st.cnt.count .capacity }, skipped := true }
    else sendFrameA tag f base w

/-- `FRAG_REFRESH` (R192): the unit of `INIT_TAG0`, then that of `INIT_TAG1`; datagrams are numbered on
from the first to the second. -/
def execFragRefresh (s : State) : Host.Outcome State Fault Refusal :=
  .next
    (if fragUnconfigured s then raise .illegal s
    else
      (resendUnit s.cache1 s.cfg.initTag1 (unitDatagrams s.cfg.fragMaxChunk.toNat s.cache0)
        (resendUnit s.cache0 s.cfg.initTag0 0 s.begin)).finish)

end Sys2Proof.Machine
end

