-- ==== Sys2Proof/Machine/Operands.lean ====
section
/-! DEFINITION. The real-valued operands: the exact value of a binary64, rounding to an integer, fixed-point
scaling (spec/00_scope.md R14, spec/30_encoding.md R78), and the operand forms of the add commands: the
integer each stores, or none where the operand is outside its domain (spec/40_klv.md R104 to R114). -/

namespace Sys2Proof.Machine

/-- An exact dyadic rational, `num / 2^sh`. Every finite binary64, and every product of one with an
integer, is one. -/
structure Dyad where
  num : Int
  sh : Nat
  deriving DecidableEq, Repr

/-- The biased exponent field, bits 62 to 52 (R78). -/
def f64Exp (x : BitVec 64) : Nat := x.toNat / 2 ^ 52 % 2 ^ 11

/-- The fraction field, bits 51 to 0 (R78). -/
def f64Frac (x : BitVec 64) : Nat := x.toNat % 2 ^ 52

/-- `finite(x)`: false when the exponent field is all ones (R14, R78). -/
def f64Finite (x : BitVec 64) : Bool := f64Exp x != 2047

/-- The significand as an integer: the implicit bit is set for a normal number. -/
def f64Mant (x : BitVec 64) : Nat :=
  if f64Exp x = 0 then f64Frac x else 2 ^ 52 + f64Frac x

/-- `val(x)` of a finite `x`: plus or minus `mant * 2^(max(exp, 1) - 1075)`, exactly; both zeros give 0
(R14, R78). -/
def f64Val (x : BitVec 64) : Dyad :=
  let m : Int := if x.msb then -(f64Mant x : Int) else (f64Mant x : Int)
  let e := max (f64Exp x) 1
  if f64Mant x = 0 then { num := 0, sh := 0 }
  else if 1075 ≤ e then { num := m * ((2 ^ (e - 1075) : Nat) : Int), sh := 0 }
  else { num := m, sh := 1075 - e }

/-- `q * k` for an integer `k`. -/
def Dyad.times (q : Dyad) (k : Nat) : Dyad := { num := q.num * (k : Int), sh := q.sh }

/-- `q + n` for an integer `n`. -/
def Dyad.plus (q : Dyad) (n : Nat) : Dyad :=
  { num := q.num + (n : Int) * ((2 ^ q.sh : Nat) : Int), sh := q.sh }

/-- `q < n` for an integer `n`. -/
def Dyad.below (q : Dyad) (n : Int) : Bool := decide (q.num < n * ((2 ^ q.sh : Nat) : Int))

/-- `q > n` for an integer `n`. -/
def Dyad.above (q : Dyad) (n : Int) : Bool := decide (n * ((2 ^ q.sh : Nat) : Int) < q.num)

/-- `rnd(q)`: the integer nearest to `q`; half way between two, the even one or the one of larger
magnitude, as `TIE` says (R14). -/
def rnd (tie : Tie) (q : Dyad) : Int :=
  let d : Int := ((2 ^ q.sh : Nat) : Int)
  let f := q.num / d
  let r := q.num % d
  if 2 * r < d then f
  else if d < 2 * r then f + 1
  else
    match tie with
    | .even => if f % 2 = 0 then f else f + 1
    | .away => if q.num < 0 then f else f + 1

/-- `fl(q)`: the binary64 nearest to `q`, ties to even (R14), for a `q` whose denominator is at most
2^1074; none where rounding to 53 significant bits leaves the finite binary64 range. -/
def fl (q : Dyad) : Option Dyad :=
  let drop := Nat.log2 q.num.natAbs - 52
  let n := rnd .even { num := q.num, sh := drop } * ((2 ^ drop : Nat) : Int)
  if 1024 + q.sh ≤ Nat.log2 n.natAbs then none else some { num := n, sh := q.sh }

/-- The largest finite binary64, an integer. -/
def f64Max : Nat := (2 ^ 53 - 1) * 2 ^ 971

/-- `rnd(val(fl(q)))` for `q = val(x) * k`; a product beyond the finite range gives the free value of
log entry 8 with the product's sign. -/
def rndFl (tie : Tie) (x : BitVec 64) (k : Nat) (q : Dyad) : Int :=
  match fl q with
  | some p => rnd tie p
  | none =>
    let v : Int := ((f64Max + Config.freeScaleExcess x k : Nat) : Int)
    if q.num < 0 then -v else v

/-- `rnd(q * k)` for a multiple `q` of the value of `x`, the product formed as `SCALE_MODE` says (R14,
R109). -/
def scaleDyad (b : Build) (x : BitVec 64) (q : Dyad) (k : Nat) : Int :=
  match b.scaleMode with
  | .exact => rnd b.tie (q.times k)
  | .binary64 => rndFl b.tie x k (q.times k)

/-- `scale(x, k)` of a finite binary64 `x` (R14). -/
def scale (b : Build) (x : BitVec 64) (k : Nat) : Int := scaleDyad b x (f64Val x) k

/-- Operand with a symmetric domain in degrees, tested before scaling: latitude, longitude, roll, pitch
(R104, R105, R107, R108). -/
def operandBounded (b : Build) (x : BitVec 64) (bound k : Nat) : Option Int :=
  if !f64Finite x || (f64Val x).below (-(bound : Int)) || (f64Val x).above (bound : Int) then none
  else some (scale b x k)

/-- Operand whose domain is what its field can hold, tested after scaling: fields of view and gimbal
angles (R110 to R114). -/
def operandRanged (b : Build) (x : BitVec 64) (k : Nat) (lo hi : Int) : Option Int :=
  if !f64Finite x then none
  else if scale b x k < lo ∨ hi < scale b x k then none
  else some (scale b x k)

/-- Altitude: any finite operand; the low 16 bits of the scaled integer (R106). -/
def operandAltitude (b : Build) (x : BitVec 64) : Option Int :=
  if !f64Finite x then none else some (scale b x 10 % 65536)

/-- Heading, normalised: 360 is added once to a negative operand, the sum rounded to binary64 when
`SCALE_MODE = binary64` (R109). (A sum in the finite range always: the operand is finite and negative.) -/
def headingNorm (b : Build) (x : BitVec 64) : Dyad :=
  let q := f64Val x
  if q.below 0 then
    match b.scaleMode with
    | .exact => q.plus 360
    | .binary64 => (fl (q.plus 360)).getD (q.plus 360)
  else q

/-- Heading: normalised, then tested against [0, 360], then scaled (R109). -/
def operandHeading (b : Build) (x : BitVec 64) : Option Int :=
  if !f64Finite x then none
  else if (headingNorm b x).below 0 || (headingNorm b x).above 360 then none
  else some (scaleDyad b x (headingNorm b x) 100)

end Sys2Proof.Machine
end

