-- ==== Sys2Proof/Machine/Klv.lean ====
section
/-! DEFINITION. Unit KLV: the fifteen add commands, the BER length coder, `KLV_PACK`, `KLV_CLEAR`
(spec/40_klv.md). -/

namespace Sys2Proof.Machine

/-- The 16-byte universal key (R10, R121). -/
def klvKey : Bytes :=
  [0x06, 0x0E, 0x2B, 0x34, 0x02, 0x0B, 0x01, 0x01, 0x0E, 0x01, 0x03, 0x01, 0x01, 0x00, 0x00, 0x00]

/-- A serialized KLVItem: tag, length of the value, value (R101). -/
def klvItem (tag : Byte) (value : Bytes) : Bytes :=
  tag :: BitVec.ofNat 8 value.length :: value

/-- `append_item(tag, value)`: appended whole, or `CapacityError` when the buffer would pass
`KLV_BUF_MAX` (R122). -/
def appendItem (tag : Byte) (value : Bytes) (s : State) : State :=
  if s.build.klvBufMax < s.klvItems.length + (klvItem tag value).length then raise .capacity s
  else { s with klvItems := s.klvItems ++ klvItem tag value }.respond [] .ok

/-- A fixed-point add command: `ValidationError` when the operand is out of domain, tested before the
capacity (R102, R278); otherwise the integer is appended in `n` bytes (R260 (e)). -/
def appendFixed (tag : Byte) (n : Nat) (operand : Option Int) (s : State) : State :=
  match operand with
  | none => raise .validation s
  | some v => appendItem tag (beInt n v) s

/-- The BER length coder (R118): one, two, three or five bytes; no 0x83 form. -/
def ber (n : Nat) : Bytes :=
  if n < 128 then be 1 n
  else if n < 256 then 0x81 :: be 1 n
  else if n < 65536 then 0x82 :: be 2 n
  else if n < 2 ^ 32 then 0x84 :: be 4 n
  else Config.freeBer n

/-- The KLVPacket of an item buffer: key, BER length, items (R119, R121). -/
def klvPacket (items : Bytes) : Bytes := klvKey ++ ber items.length ++ items

/-- `ADD_TIMESTAMP v` (R103): 8 bytes; never out of domain. -/
def execAddTimestamp (v : BitVec 64) (s : State) : Host.Outcome State Fault Refusal :=
  .next (appendItem 2 (be 8 v.toNat) s)

/-- `ADD_ROLL x` (R107). -/
def execAddRoll (x : BitVec 64) (s : State) : Host.Outcome State Fault Refusal :=
  .next (appendFixed 5 2 (operandBounded s.build x 180 100) s)

/-- `ADD_PITCH x` (R108). -/
def execAddPitch (x : BitVec 64) (s : State) : Host.Outcome State Fault Refusal :=
  .next (appendFixed 6 2 (operandBounded s.build x 90 100) s)

/-- `ADD_HEADING x` (R109). -/
def execAddHeading (x : BitVec 64) (s : State) : Host.Outcome State Fault Refusal :=
  .next (appendFixed 7 2 (operandHeading s.build x) s)

/-- `ADD_LATITUDE x` (R104). -/
def execAddLatitude (x : BitVec 64) (s : State) : Host.Outcome State Fault Refusal :=
  .next (appendFixed 13 4 (operandBounded s.build x 90 10000000) s)

/-- `ADD_LONGITUDE x` (R105). -/
def execAddLongitude (x : BitVec 64) (s : State) : Host.Outcome State Fault Refusal :=
  .next (appendFixed 14 4 (operandBounded s.build x 180 10000000) s)

/-- `ADD_ALTITUDE x` (R106). -/
def execAddAltitude (x : BitVec 64) (s : State) : Host.Outcome State Fault Refusal :=
  .next (appendFixed 15 2 (operandAltitude s.build x) s)

/-- `ADD_HFOV x` (R110). -/
def execAddHfov (x : BitVec 64) (s : State) : Host.Outcome State Fault Refusal :=
  .next (appendFixed 18 2 (operandRanged s.build x 100 0 65535) s)

/-- `ADD_VFOV x` (R111). -/
def execAddVfov (x : BitVec 64) (s : State) : Host.Outcome State Fault Refusal :=
  .next (appendFixed 19 2 (operandRanged s.build x 100 0 65535) s)

/-- `ADD_GIMBAL_ROLL x` (R112). -/
def execAddGimbalRoll (x : BitVec 64) (s : State) : Host.Outcome State Fault Refusal :=
  .next (appendFixed 21 4 (operandRanged s.build x 1000000 (-2147483648) 2147483647) s)

/-- `ADD_GIMBAL_PITCH x` (R113). -/
def execAddGimbalPitch (x : BitVec 64) (s : State) : Host.Outcome State Fault Refusal :=
  .next (appendFixed 22 4 (operandRanged s.build x 1000000 (-2147483648) 2147483647) s)

/-- `ADD_GIMBAL_YAW x` (R114). -/
def execAddGimbalYaw (x : BitVec 64) (s : State) : Host.Outcome State Fault Refusal :=
  .next (appendFixed 23 4 (operandRanged s.build x 1000000 (-2147483648) 2147483647) s)

/-- `ADD_SENSOR_WIDTH w` (R115): the four operand bytes unchanged. -/
def execAddSensorWidth (w : BitVec 32) (s : State) : Host.Outcome State Fault Refusal :=
  .next (appendItem 102 (be 4 w.toNat) s)

/-- `ADD_SENSOR_HEIGHT w` (R116): the four operand bytes unchanged. -/
def execAddSensorHeight (w : BitVec 32) (s : State) : Host.Outcome State Fault Refusal :=
  .next (appendItem 103 (be 4 w.toNat) s)

/-- `ADD_FOCAL_LENGTH w` (R117): the four operand bytes unchanged. -/
def execAddFocalLength (w : BitVec 32) (s : State) : Host.Outcome State Fault Refusal :=
  .next (appendItem 104 (be 4 w.toNat) s)

/-- `KLV_PACK` (R119): one `KLV_OUT` record; the item buffer stays as it was. -/
def execKlvPack (s : State) : Host.Outcome State Fault Refusal :=
  .next (s.respond [{ port := .klvOut, flags := 0, data := klvPacket s.klvItems }] .ok)

/-- `KLV_CLEAR` (R120). -/
def execKlvClear (s : State) : Host.Outcome State Fault Refusal :=
  .next ({ s with klvItems := [] }.respond [] .ok)

end Sys2Proof.Machine
end

