-- ==== Sys2Proof/Machine/Rx.lean ====
section
/-! DEFINITION. Unit RX: header parse, the bound and eviction, store, completion, `RX_PACKET`, `RX_POP`
(spec/43_reasm.md). -/

namespace Sys2Proof.Machine

/-- The fields of a variant A datagram the receiver reads; `type_tag` and `reserved` are not read
(R212). -/
structure ChunkHeader where
  fid : BitVec 32
  total : BitVec 16
  index : BitVec 16
  payload : Bytes
  deriving DecidableEq, Repr

/-- The header parse of a datagram of at least 10 bytes; no field is validated (R212, R223). -/
def parseA (d : Bytes) : ChunkHeader where
  fid := BitVec.ofNat 32 (fromBe (slice d 0 4))
  total := BitVec.ofNat 16 (fromBe (slice d 4 6))
  index := BitVec.ofNat 16 (fromBe (slice d 6 8))
  payload := d.drop 10

/-- The item of a variant B datagram of at least 12 bytes (R224). -/
def parseB (d : Bytes) : OutItem :=
  .datagram (BitVec.ofNat 32 (fromBe (slice d 0 4))) (BitVec.ofNat 64 (fromBe (slice d 4 12)))
    (d.drop 12)

/-- The frame table after the bound is applied to a new frame_id: what is left, how many entries were
evicted, and whether the chunk is admitted or is itself the one dropped. -/
structure Room where
  table : FrameTable
  evicted : Nat
  admitted : Bool
  deriving DecidableEq, Repr

/-- The bound and eviction (R214) for a new `fid` and K = `k`: while the table with one more key would
pass K, the least key goes; when `fid` is below it, `fid` itself is dropped. In the canonical form the
least key is the first. Comparison is unsigned with no wrap allowance (R260 (g)). -/
def makeRoom (k : Nat) (fid : BitVec 32) : FrameTable → Room
  | [] => { table := [], evicted := 0, admitted := true }
  | (m, e) :: rest =>
    if k < mapCount ((m, e) :: rest) + 1 then
      if fid.toNat < m.toNat then { table := (m, e) :: rest, evicted := 0, admitted := false }
      else
        let room := makeRoom k fid rest
        { room with evicted := room.evicted + 1 }
    else { table := (m, e) :: rest, evicted := 0, admitted := true }

/-- `CNT_RX_EVICTED` after `n` evictions (R34, R214). -/
def countEvicted (n : Nat) (s : State) : State :=
  { s with cnt := { s.cnt with rxEvicted := s.cnt.rxEvicted + BitVec.ofNat 32 n } }

/-- The data of a completed entry: its payloads in ascending `chunk_id` (R217). In the canonical form the
list is already in that order. -/
def entryData (e : Entry) : Bytes := (e.chunks.map Prod.snd).flatten

/-- The entry after the store: the payload at its `chunk_id`, overwriting, and the header's
`total_chunks` (R215). -/
def storeChunk (h : ChunkHeader) (e : Entry) : Entry :=
  { total := h.total, chunks := mapSet h.index h.payload e.chunks }

/-- The completion detector: an equality of two numbers (R216). -/
def entryComplete (e : Entry) : Bool := mapCount e.chunks == e.total.toNat

/-- `CNT_RX_DUP` counts an overwritten chunk (R215). -/
def countDup (h : ChunkHeader) (e : Entry) (s : State) : State :=
  if (mapGet h.index e.chunks).isSome then
    { s with cnt := { s.cnt with rxDup := inc32 s.cnt.rxDup } }
  else s

/-- Store and completion with the entry for the chunk's frame_id (R215 to R217). -/
def storeInto (h : ChunkHeader) (e : Entry) (s : State) : State :=
  let e' := storeChunk h e
  let s' := countDup h e s
  if entryComplete e' then
    pushOut (.frame h.fid (entryData e'))
      { s' with
        rxTable := mapDel h.fid s'.rxTable
        cnt := { s'.cnt with rxFrames := inc32 s'.cnt.rxFrames } }
  else { s' with rxTable := mapSet h.fid e' s'.rxTable }

/-- A chunk under variant A: the existing entry, or the bound and a new entry (R213, R214, R218). -/
def receiveChunk (h : ChunkHeader) (s : State) : State :=
  match mapGet h.fid s.rxTable with
  | some e => (storeInto h e s).respond [] .ok
  | none =>
    let room := makeRoom s.cfg.rxMaxFrames.toNat h.fid s.rxTable
    let s' := countEvicted room.evicted { s with rxTable := room.table }
    if room.admitted then (storeInto h { total := h.total, chunks := [] } s').respond [] .ok
    else raise .rxOldest s'

/-- `RX_PACKET d` (R210, R211, R218, R224). -/
def execRxPacket (d : Bytes) (s : State) : Host.Outcome State Fault Refusal :=
  .next
    (match s.cfg.fragVariant with
    | .unset => raise .illegal s
    | .a => if d.length < 10 then raise .rxShort s else receiveChunk (parseA d) s
    | .b => if d.length < 12 then raise .rxShort s else (pushOut (parseB d) s).respond [] .ok)

/-- The `FRAME_OUT` data of an item (R220). -/
def itemBytes : OutItem → Bytes
  | .frame fid data => be 4 fid.toNat ++ data
  | .datagram seq ts data => be 4 seq.toNat ++ be 8 ts.toNat ++ data

/-- `RX_POP` (R220). -/
def execRxPop (s : State) : Host.Outcome State Fault Refusal :=
  .next
    (match s.outq with
    | [] => s.respond [] .ok
    | item :: rest =>
      { s with outq := rest }.respond
        [{ port := .frameOut, flags := 0, data := itemBytes item }] .ok)

end Sys2Proof.Machine
end

