-- ==== Sys2Proof/Machine/Ts.lean ====
section
/-! DEFINITION. Unit TS: the packet header, the packet builder, the program tables with their CRC, the
payload split, `TS_WRAP` (spec/41_ts.md). -/

namespace Sys2Proof.Machine

/-- The three packet identifiers (R140). -/
inductive TsPid where
  /-- 0x0000, the program association table. -/
  | pat
  /-- 0x1000, the program map table. -/
  | pmt
  /-- 0x0100, the elementary stream. -/
  | es
  deriving DecidableEq, Repr

/-- The 13-bit PID (R10, R140). -/
def TsPid.number : TsPid → Nat
  | .pat => 0x0000
  | .pmt => 0x1000
  | .es => 0x0100

/-- `ctr(p)`: the continuity counter of a PID (R142). -/
def State.continuity (s : State) : TsPid → BitVec 4
  | .pat => s.ccPat
  | .pmt => s.ccPmt
  | .es => s.ccEs

/-- `ctr(p) <- (ctr(p) + 1) mod 16` (R142, R260 (a)). -/
def State.bumpContinuity (s : State) : TsPid → State
  | .pat => { s with ccPat := s.ccPat + 1 }
  | .pmt => { s with ccPmt := s.ccPmt + 1 }
  | .es => { s with ccEs := s.ccEs + 1 }

/-- `hdr(pid, pusi, cc)`: sync byte; error 0, payload-start, priority 0, PID[12:8]; PID[7:0]; scrambling
0b00, adaptation field control 0b01, continuity counter (R141). -/
def tsHeader (pid : Nat) (pusi : Bool) (cc : BitVec 4) : Bytes :=
  [0x47, BitVec.ofNat 8 ((if pusi then 0x40 else 0) + pid / 256), BitVec.ofNat 8 (pid % 256),
    BitVec.ofNat 8 (0x10 + cc.toNat)]

/-- The bytes of a packet: header, body, stuffing to 188 bytes (R143). -/
def tsPacketBytes (pid : Nat) (pusi : Bool) (cc : BitVec 4) (body : Bytes) : Bytes :=
  tsHeader pid pusi cc ++ body ++ List.replicate (184 - body.length) 0xFF

/-- `ts_packet(pid, pusi, body)`: the packet carries its PID's counter, which is then incremented (R142,
R143). -/
def tsPacket (pid : TsPid) (pusi : Bool) (body : Bytes) (w : Work) : Work :=
  let w' := w.emit .tsOut 0 (tsPacketBytes pid.number pusi (w.st.continuity pid) body)
  { w' with st := w'.st.bumpContinuity pid }

/-- One bit of the CRC (R151). -/
def crcBit (crc : BitVec 32) : BitVec 32 :=
  if crc.msb then (crc <<< 1) ^^^ 0x04C11DB7#32 else crc <<< 1

/-- One byte of the CRC, most significant bit first (R151). -/
def crcByte (crc : BitVec 32) (b : Byte) : BitVec 32 :=
  crcBit (crcBit (crcBit (crcBit (crcBit (crcBit (crcBit (crcBit
    (crc ^^^ BitVec.ofNat 32 (b.toNat * 2 ^ 24)))))))))

/-- `crc32_mpeg2(bytes)` (R151). -/
def crc32Mpeg2 (bytes : Bytes) : BitVec 32 := bytes.foldl crcByte 0xFFFFFFFF#32

/-- A section terminated by its CRC over the bytes before it, big-endian (R150). -/
def withCrc (body : Bytes) : Bytes := body ++ be 4 (crc32Mpeg2 body).toNat

/-- The PAT section (R146). -/
def patSection (b : Build) : Bytes :=
  withCrc ([0x00, 0xB0, 0x0D] ++ be 2 b.tsId.toNat ++ [0xC1, 0x00, 0x00] ++ be 2 1 ++
    be 2 (0xE000 + TsPid.pmt.number))

/-- The PMT section (R148). -/
def pmtSection (b : Build) : Bytes :=
  withCrc ([0x02, 0xB0, 0x12] ++ be 2 1 ++ [0xC1, 0x00, 0x00] ++ be 2 (0xE000 + b.pmtPcrPid.toNat) ++
    [0xF0, 0x00, 0x06] ++ be 2 (0xE000 + TsPid.es.number) ++ [0xF0, 0x00])

/-- The PAT and PMT packets, when the cadence counter is 0 (R147, R149, R152). -/
def injectTables (w : Work) : Work :=
  if w.st.psiCtr = 0 then
    tsPacket .pmt true (0x00 :: pmtSection w.st.build)
      (tsPacket .pat true (0x00 :: patSection w.st.build) w)
  else w

/-- `s.psi_ctr <- (s.psi_ctr + 1) mod TS_PSI_INTERVAL` (R153, R260 (b)). -/
def advanceCadence (w : Work) : Work :=
  { w with
    st :=
      { w.st with
        psiCtr := BitVec.ofNat 32 ((w.st.psiCtr.toNat + 1) % w.st.cfg.tsPsiInterval.toNat) } }

/-- `wrap_payload(data)`: the first packet carries the pointer field and 183 bytes and sets payload-start;
each later one carries 184 bytes (R144, R145). -/
def wrapPayload (data : Bytes) (w : Work) : Work :=
  (chunks 184 (data.drop 183)).foldl (fun w' body => tsPacket .es false body w')
    (tsPacket .es true (0x00 :: data.take 183) w)

/-- `TS_WRAP data` (R154). -/
def execTsWrap (data : Bytes) (s : State) : Host.Outcome State Fault Refusal :=
  .next
    (if data.length = 0 then s.respond [] .ok
    else (wrapPayload data (advanceCadence (injectTables s.begin))).finish)

end Sys2Proof.Machine
end

