-- ==== Sys2Proof/Syntax.lean ====
section
/-! DEFINITION. The commands of PFCORE: one constructor per row of spec/opcode_table.json, in the
table's order (spec/30_encoding.md R72), with the operands of the row's format (R71, R78). -/

namespace Sys2Proof

/-- A command. An `F64` operand is the 64 bits of a binary64, an `F32` operand 32 bits that are never
interpreted, a `BLOB` or a Frame a byte string (R71, R78). -/
inductive Instr where
  /-- 0x02 `ADD_TIMESTAMP v` (R103). -/
  | addTimestamp (v : BitVec 64)
  /-- 0x05 `ADD_ROLL x` (R107). -/
  | addRoll (x : BitVec 64)
  /-- 0x06 `ADD_PITCH x` (R108). -/
  | addPitch (x : BitVec 64)
  /-- 0x07 `ADD_HEADING x` (R109). -/
  | addHeading (x : BitVec 64)
  /-- 0x0D `ADD_LATITUDE x` (R104). -/
  | addLatitude (x : BitVec 64)
  /-- 0x0E `ADD_LONGITUDE x` (R105). -/
  | addLongitude (x : BitVec 64)
  /-- 0x0F `ADD_ALTITUDE x` (R106). -/
  | addAltitude (x : BitVec 64)
  /-- 0x12 `ADD_HFOV x` (R110). -/
  | addHfov (x : BitVec 64)
  /-- 0x13 `ADD_VFOV x` (R111). -/
  | addVfov (x : BitVec 64)
  /-- 0x15 `ADD_GIMBAL_ROLL x` (R112). -/
  | addGimbalRoll (x : BitVec 64)
  /-- 0x16 `ADD_GIMBAL_PITCH x` (R113). -/
  | addGimbalPitch (x : BitVec 64)
  /-- 0x17 `ADD_GIMBAL_YAW x` (R114). -/
  | addGimbalYaw (x : BitVec 64)
  /-- 0x66 `ADD_SENSOR_WIDTH w` (R115). -/
  | addSensorWidth (w : BitVec 32)
  /-- 0x67 `ADD_SENSOR_HEIGHT w` (R116). -/
  | addSensorHeight (w : BitVec 32)
  /-- 0x68 `ADD_FOCAL_LENGTH w` (R117). -/
  | addFocalLength (w : BitVec 32)
  /-- 0x80 `KLV_PACK` (R119). -/
  | klvPack
  /-- 0x81 `KLV_CLEAR` (R120). -/
  | klvClear
  /-- 0x90 `TS_WRAP data` (R154). -/
  | tsWrap (data : Bytes)
  /-- 0xA0 `FRAG_SEND type_tag, timestamp, frame` (R183, R186). -/
  | fragSend (typeTag : Byte) (timestamp : BitVec 64) (frame : Bytes)
  /-- 0xA1 `FRAG_REFRESH` (R192). -/
  | fragRefresh
  /-- 0xB0 `RX_PACKET d` (R218, R224). -/
  | rxPacket (d : Bytes)
  /-- 0xB1 `RX_POP` (R220). -/
  | rxPop
  /-- 0xC0 `CFG_WRITE csr, value` (R251). -/
  | cfgWrite (csr : Byte) (value : BitVec 32)
  /-- 0xC1 `CSR_READ csr` (R252). -/
  | csrRead (csr : Byte)
  /-- 0xFF `RESET` (R250). -/
  | reset
  deriving DecidableEq, Repr

end Sys2Proof
end

