-- ==== Sys2Proof/Machine/Dispatch.lean ====
section
/-! DEFINITION. What each command does: one arm per command, each one call of its meaning. -/

namespace Sys2Proof.Machine

def exec (i : Instr) (s : State) : Host.Outcome State Fault Refusal :=
  match i with
  | .addTimestamp v => Sys2Proof.Machine.execAddTimestamp v s
  | .addRoll x => Sys2Proof.Machine.execAddRoll x s
  | .addPitch x => Sys2Proof.Machine.execAddPitch x s
  | .addHeading x => Sys2Proof.Machine.execAddHeading x s
  | .addLatitude x => Sys2Proof.Machine.execAddLatitude x s
  | .addLongitude x => Sys2Proof.Machine.execAddLongitude x s
  | .addAltitude x => Sys2Proof.Machine.execAddAltitude x s
  | .addHfov x => Sys2Proof.Machine.execAddHfov x s
  | .addVfov x => Sys2Proof.Machine.execAddVfov x s
  | .addGimbalRoll x => Sys2Proof.Machine.execAddGimbalRoll x s
  | .addGimbalPitch x => Sys2Proof.Machine.execAddGimbalPitch x s
  | .addGimbalYaw x => Sys2Proof.Machine.execAddGimbalYaw x s
  | .addSensorWidth w => Sys2Proof.Machine.execAddSensorWidth w s
  | .addSensorHeight w => Sys2Proof.Machine.execAddSensorHeight w s
  | .addFocalLength w => Sys2Proof.Machine.execAddFocalLength w s
  | .klvPack => Sys2Proof.Machine.execKlvPack s
  | .klvClear => Sys2Proof.Machine.execKlvClear s
  | .tsWrap data => Sys2Proof.Machine.execTsWrap data s
  | .fragSend typeTag timestamp frame => Sys2Proof.Machine.execFragSend typeTag timestamp frame s
  | .fragRefresh => Sys2Proof.Machine.execFragRefresh s
  | .rxPacket d => Sys2Proof.Machine.execRxPacket d s
  | .rxPop => Sys2Proof.Machine.execRxPop s
  | .cfgWrite csr value => Sys2Proof.Machine.execCfgWrite csr value s
  | .csrRead csr => Sys2Proof.Machine.execCsrRead csr s
  | .reset => Sys2Proof.Machine.execReset s

end Sys2Proof.Machine
end

