-- ==== Sys2Proof/WellFormed.lean ====
section
/-! DEFINITION. Which commands have an encoding: `alen` is a 32-bit number (spec/30_encoding.md R70, R71),
so a command's argument has fewer than 2^32 bytes. Every other operand fills its field exactly. -/

namespace Sys2Proof

/-- The command has an encoding (R70, R71): the argument of `TS_WRAP`, `RX_PACKET` and `FRAG_SEND`
(9 bytes of `type_tag` and `timestamp`, then the Frame) has a 32-bit length. -/
def Instr.wellFormed : Instr → Bool
  | .addTimestamp _ => true
  | .addRoll _ => true
  | .addPitch _ => true
  | .addHeading _ => true
  | .addLatitude _ => true
  | .addLongitude _ => true
  | .addAltitude _ => true
  | .addHfov _ => true
  | .addVfov _ => true
  | .addGimbalRoll _ => true
  | .addGimbalPitch _ => true
  | .addGimbalYaw _ => true
  | .addSensorWidth _ => true
  | .addSensorHeight _ => true
  | .addFocalLength _ => true
  | .klvPack => true
  | .klvClear => true
  | .tsWrap data => decide (data.length < 2 ^ 32)
  | .fragSend _ _ frame => decide (9 + frame.length < 2 ^ 32)
  | .fragRefresh => true
  | .rxPacket d => decide (d.length < 2 ^ 32)
  | .rxPop => true
  | .cfgWrite _ _ => true
  | .csrRead _ => true
  | .reset => true

end Sys2Proof
end

