-- ==== Sys2Proof/Decode.lean ====
section
/-! DEFINITION. The command decoder and encoder (spec/30_encoding.md R70 to R75, R78). -/

namespace Sys2Proof

open Sys2Proof.Machine (be fromBe slice)

/-- What the decoder reads at the head of the command stream (R73, R75). -/
inductive Decoded where
  /-- A legal command and the bytes after it. -/
  | command (i : Instr) (rest : Bytes)
  /-- `ILLEGAL(op)`: the opcode is reserved or `alen` does not fit its format; the argument bytes are
  consumed (R73, R74). -/
  | illegal (op : Byte) (rest : Bytes)
  /-- The stream ends inside a command (R75, U7). -/
  | truncated
  deriving DecidableEq, Repr

/-- Format `N`: `alen = 0` (R71). -/
def argN (i : Instr) (arg : Bytes) : Option Instr :=
  if arg.length = 0 then some i else none

/-- Formats `U64` and `F64`: `alen = 8`, 64 bits big-endian (R71, R78). -/
def arg64 (mk : BitVec 64 → Instr) (arg : Bytes) : Option Instr :=
  if arg.length = 8 then some (mk (BitVec.ofNat 64 (fromBe arg))) else none

/-- Format `F32`: `alen = 4`, 32 bits big-endian, never interpreted (R71, R78). -/
def arg32 (mk : BitVec 32 → Instr) (arg : Bytes) : Option Instr :=
  if arg.length = 4 then some (mk (BitVec.ofNat 32 (fromBe arg))) else none

/-- Format `SEND`: `alen >= 9`; `type_tag`, `timestamp`, then the Frame (R71, R78). -/
def argSend (arg : Bytes) : Option Instr :=
  if 9 ≤ arg.length then
    some (.fragSend (arg.headD 0) (BitVec.ofNat 64 (fromBe (slice arg 1 9))) (arg.drop 9))
  else none

/-- Format `CSRW`: `alen = 5`; `csr`, then `value` (R71, R78). -/
def argCsrw (arg : Bytes) : Option Instr :=
  if arg.length = 5 then
    some (.cfgWrite (arg.headD 0) (BitVec.ofNat 32 (fromBe (slice arg 1 5))))
  else none

/-- Format `CSRR`: `alen = 1`; `csr` (R71, R78). -/
def argCsrr (arg : Bytes) : Option Instr :=
  if arg.length = 1 then some (.csrRead (arg.headD 0)) else none

/-- The opcode map (R72): the command of an opcode and its argument bytes, or none where the opcode is
reserved (R74) or the argument length does not fit the format (R73). -/
def decodeArg (op : Byte) (arg : Bytes) : Option Instr :=
  match op.toNat with
  | 0x02 => arg64 .addTimestamp arg
  | 0x05 => arg64 .addRoll arg
  | 0x06 => arg64 .addPitch arg
  | 0x07 => arg64 .addHeading arg
  | 0x0D => arg64 .addLatitude arg
  | 0x0E => arg64 .addLongitude arg
  | 0x0F => arg64 .addAltitude arg
  | 0x12 => arg64 .addHfov arg
  | 0x13 => arg64 .addVfov arg
  | 0x15 => arg64 .addGimbalRoll arg
  | 0x16 => arg64 .addGimbalPitch arg
  | 0x17 => arg64 .addGimbalYaw arg
  | 0x66 => arg32 .addSensorWidth arg
  | 0x67 => arg32 .addSensorHeight arg
  | 0x68 => arg32 .addFocalLength arg
  | 0x80 => argN .klvPack arg
  | 0x81 => argN .klvClear arg
  | 0x90 => some (.tsWrap arg)
  | 0xA0 => argSend arg
  | 0xA1 => argN .fragRefresh arg
  | 0xB0 => some (.rxPacket arg)
  | 0xB1 => argN .rxPop arg
  | 0xC0 => argCsrw arg
  | 0xC1 => argCsrr arg
  | 0xFF => argN .reset arg
  | _ => none

/-- The decoder: `op(1) ++ alen(4) ++ arg(alen)`, total on any byte string (R70, R73, R75). -/
def decode : Bytes → Decoded
  | op :: a3 :: a2 :: a1 :: a0 :: tail =>
    let alen := fromBe [a3, a2, a1, a0]
    if tail.length < alen then .truncated
    else
      match decodeArg op (tail.take alen) with
      | some i => .command i (tail.drop alen)
      | none => .illegal op (tail.drop alen)
  | _ => .truncated

/-- The opcode of a command (R72). -/
def Instr.opcode : Instr → Byte
  | .addTimestamp _ => 0x02
  | .addRoll _ => 0x05
  | .addPitch _ => 0x06
  | .addHeading _ => 0x07
  | .addLatitude _ => 0x0D
  | .addLongitude _ => 0x0E
  | .addAltitude _ => 0x0F
  | .addHfov _ => 0x12
  | .addVfov _ => 0x13
  | .addGimbalRoll _ => 0x15
  | .addGimbalPitch _ => 0x16
  | .addGimbalYaw _ => 0x17
  | .addSensorWidth _ => 0x66
  | .addSensorHeight _ => 0x67
  | .addFocalLength _ => 0x68
  | .klvPack => 0x80
  | .klvClear => 0x81
  | .tsWrap _ => 0x90
  | .fragSend _ _ _ => 0xA0
  | .fragRefresh => 0xA1
  | .rxPacket _ => 0xB0
  | .rxPop => 0xB1
  | .cfgWrite _ _ => 0xC0
  | .csrRead _ => 0xC1
  | .reset => 0xFF

/-- The argument bytes of a command in its format (R71). -/
def Instr.args : Instr → Bytes
  | .addTimestamp v => be 8 v.toNat
  | .addRoll x => be 8 x.toNat
  | .addPitch x => be 8 x.toNat
  | .addHeading x => be 8 x.toNat
  | .addLatitude x => be 8 x.toNat
  | .addLongitude x => be 8 x.toNat
  | .addAltitude x => be 8 x.toNat
  | .addHfov x => be 8 x.toNat
  | .addVfov x => be 8 x.toNat
  | .addGimbalRoll x => be 8 x.toNat
  | .addGimbalPitch x => be 8 x.toNat
  | .addGimbalYaw x => be 8 x.toNat
  | .addSensorWidth w => be 4 w.toNat
  | .addSensorHeight w => be 4 w.toNat
  | .addFocalLength w => be 4 w.toNat
  | .klvPack => []
  | .klvClear => []
  | .tsWrap data => data
  | .fragSend tag ts frame => tag :: (be 8 ts.toNat ++ frame)
  | .fragRefresh => []
  | .rxPacket d => d
  | .rxPop => []
  | .cfgWrite csr value => csr :: be 4 value.toNat
  | .csrRead csr => [csr]
  | .reset => []

/-- The encoder: the bytes of a command on the command port (R70). -/
def encode (i : Instr) : Bytes := i.opcode :: (be 4 i.args.length ++ i.args)

/-- The bytes of a word `w` of `nbits` bits numbered as spec/opcode_table.json numbers it: the 40-bit
command header `op(1) ++ alen(4)` is one number, its first byte most significant (header[39:32] is
command byte 0); argument byte `k` is bits 40+8k and up, 0 above `nbits` (log entry 3). -/
def tableWordBytes (nbits w : Nat) : Bytes :=
  let v := w % 2 ^ nbits
  be 5 (v % 2 ^ 40) ++
    (List.range (v % 2 ^ 32)).map fun k => BitVec.ofNat 8 (v / 2 ^ (40 + 8 * k))

/-- The command the decoder reads from a word numbered as the opcode table numbers it; none where the
decoder refuses it. -/
def decodeTableWord (nbits w : Nat) : Option Instr :=
  match decode (tableWordBytes nbits w) with
  | .command i _ => some i
  | .illegal _ _ => none
  | .truncated => none

end Sys2Proof
end

