-- ==== Sys2Proof/Machine/Fetch.lean ====
section
/-! DEFINITION. Taking the next command from the command port (spec/30_encoding.md R70, R73, R75;
spec/20_memory.md R60). -/

namespace Sys2Proof.Machine

/-- What stands at the command port. -/
inductive Fetched where
  /-- No byte: PFCORE is idle and holds all its state (R287, R300). -/
  | idle
  /-- The stream ends inside a command (R75). -/
  | truncated
  /-- An illegal command, and the state once its bytes are consumed (R73). -/
  | illegal (op : Byte) (s : State)
  /-- A legal command, and the state once its bytes are consumed. -/
  | command (i : Instr) (s : State)
  deriving DecidableEq, Repr

/-- The next command: decoded from the head of the stream, its bytes consumed, the environment's answers
for it latched (R15, R60). -/
def fetch (s : State) : Fetched :=
  if s.cmdIn.isEmpty then .idle
  else
    match decode s.cmdIn with
    | .truncated => .truncated
    | .illegal op rest => .illegal op (s.latch rest)
    | .command i rest => .command i (s.latch rest)

/-- The bytes of a word numbered as the opcode table numbers it, put before what the host has presented
(log entry 3). -/
def presentTableWord (s : State) (nbits w : Nat) : State :=
  { s with cmdIn := tableWordBytes nbits w ++ s.cmdIn }

end Sys2Proof.Machine
end

