-- ==== Sys2Proof/Machine/Step.lean ====
section
/-! DEFINITION. One step of PFCORE: one command performed completely (spec/00_scope.md R15,
spec/20_memory.md R57, R60). -/

namespace Sys2Proof.Machine

/-- One step: the next command of the command stream, legal or illegal, is performed completely. With no
command at the port nothing happens (R287); a stream that ends inside a command is refused (R75). -/
def step (s : State) : Host.Outcome State Fault Refusal :=
  match fetch s with
  | .idle => .next s
  | .truncated => .refused .truncatedCommand
  | .illegal op s' => execIllegal op s'
  | .command i s' => exec i s'

/-- The state with the command of a table word at the head of the command stream, so that the next step
performs it: the host presents it (R313; log entry 3). -/
def State.withFetchWord (s : State) (nbits w : Nat) : State := presentTableWord s nbits w

end Sys2Proof.Machine
end

