-- ==== Sys2Proof/Machine/Framing.lean ====
section
/-! DEFINITION. The byte framing of a response (spec/30_encoding.md R76, R77): the serialisation of the
records and the status, which exists when every length fits 32 bits (spec/44_control.md R260 (i), U23). -/

namespace Sys2Proof.Machine

/-- The port number (R76). -/
def OutPort.code : OutPort → Byte
  | .klvOut => 0x01
  | .tsOut => 0x02
  | .txOut => 0x03
  | .frameOut => 0x04
  | .csrOut => 0x05

/-- The status byte (R77). -/
def Status.code : Status → Byte
  | .ok => 0x00
  | .validationError => 0x01
  | .transportError => 0x02
  | .reassemblyDiscard => 0x03
  | .illegalCommand => 0x04
  | .capacityError => 0x05

/-- An output record: `port(1) ++ flags(1) ++ rlen(4) ++ data(rlen)`; none when the length does not fit
(R76, U23). -/
def frameRecord (r : Record) : Option Bytes :=
  if r.data.length < 2 ^ 32 then some (r.port.code :: r.flags :: (be 4 r.data.length ++ r.data))
  else none

/-- The output records of a response, in order (R76). -/
def frameRecords : List Record → Option Bytes
  | [] => some []
  | r :: rest =>
    match frameRecord r, frameRecords rest with
    | some b, some bs => some (b ++ bs)
    | _, _ => none

/-- A whole response: the records, then the end record `0x00 ++ status(1)` (R76). -/
def frameResponse (r : Response) : Option Bytes :=
  match frameRecords r.records with
  | some b => some (b ++ [0x00, r.status.code])
  | none => none

end Sys2Proof.Machine
end

