-- ==== Sys2Proof/Machine/Macros.lean ====
section
/-! DEFINITION. The pseudo-instructions (spec/30_encoding.md R90 to R93): the host's exact command sequences,
with no opcode of their own. They are what the host does with `exec`, not part of the block. -/

namespace Sys2Proof.Machine

/-- A TelemetrySample (R18): any field may be absent; a real field is the 64 bits of a binary64, a sensor
field the 32 bits of a binary32. -/
structure TelemetrySample where
  timestamp : Option (BitVec 64)
  latitude : Option (BitVec 64)
  longitude : Option (BitVec 64)
  altitude : Option (BitVec 64)
  roll : Option (BitVec 64)
  pitch : Option (BitVec 64)
  yaw : Option (BitVec 64)
  hfov : Option (BitVec 64)
  vfov : Option (BitVec 64)
  gimbalRoll : Option (BitVec 64)
  gimbalPitch : Option (BitVec 64)
  gimbalYaw : Option (BitVec 64)
  sensorWidth : Option (BitVec 32)
  sensorHeight : Option (BitVec 32)
  focalLength : Option (BitVec 32)
  gpsFixed : Option Bool
  deriving DecidableEq, Repr

/-- `GPS_POLICY`, with `GPS_DEFAULT_ALT` where it is used (R91, D14); the spec gives no default. -/
inductive GpsPolicy where
  | omit
  | defaultAlt (altitude : BitVec 64)
  deriving DecidableEq, Repr

/-- The command of a field that is present. -/
def fieldCommand {α : Type} (mk : α → Instr) (field : Option α) : List Instr :=
  (field.map mk).toList

/-- Whether GPS is fixed in a sample: what its `gps_fixed` says; a free value where that field is absent
(R18, R91, log entry 22). -/
def TelemetrySample.fixed (sample : TelemetrySample) : Bool :=
  sample.gpsFixed.getD (Config.freeGpsFixed sample.latitude sample.longitude sample.altitude)

/-- The position commands of a sample (R91): as present when GPS is fixed; else none, or the default
altitude alone. -/
def positionCommands (policy : GpsPolicy) (sample : TelemetrySample) : List Instr :=
  if sample.fixed then
    fieldCommand .addLatitude sample.latitude ++ fieldCommand .addLongitude sample.longitude ++
      fieldCommand .addAltitude sample.altitude
  else
    match policy with
    | .omit => []
    | .defaultAlt alt => [.addAltitude alt]

/-- The add commands of `ENCODE_SAMPLE`, in order (R91). -/
def sampleCommands (policy : GpsPolicy) (sample : TelemetrySample) : List Instr :=
  fieldCommand .addTimestamp sample.timestamp ++ positionCommands policy sample ++
    fieldCommand .addRoll sample.roll ++ fieldCommand .addPitch sample.pitch ++
    fieldCommand .addHeading sample.yaw ++ fieldCommand .addHfov sample.hfov ++
    fieldCommand .addVfov sample.vfov ++ fieldCommand .addGimbalRoll sample.gimbalRoll ++
    fieldCommand .addGimbalPitch sample.gimbalPitch ++ fieldCommand .addGimbalYaw sample.gimbalYaw ++
    fieldCommand .addSensorWidth sample.sensorWidth ++
    fieldCommand .addSensorHeight sample.sensorHeight ++
    fieldCommand .addFocalLength sample.focalLength

/-- One command performed; every command answers a next state. -/
def perform (i : Instr) (s : State) : State :=
  match exec i s with
  | .next t => t
  | .fault _ => s
  | .refused _ => s

/-- Commands performed in order (R60). -/
def performAll (is : List Instr) (s : State) : State := is.foldl (fun t i => perform i t) s

/-- The status of the latest response. -/
def State.lastStatus (s : State) : Option Status := s.resp.map Response.status

/-- The data of the latest response's records, joined. -/
def State.lastData (s : State) : Bytes :=
  match s.resp with
  | none => []
  | some r => (r.records.map Record.data).flatten

/-- The add commands, stopped after the first that ends with `VALIDATION_ERROR`; whether all were issued
without one (R91). -/
def performSample : List Instr → State → State × Bool
  | [], s => (s, true)
  | i :: rest, s =>
    if (perform i s).lastStatus = some .validationError then (perform i s, false)
    else performSample rest (perform i s)

/-- `ENCODE_SAMPLE sample` (R91): `KLV_CLEAR`, the add commands, `KLV_PACK`; the KLVPacket, or none when
the sample is dropped. -/
def encodeSample (policy : GpsPolicy) (sample : TelemetrySample) (s : State) : State × Option Bytes :=
  let added := performSample (sampleCommands policy sample) (perform .klvClear s)
  if added.2 then (perform .klvPack added.1, some (perform .klvPack added.1).lastData)
  else (added.1, none)

/-- The blob of `SEND_TELEMETRY`: the packet itself, or its transport-stream packets joined (R92). -/
def telemetryBlob (wrap : Bool) (packet : Bytes) (s : State) : State × Bytes :=
  if wrap then (perform (.tsWrap packet) s, (perform (.tsWrap packet) s).lastData) else (s, packet)

/-- `SEND_TELEMETRY sample, wrap, type_tag, timestamp` (R92): the final state, and the blob the host hands
to the transport itself when it is not oversized. -/
def sendTelemetry (policy : GpsPolicy) (sample : TelemetrySample) (wrap : Bool) (tag : Byte)
    (ts : BitVec 64) (s : State) : State × Option Bytes :=
  match encodeSample policy sample s with
  | (s1, none) => (s1, none)
  | (s1, some packet) =>
    let blob := telemetryBlob wrap packet s1
    if s1.cfg.fragMaxChunk.toNat < blob.2.length then
      (perform (.fragSend tag ts blob.2) blob.1, none)
    else (blob.1, some blob.2)

/-- `SEND_FRAME type_tag, timestamp, frame` (R93). -/
def sendFrame (tag : Byte) (ts : BitVec 64) (frame : Bytes) (s : State) : State :=
  perform (.fragSend tag ts frame) s

/-- `RX_POP` repeated `n` times; the data popped, in order. -/
def popTimes : Nat → State → State × List Bytes
  | 0, s => (s, [])
  | n + 1, s =>
    let rest := popTimes n (perform .rxPop s)
    (rest.1, (perform .rxPop s).lastData :: rest.2)

/-- `RECV datagram` (R93): `RX_PACKET`, then `RX_POP` while `OUTQ_LEVEL` is not zero. -/
def recv (d : Bytes) (s : State) : State × List Bytes :=
  popTimes (perform (.rxPacket d) s).outq.length (perform (.rxPacket d) s)

end Sys2Proof.Machine
end

