-- ==== Sys2Proof/Machine/Reference.lean ====
section
/-! DEFINITION. The reference decoder of spec/95_test_vectors.md section 3. It is no part of PFCORE (R7); it
stands here so that the round trips the source asks for can be stated. -/

namespace Sys2Proof.Machine

/-- `unber` at the head of a byte string: the length and the bytes after it (section 3). -/
def unber : Bytes → Option (Nat × Bytes)
  | [] => none
  | b :: rest =>
    if b.toNat < 0x80 then some (b.toNat, rest)
    else if b = 0x81 then if 1 ≤ rest.length then some (fromBe (rest.take 1), rest.drop 1) else none
    else if b = 0x82 then if 2 ≤ rest.length then some (fromBe (rest.take 2), rest.drop 2) else none
    else if b = 0x84 then if 4 ≤ rest.length then some (fromBe (rest.take 4), rest.drop 4) else none
    else none

/-- The items of a byte string, read with `fuel` items at most (section 3). -/
def parseItems : Nat → Bytes → Option (List (Byte × Bytes))
  | _, [] => some []
  | 0, _ :: _ => none
  | _ + 1, [_] => none
  | fuel + 1, tag :: len :: rest =>
    if rest.length < len.toNat then none
    else
      match parseItems fuel (rest.drop len.toNat) with
      | some items => some ((tag, rest.take len.toNat) :: items)
      | none => none

/-- `parse(pkt)` (section 3): the key, the declared length against what follows, the items. -/
def parsePacket (pkt : Bytes) : Option (List (Byte × Bytes)) :=
  if pkt.take 16 = klvKey then
    match unber (pkt.drop 16) with
    | some (n, items) => if items.length = n then parseItems items.length items else none
    | none => none
  else none

/-- `signed_N(u)` of a byte string of `n` bytes (section 3). -/
def signedBe (n : Nat) (b : Bytes) : Int :=
  if 2 * fromBe b < 256 ^ n then (fromBe b : Int) else (fromBe b : Int) - (256 ^ n : Nat)

end Sys2Proof.Machine
end

