-- ==== Sys2Proof/Safety.lean ====
section
/-! DEFINITION. The terms the statements are written in: the legal states, the units and what each may
touch, and the real numbers behind the operands, said in the rationals and independently of how the
machine computes them. -/

namespace Sys2Proof.Machine

/-! ## Legal states -/

/-- The tags of the subset implemented (R101). -/
def klvTags : List Byte := [2, 5, 6, 7, 13, 14, 15, 18, 19, 21, 22, 23, 102, 103, 104]

/-- An item buffer is a concatenation of serialized items, each of a tag of R101 and of 2, 4 or 8 value
bytes (R23). -/
def ItemsLegal (b : Bytes) : Prop :=
  ∃ items : List (Byte × Bytes),
    b = (items.map fun p => klvItem p.1 p.2).flatten ∧
      ∀ p ∈ items, p.1 ∈ klvTags ∧ (p.2.length = 2 ∨ p.2.length = 4 ∨ p.2.length = 8)

/-- An item of the output queue belongs to the variant in force (R32, R253). -/
def ItemOfVariant (v : FragVariant) : OutItem → Prop
  | .frame _ _ => v = .a
  | .datagram _ _ _ => v = .b

/-- What R20 to R37 say of every state between commands. The bound of R29 on the number of tracked
frame_ids is not here: R255 lets a `CFG_WRITE` lower it below that number (log entry 6). -/
structure Legal (s : State) : Prop where
  /-- R9. -/
  build : s.build.Legal
  /-- R23. -/
  items : ItemsLegal s.klvItems
  /-- R23, R122. -/
  itemsFit : s.klvItems.length ≤ s.build.klvBufMax
  /-- R36. -/
  interval : s.cfg.tsPsiInterval ≠ 0
  /-- R36. -/
  bound : s.cfg.rxMaxFrames ≠ 0
  /-- R25, R256. -/
  cadence : s.psiCtr.toNat < s.cfg.tsPsiInterval.toNat
  /-- R29, R31: no key stands twice. -/
  store : storeWf s.rxTable = true
  /-- R214, conflict C10: an entry holds a chunk and is not complete. -/
  unfinished : ∀ p ∈ s.rxTable, p.2.chunks ≠ [] ∧ entryComplete p.2 = false
  /-- R29: the table is used only under variant A. -/
  tableVariant : s.cfg.fragVariant ≠ .a → s.rxTable = []
  /-- R32. -/
  queueFits : s.outq.length ≤ s.build.outqDepth
  /-- R32, R253. -/
  queueVariant : ∀ item ∈ s.outq, ItemOfVariant s.cfg.fragVariant item
  /-- R28, R192: under variant B (and while unset) the caches are empty. -/
  cacheVariant : s.cfg.fragVariant ≠ .a → s.cache0 = none ∧ s.cache1 = none
  /-- R191: an empty Frame is not cached. -/
  cacheNonempty : s.cache0 ≠ some [] ∧ s.cache1 ≠ some []

/-! ## Encodings -/

/-- The opcodes of each format and the argument lengths it admits (R71, R72); no other opcode admits
any (R74). -/
def FormatAdmits (op n : Nat) : Prop :=
  (op ∈ [0x80, 0x81, 0xA1, 0xB1, 0xFF] ∧ n = 0) ∨
  (op ∈ [0x02, 0x05, 0x06, 0x07, 0x0D, 0x0E, 0x0F, 0x12, 0x13, 0x15, 0x16, 0x17] ∧ n = 8) ∨
  (op ∈ [0x66, 0x67, 0x68] ∧ n = 4) ∨ op ∈ [0x90, 0xB0] ∨ (op = 0xA0 ∧ 9 ≤ n) ∨
  (op = 0xC0 ∧ n = 5) ∨ (op = 0xC1 ∧ n = 1)

/-! ## Effects -/

/-- One KLVItem of `value` under `tag` appended, status `OK`, nothing else (R101, R122). -/
def afterItem (s : State) (tag : Byte) (value : Bytes) : State :=
  { s with
    klvItems := s.klvItems ++ tag :: BitVec.ofNat 8 value.length :: value
    resp := some { records := [], status := .ok } }

/-- `OK` with these records and nothing else. -/
def afterRecords (s : State) (records : List Record) : State :=
  { s with resp := some { records := records, status := .ok } }

/-- `VALIDATION_ERROR` and its counter, nothing else (R102). -/
def afterValidationError (s : State) : State :=
  { s with
    cnt := { s.cnt with validation := s.cnt.validation + 1 }
    resp := some { records := [], status := .validationError } }

/-- `CAPACITY_ERROR` and its counter, nothing else (R122, R276). -/
def afterCapacityError (s : State) : State :=
  { s with
    cnt := { s.cnt with capacity := s.cnt.capacity + 1 }
    resp := some { records := [], status := .capacityError } }

/-- `ILLEGAL_COMMAND` and its counter, nothing else (R277). -/
def afterIllegal (s : State) : State :=
  { s with
    cnt := { s.cnt with illegal := s.cnt.illegal + 1 }
    resp := some { records := [], status := .illegalCommand } }

/-- `REASSEMBLY_DISCARD` of a short datagram and its counter, nothing else (R211). -/
def afterShort (s : State) : State :=
  { s with
    cnt := { s.cnt with rxShort := s.cnt.rxShort + 1 }
    resp := some { records := [], status := .reassemblyDiscard } }

/-- The datagrams of one Frame under variant A, in ascending `chunk_id`, each with its index in the
command's emission order (R181 to R183, R190). -/
def frameOffers (s : State) (fid : BitVec 32) (tag : Byte) (f : Bytes) (base : Nat) :
    List (Nat × Record) :=
  let c := s.cfg.fragMaxChunk.toNat
  let total := (f.length + c - 1) / c
  (List.range total).map fun i =>
    (base + i,
      { port := .txOut
        flags := if tag = s.cfg.initTag0 ∨ tag = s.cfg.initTag1 then 1 else 0
        data :=
          be 4 fid.toNat ++ be 2 total ++ be 2 i ++ [tag, 0x00] ++ (f.drop (c * i)).take c })

/-- The datagrams of a variant B command, each with its index (R185, R186). -/
def streamOffers (s : State) (ts : BitVec 64) (f : Bytes) : List (Nat × Record) :=
  let c := s.cfg.fragMaxChunk.toNat
  (List.range ((f.length + c - 1) / c)).map fun i =>
    (i,
      { port := .txOut
        flags := 0
        data :=
          be 4 (s.nextId + BitVec.ofNat 32 i).toNat ++ be 8 ts.toNat ++ (f.drop (c * i)).take c })

/-- The cached units `FRAG_REFRESH` resends, `INIT_TAG0`'s first: those that need at most 65535 chunks
(R192). -/
def refreshUnits (s : State) : List (Byte × Bytes) :=
  let c := s.cfg.fragMaxChunk.toNat
  [(s.cfg.initTag0, s.cache0), (s.cfg.initTag1, s.cache1)].filterMap fun p =>
    match p.2 with
    | none => none
    | some f => if (f.length + c - 1) / c ≤ 65535 then some (p.1, f) else none

/-- How many cached units `FRAG_REFRESH` skips (R192). -/
def refreshSkips (s : State) : Nat :=
  let c := s.cfg.fragMaxChunk.toNat
  ([s.cache0, s.cache1].filter fun u =>
    match u with
    | none => false
    | some f => decide (65535 < (f.length + c - 1) / c)).length

/-- The datagrams of Frames sent one after the other, each Frame under the next identifier (R184, R192). -/
def framesOffers (s : State) (fid : BitVec 32) (base : Nat) :
    List (Byte × Bytes) → List (Nat × Record)
  | [] => []
  | (tag, f) :: rest =>
    let offers := frameOffers s fid tag f base
    offers ++ framesOffers s (fid + 1) (base + offers.length) rest

/-- What offering datagrams leaves, and the status (R188, R189): the accepted ones are emitted in order,
each refused one is counted. -/
def afterOffers (s : State) (offers : List (Nat × Record)) (skipped : Bool) : State :=
  let refused := offers.filter fun p => s.refusals.contains p.1
  { s with
    cnt := { s.cnt with txDrop := s.cnt.txDrop + BitVec.ofNat 32 refused.length }
    resp :=
      some
        { records := (offers.filter fun p => !s.refusals.contains p.1).map Prod.snd
          status :=
            if skipped then .capacityError
            else if refused = [] then .ok else .transportError } }

/-- The output queue after an item is pushed, and the drop counter (R219). -/
def afterPush (s : State) (item : OutItem) : State :=
  if s.outq.length < s.build.outqDepth then { s with outq := s.outq ++ [item] }
  else { s with cnt := { s.cnt with outDrop := s.cnt.outDrop + 1 } }

/-! ## Units -/

/-- The four units (R2). -/
inductive CoreUnit where
  | klv
  | ts
  | frag
  | rx
  deriving DecidableEq, Repr

/-- The unit of a command; none for a control operation (R72). -/
def unitOf : Instr → Option CoreUnit
  | .addTimestamp _ => some .klv
  | .addRoll _ => some .klv
  | .addPitch _ => some .klv
  | .addHeading _ => some .klv
  | .addLatitude _ => some .klv
  | .addLongitude _ => some .klv
  | .addAltitude _ => some .klv
  | .addHfov _ => some .klv
  | .addVfov _ => some .klv
  | .addGimbalRoll _ => some .klv
  | .addGimbalPitch _ => some .klv
  | .addGimbalYaw _ => some .klv
  | .addSensorWidth _ => some .klv
  | .addSensorHeight _ => some .klv
  | .addFocalLength _ => some .klv
  | .klvPack => some .klv
  | .klvClear => some .klv
  | .tsWrap _ => some .ts
  | .fragSend _ _ _ => some .frag
  | .fragRefresh => some .frag
  | .rxPacket _ => some .rx
  | .rxPop => some .rx
  | .cfgWrite _ _ => none
  | .csrRead _ => none
  | .reset => none

/-- What a command of a unit may write, besides the response (R100, R140, R180, R210): `t` is `s` but for
those fields. -/
def UnitFrame (u : CoreUnit) (s t : State) : Prop :=
  match u with
  | .klv =>
    t = { s with
          klvItems := t.klvItems, resp := t.resp
          cnt := { s.cnt with validation := t.cnt.validation, capacity := t.cnt.capacity } }
  | .ts =>
    t = { s with
          ccPat := t.ccPat, ccPmt := t.ccPmt, ccEs := t.ccEs, psiCtr := t.psiCtr, resp := t.resp }
  | .frag =>
    t = { s with
          nextId := t.nextId, fidWrapped := t.fidWrapped, cache0 := t.cache0, cache1 := t.cache1
          resp := t.resp
          cnt :=
            { s.cnt with
              txDrop := t.cnt.txDrop, capacity := t.cnt.capacity, illegal := t.cnt.illegal } }
  | .rx =>
    t = { s with
          rxTable := t.rxTable, outq := t.outq, resp := t.resp
          cnt :=
            { s.cnt with
              rxShort := t.cnt.rxShort, rxDup := t.cnt.rxDup, rxEvicted := t.cnt.rxEvicted
              rxFrames := t.cnt.rxFrames, outDrop := t.cnt.outDrop, illegal := t.cnt.illegal } }

/-- A status that is neither `ILLEGAL_COMMAND` nor `CAPACITY_ERROR` (R61). -/
abbrev PlainStatus (s : State) : Prop :=
  s.lastStatus ≠ some .illegalCommand ∧ s.lastStatus ≠ some .capacityError

/-! ## Real values -/

/-- `val(x)` of a finite binary64, in the rationals (R14, R78). -/
def f64Rat (x : BitVec 64) : ℚ :=
  let sign : ℚ := if x.msb then -1 else 1
  if f64Exp x = 0 then sign * (f64Frac x : ℚ) * (2 : ℚ) ^ (-1074 : ℤ)
  else sign * (1 + (f64Frac x : ℚ) / 2 ^ 52) * (2 : ℚ) ^ ((f64Exp x : ℤ) - 1023)

/-- `v` is `rnd(q)`: nearest, and at a tie the even one or the one of larger magnitude (R14). -/
def NearestInt (tie : Tie) (q : ℚ) (v : ℤ) : Prop :=
  |q - v| ≤ 1 / 2 ∧
    (|q - v| = 1 / 2 →
      match tie with
      | .even => v % 2 = 0
      | .away => |q| < |(v : ℚ)|)

/-- `y` is `fl(q)`: a finite binary64 no other is nearer to `q` than, with an even fraction at a tie
(R14). -/
def NearestF64 (q : ℚ) (y : BitVec 64) : Prop :=
  f64Finite y = true ∧
    (∀ z, f64Finite z = true → |q - f64Rat y| ≤ |q - f64Rat z|) ∧
    ∀ z, f64Finite z = true → f64Rat z ≠ f64Rat y → |q - f64Rat z| = |q - f64Rat y| →
      f64Frac y % 2 = 0

/-- The magnitude from which rounding to 53 significant bits passes the largest finite binary64. -/
def f64Beyond : ℚ := 2 ^ 1024 - 2 ^ 970

/-- `v` is the scaled integer of a product `q` as `SCALE_MODE` and `TIE` say (R14). Where the product
rounds beyond the finite range R14 states no value: any `v` of that sign and at least that size (log
entry 8). -/
def ScaledFrom (b : Build) (q : ℚ) (v : ℤ) : Prop :=
  match b.scaleMode with
  | .exact => NearestInt b.tie q v
  | .binary64 =>
    if |q| < f64Beyond then ∃ y, NearestF64 q y ∧ NearestInt b.tie (f64Rat y) v
    else (f64Max : ℤ) ≤ |v| ∧ (0 < v ↔ 0 < q)

/-- `v` is `scale(x, k)` (R14). -/
def ScalesTo (b : Build) (x : BitVec 64) (k : Nat) (v : ℤ) : Prop := ScaledFrom b (f64Rat x * k) v

/-- `y` is the heading `x` normalised (R109). -/
def HeadingNormal (b : Build) (x : BitVec 64) (y : ℚ) : Prop :=
  if f64Rat x < 0 then
    match b.scaleMode with
    | .exact => y = f64Rat x + 360
    | .binary64 => ∃ z, NearestF64 (f64Rat x + 360) z ∧ y = f64Rat z
  else y = f64Rat x

end Sys2Proof.Machine
end

