-- ==== Sys2Proof/Certificates/Slice0/Obligations.lean ====
section
/-! DEFINITION. The statements for the provers. Every one about a next state gives that state whole, so it
says what the command changes and that it changes nothing else: no other register, counter, buffer, cache,
table entry or queue item, no build parameter, no byte of the command stream.

The response field `resp` and the fields `build`, `cmdIn`, `envIn`, `refusals` are the model's own (log
entries 1 and 2): they carry the other arguments and the result of the step function of R15. -/

open Sys2Proof Sys2Proof.Machine

/-! ## Encoding and the step -/

/-- R70, R71, R72, R82: commands written out byte by byte from the spec's encoding decode to the commands
they stand for. -/
def Obligations.WrittenCommandsDecode : Prop :=
  decode [0x0D, 0, 0, 0, 8, 0x40, 0x46, 0x8F, 0xCD, 0x6D, 0xDC, 0x7C, 0x6D] =
      .command (.addLatitude 0x40468FCD6DDC7C6D) [] ∧
    decode [0x02, 0, 0, 0, 8, 0, 0x06, 0x0A, 0x24, 0x18, 0x1E, 0x40, 0, 0x80] =
      .command (.addTimestamp 1700000000000000) [0x80] ∧
    decode [0x66, 0, 0, 0, 4, 0x40, 0xC5, 0x70, 0xA4] = .command (.addSensorWidth 0x40C570A4) [] ∧
    decode [0x90, 0, 0, 0, 2, 0xAA, 0xBB] = .command (.tsWrap [0xAA, 0xBB]) [] ∧
    decode [0xA0, 0, 0, 0, 0x0A, 1, 0, 0, 0, 0, 0, 0, 0, 5, 0x7F] =
      .command (.fragSend 1 5 [0x7F]) [] ∧
    decode [0xB0, 0, 0, 0, 3, 1, 2, 3] = .command (.rxPacket [1, 2, 3]) [] ∧
    decode [0xC0, 0, 0, 0, 5, 0x01, 0, 0, 0xEA, 0x54] = .command (.cfgWrite 0x01 59988) [] ∧
    decode [0xC1, 0, 0, 0, 1, 0x03] = .command (.csrRead 0x03) [] ∧
    decode [0xFF, 0, 0, 0, 0] = .command .reset []

/-- R70 to R72, R78: the decoder reads back every command that has an encoding, with every operand at
every value, and leaves the bytes after it. -/
def Obligations.DecodeOfEncodeIsTheCommand : Prop :=
  ∀ (i : Instr) (rest : Bytes), i.wellFormed = true → decode (encode i ++ rest) = .command i rest

/-- R70 to R72: the decoder accepts nothing but the encoding of the command it gives. -/
def Obligations.DecodedBytesAreTheEncoding : Prop :=
  ∀ (b : Bytes) (i : Instr) (rest : Bytes),
    decode b = .command i rest → i.wellFormed = true ∧ b = encode i ++ rest

/-- R73: decoding is total. A whole command is legal exactly when its opcode is of R72 and `alen` fits the
format of R71, and its argument bytes are consumed either way; an illegal one increments `CNT_ILLEGAL`,
produces no record, ends with `ILLEGAL_COMMAND` and changes no other state of R20. That it also takes its
entry of the environment's answers, as a legal one does, is the model's choice (log entry 2). -/
def Obligations.IllegalCommandsAreConsumedAndCounted : Prop :=
  ∀ (op : Byte) (arg rest : Bytes), arg.length < 2 ^ 32 →
    (FormatAdmits op.toNat arg.length →
      ∃ i, decode (op :: (be 4 arg.length ++ arg ++ rest)) = .command i rest) ∧
    (¬ FormatAdmits op.toNat arg.length →
      ∀ s : State, s.cmdIn = op :: (be 4 arg.length ++ arg ++ rest) →
        step s =
          .next
            (afterIllegal
              { s with cmdIn := rest, refusals := s.envIn.headD [], envIn := s.envIn.tail }))

/-- R74: the opcodes that no command has are illegal whatever follows them. -/
def Obligations.ReservedOpcodesAreIllegal : Prop :=
  ∀ (op : Byte) (arg rest : Bytes), arg.length < 2 ^ 32 →
    (op.toNat ∈ [0x00, 0x01, 0x03, 0x04, 0x10, 0x11, 0x14] ∨
      (0x08 ≤ op.toNat ∧ op.toNat ≤ 0x0C) ∨ (0x18 ≤ op.toNat ∧ op.toNat ≤ 0x65) ∨
      (0x69 ≤ op.toNat ∧ op.toNat ≤ 0x7F) ∨ (0x82 ≤ op.toNat ∧ op.toNat ≤ 0x8F) ∨
      (0x91 ≤ op.toNat ∧ op.toNat ≤ 0x9F) ∨ (0xA2 ≤ op.toNat ∧ op.toNat ≤ 0xAF) ∨
      (0xB2 ≤ op.toNat ∧ op.toNat ≤ 0xBF) ∨ (0xC2 ≤ op.toNat ∧ op.toNat ≤ 0xFE)) →
    decode (op :: (be 4 arg.length ++ arg ++ rest)) = .illegal op rest

/-- R75: the end of a command is told from `alen` alone, legal or not; a stream that ends inside a command
is refused. -/
def Obligations.CommandEndsWhereAlenSays : Prop :=
  (∀ (op a3 a2 a1 a0 : Byte) (tail : Bytes),
    let n := fromBe [a3, a2, a1, a0]
    (tail.length < n → decode (op :: a3 :: a2 :: a1 :: a0 :: tail) = .truncated) ∧
    (n ≤ tail.length →
      (∃ i, decode (op :: a3 :: a2 :: a1 :: a0 :: tail) = .command i (tail.drop n)) ∨
        decode (op :: a3 :: a2 :: a1 :: a0 :: tail) = .illegal op (tail.drop n))) ∧
  (∀ b : Bytes, b.length < 5 → decode b = .truncated) ∧
  ∀ s : State, s.cmdIn ≠ [] → decode s.cmdIn = .truncated → step s = .refused .truncatedCommand

/-- R15, R60: a step performs the decoded command, on the state with the command's bytes consumed and the
environment's answers for it latched (how the model carries both is log entry 2). With no byte at the port
a step changes nothing: the model's choice, log entry 11. -/
def Obligations.StepPerformsTheDecodedCommand : Prop :=
  (∀ (s : State) (i : Instr) (rest : Bytes), decode s.cmdIn = .command i rest →
    step s =
      exec i { s with cmdIn := rest, refusals := s.envIn.headD [], envIn := s.envIn.tail }) ∧
  ∀ s : State, s.cmdIn = [] → step s = .next s

/-! ## Whole-machine statements -/

/-- R20 to R37: every step keeps the state legal. What `Legal` leaves out, the bound of R29 after a
`CFG_WRITE` that lowers it, is the model's reading of R255 (log entry 6). -/
def Obligations.EveryStepKeepsTheStateLegal : Prop :=
  ∀ s t : State, Legal s → step s = .next t → Legal t

/-- R42: the state after reset is legal. -/
def Obligations.ResetStateIsLegal : Prop := Legal State.reset

/-- R42, R250, R300: after power-on every piece of state has the value listed, and the `RESET` command
gives every field of R20 that value, with status `OK` and no record. That it keeps `build`, `cmdIn`,
`envIn` and `refusals`, the model's own fields, is the model's reading of R38 (log entry 18). -/
def Obligations.ResetGivesEveryFieldItsValue : Prop :=
  (State.reset.klvItems = [] ∧ State.reset.ccPat = 0 ∧ State.reset.ccPmt = 0 ∧
    State.reset.ccEs = 0 ∧ State.reset.psiCtr = 0 ∧ State.reset.nextId = 0 ∧
    State.reset.fidWrapped = false ∧ State.reset.cache0 = none ∧ State.reset.cache1 = none ∧
    State.reset.rxTable = [] ∧ State.reset.outq = [] ∧
    State.reset.cfg =
      { fragVariant := .unset, fragMaxChunk := 0, tsPsiInterval := 10, rxMaxFrames := 100,
        initTag0 := 7, initTag1 := 8 } ∧
    State.reset.cnt =
      { validation := 0, txDrop := 0, rxShort := 0, rxDup := 0, rxEvicted := 0, rxFrames := 0,
        outDrop := 0, illegal := 0, capacity := 0 }) ∧
  ∀ s : State,
    exec .reset s =
      .next
        { State.reset with
          build := s.build, cmdIn := s.cmdIn, envIn := s.envIn, refusals := s.refusals
          resp := some { records := [], status := .ok } }

/-- R9, R38: no step changes a build parameter. -/
def Obligations.BuildParametersNeverChange : Prop :=
  ∀ s t : State, step s = .next t → t.build = s.build

/-- R100, R140, R180, R210: a command of a unit writes only the unit's own fields and counters. -/
def Obligations.UnitsWriteOnlyTheirOwnState : Prop :=
  ∀ (i : Instr) (u : CoreUnit) (s t : State),
    unitOf i = some u → exec i s = .next t → UnitFrame u s t

/-- R61: two commands of different units, neither of which ends in `ILLEGAL_COMMAND` or `CAPACITY_ERROR`,
give the same final state and the same outputs in either order. -/
def Obligations.CommandsOfDifferentUnitsCommute : Prop :=
  ∀ (i j : Instr) (u v : CoreUnit) (s si sij sj sji : State),
    unitOf i = some u → unitOf j = some v → u ≠ v →
    exec i s = .next si → exec j si = .next sij →
    exec j s = .next sj → exec i sj = .next sji →
    PlainStatus si → PlainStatus sij → PlainStatus sj → PlainStatus sji →
    { sij with resp := none } = { sji with resp := none } ∧ si.resp = sji.resp ∧ sij.resp = sj.resp

/-- R27: `FID_WRAPPED` is sticky: only the `RESET` command clears it, and a command after which the
identifier counter stands lower has set it. -/
def Obligations.WrapFlagRecordsEveryWrap : Prop :=
  ∀ s t : State, (∀ rest, decode s.cmdIn ≠ .command .reset rest) → step s = .next t →
    (s.fidWrapped = true → t.fidWrapped = true) ∧
      (t.nextId.toNat < s.nextId.toNat → t.fidWrapped = true)

/-! ## Unit KLV -/

/-- R103: `ADD_TIMESTAMP` appends its 8 bytes, big-endian, whenever they fit, and is refused by
`CAPACITY_ERROR` alone. -/
def Obligations.AddTimestampAppendsEightBytes : Prop :=
  ∀ (v : BitVec 64) (s : State),
    (s.klvItems.length + 10 ≤ s.build.klvBufMax →
      exec (.addTimestamp v) s = .next (afterItem s 2 (be 8 v.toNat))) ∧
    (s.build.klvBufMax < s.klvItems.length + 10 →
      exec (.addTimestamp v) s = .next (afterCapacityError s))

/-- R104: an in-domain `ADD_LATITUDE` that fits appends `rnd(x * 10^7)` in 4 bytes. -/
def Obligations.AddLatitudeAppendsScaledDegrees : Prop :=
  ∀ (x : BitVec 64) (s : State), f64Finite x = true → |f64Rat x| ≤ 90 →
    s.klvItems.length + 6 ≤ s.build.klvBufMax →
    ∃ v : ℤ, ScalesTo s.build x 10000000 v ∧ -900000000 ≤ v ∧ v ≤ 900000000 ∧
      exec (.addLatitude x) s = .next (afterItem s 13 (be 4 (v % 2 ^ 32).toNat))

/-- R105: an in-domain `ADD_LONGITUDE` that fits appends `rnd(x * 10^7)` in 4 bytes. -/
def Obligations.AddLongitudeAppendsScaledDegrees : Prop :=
  ∀ (x : BitVec 64) (s : State), f64Finite x = true → |f64Rat x| ≤ 180 →
    s.klvItems.length + 6 ≤ s.build.klvBufMax →
    ∃ v : ℤ, ScalesTo s.build x 10000000 v ∧ -1800000000 ≤ v ∧ v ≤ 1800000000 ∧
      exec (.addLongitude x) s = .next (afterItem s 14 (be 4 (v % 2 ^ 32).toNat))

/-- R107: an in-domain `ADD_ROLL` that fits appends `rnd(x * 100)` in 2 bytes. -/
def Obligations.AddRollAppendsScaledDegrees : Prop :=
  ∀ (x : BitVec 64) (s : State), f64Finite x = true → |f64Rat x| ≤ 180 →
    s.klvItems.length + 4 ≤ s.build.klvBufMax →
    ∃ v : ℤ, ScalesTo s.build x 100 v ∧ -18000 ≤ v ∧ v ≤ 18000 ∧
      exec (.addRoll x) s = .next (afterItem s 5 (be 2 (v % 2 ^ 16).toNat))

/-- R108: an in-domain `ADD_PITCH` that fits appends `rnd(x * 100)` in 2 bytes. -/
def Obligations.AddPitchAppendsScaledDegrees : Prop :=
  ∀ (x : BitVec 64) (s : State), f64Finite x = true → |f64Rat x| ≤ 90 →
    s.klvItems.length + 4 ≤ s.build.klvBufMax →
    ∃ v : ℤ, ScalesTo s.build x 100 v ∧ -9000 ≤ v ∧ v ≤ 9000 ∧
      exec (.addPitch x) s = .next (afterItem s 6 (be 2 (v % 2 ^ 16).toNat))

/-- R109: `ADD_HEADING` of an operand from -360 to 360 that fits appends the normalised heading times 100
in 2 bytes. -/
def Obligations.AddHeadingAppendsNormalisedDegrees : Prop :=
  ∀ (x : BitVec 64) (s : State), f64Finite x = true → |f64Rat x| ≤ 360 →
    s.klvItems.length + 4 ≤ s.build.klvBufMax →
    ∃ (y : ℚ) (v : ℤ), HeadingNormal s.build x y ∧ 0 ≤ y ∧ y ≤ 360 ∧
      ScaledFrom s.build (y * 100) v ∧ 0 ≤ v ∧ v ≤ 36000 ∧
      exec (.addHeading x) s = .next (afterItem s 7 (be 2 v.toNat))

/-- R106: `ADD_ALTITUDE` of any finite operand that fits appends the low 16 bits of `rnd(x * 10)`: no
domain check, no clamp. Where a binary64 product leaves the finite range R14 states no scaled integer: that
the command then appends 16 bits of a free value is the model's choice (log entry 8). -/
def Obligations.AddAltitudeWrapsToSixteenBits : Prop :=
  ∀ (x : BitVec 64) (s : State), f64Finite x = true →
    s.klvItems.length + 4 ≤ s.build.klvBufMax →
    ∃ v : ℤ, ScalesTo s.build x 10 v ∧
      exec (.addAltitude x) s = .next (afterItem s 15 (be 2 (v % 65536).toNat))

/-- R110, R111: `ADD_HFOV` and `ADD_VFOV` append the scaled integer exactly when it fits an unsigned 16-bit
field, and end with `VALIDATION_ERROR` when it does not. Where a binary64 product leaves the finite range no
rule states the integer: that such an operand is refused is the model's choice (log entry 8). -/
def Obligations.FieldsOfViewAppendWhatSixteenBitsHold : Prop :=
  ∀ (x : BitVec 64) (s : State) (v : ℤ), f64Finite x = true → ScalesTo s.build x 100 v →
    (0 ≤ v → v ≤ 65535 → s.klvItems.length + 4 ≤ s.build.klvBufMax →
      exec (.addHfov x) s = .next (afterItem s 18 (be 2 v.toNat)) ∧
        exec (.addVfov x) s = .next (afterItem s 19 (be 2 v.toNat))) ∧
    (v < 0 ∨ 65535 < v →
      exec (.addHfov x) s = .next (afterValidationError s) ∧
        exec (.addVfov x) s = .next (afterValidationError s))

/-- R112 to R114: the three gimbal commands append the scaled integer exactly when it fits a signed 32-bit
field, and end with `VALIDATION_ERROR` when it does not. Where a binary64 product leaves the finite range no
rule states the integer: that such an operand is refused is the model's choice (log entry 8). -/
def Obligations.GimbalAnglesAppendWhatThirtyTwoBitsHold : Prop :=
  ∀ (x : BitVec 64) (s : State) (v : ℤ), f64Finite x = true → ScalesTo s.build x 1000000 v →
    (-2147483648 ≤ v → v ≤ 2147483647 → s.klvItems.length + 6 ≤ s.build.klvBufMax →
      exec (.addGimbalRoll x) s = .next (afterItem s 21 (be 4 (v % 2 ^ 32).toNat)) ∧
        exec (.addGimbalPitch x) s = .next (afterItem s 22 (be 4 (v % 2 ^ 32).toNat)) ∧
        exec (.addGimbalYaw x) s = .next (afterItem s 23 (be 4 (v % 2 ^ 32).toNat))) ∧
    (v < -2147483648 ∨ 2147483647 < v →
      exec (.addGimbalRoll x) s = .next (afterValidationError s) ∧
        exec (.addGimbalPitch x) s = .next (afterValidationError s) ∧
        exec (.addGimbalYaw x) s = .next (afterValidationError s))

/-- R115 to R117: the three raw float commands append the four operand bytes unchanged, every bit
pattern, whenever they fit, and are refused by `CAPACITY_ERROR` alone. -/
def Obligations.RawFloatsAppendTheirFourBytes : Prop :=
  ∀ (w : BitVec 32) (s : State),
    (s.klvItems.length + 6 ≤ s.build.klvBufMax →
      exec (.addSensorWidth w) s = .next (afterItem s 102 (be 4 w.toNat)) ∧
        exec (.addSensorHeight w) s = .next (afterItem s 103 (be 4 w.toNat)) ∧
        exec (.addFocalLength w) s = .next (afterItem s 104 (be 4 w.toNat))) ∧
    (s.build.klvBufMax < s.klvItems.length + 6 →
      exec (.addSensorWidth w) s = .next (afterCapacityError s) ∧
        exec (.addSensorHeight w) s = .next (afterCapacityError s) ∧
        exec (.addFocalLength w) s = .next (afterCapacityError s))

/-- R102, R273: a non-finite operand of any of the eleven `F64` commands, and an operand outside the degree
domains, end with `VALIDATION_ERROR`: nothing is appended and one counter moves. (The representable-range
domains of the fields of view and the gimbal angles are in the two statements about those commands.) -/
def Obligations.OutOfDomainOperandsAreRefused : Prop :=
  ∀ (x : BitVec 64) (s : State),
    (f64Finite x = false →
      ∀ i ∈ [Instr.addRoll x, .addPitch x, .addHeading x, .addLatitude x, .addLongitude x,
        .addAltitude x, .addHfov x, .addVfov x, .addGimbalRoll x, .addGimbalPitch x,
        .addGimbalYaw x], exec i s = .next (afterValidationError s)) ∧
    (f64Finite x = true →
      (90 < |f64Rat x| →
        exec (.addLatitude x) s = .next (afterValidationError s) ∧
          exec (.addPitch x) s = .next (afterValidationError s)) ∧
      (180 < |f64Rat x| →
        exec (.addLongitude x) s = .next (afterValidationError s) ∧
          exec (.addRoll x) s = .next (afterValidationError s)) ∧
      (360 < f64Rat x → exec (.addHeading x) s = .next (afterValidationError s)) ∧
      (∀ y, HeadingNormal s.build x y → y < 0 →
        exec (.addHeading x) s = .next (afterValidationError s)))

/-- R122, R276, R278: an `F64` add command whose operand is in domain and whose item would pass
`KLV_BUF_MAX` ends with `CAPACITY_ERROR`: nothing is appended and one counter moves. -/
def Obligations.ItemsPastTheCapacityAreRefused : Prop :=
  ∀ s : State,
    (s.build.klvBufMax < s.klvItems.length + 6 →
      ∀ x, f64Finite x = true →
        (|f64Rat x| ≤ 90 → exec (.addLatitude x) s = .next (afterCapacityError s)) ∧
        (|f64Rat x| ≤ 180 → exec (.addLongitude x) s = .next (afterCapacityError s)) ∧
        ∀ v, ScalesTo s.build x 1000000 v → -2147483648 ≤ v → v ≤ 2147483647 →
          exec (.addGimbalRoll x) s = .next (afterCapacityError s) ∧
            exec (.addGimbalPitch x) s = .next (afterCapacityError s) ∧
            exec (.addGimbalYaw x) s = .next (afterCapacityError s)) ∧
    (s.build.klvBufMax < s.klvItems.length + 4 →
      ∀ x, f64Finite x = true →
        exec (.addAltitude x) s = .next (afterCapacityError s) ∧
        (|f64Rat x| ≤ 90 → exec (.addPitch x) s = .next (afterCapacityError s)) ∧
        (|f64Rat x| ≤ 180 → exec (.addRoll x) s = .next (afterCapacityError s)) ∧
        (|f64Rat x| ≤ 360 → exec (.addHeading x) s = .next (afterCapacityError s)) ∧
        ∀ v, ScalesTo s.build x 100 v → 0 ≤ v → v ≤ 65535 →
          exec (.addHfov x) s = .next (afterCapacityError s) ∧
            exec (.addVfov x) s = .next (afterCapacityError s))

/-- R14: `scale` computes the integer nearest to the product, under each `SCALE_MODE` and `TIE`. (Where a
binary64 product leaves the finite range the value is free, log entry 8.) -/
def Obligations.ScaleRoundsTheProduct : Prop :=
  ∀ (b : Build) (x : BitVec 64) (k : Nat), f64Finite x = true → 0 < k →
    ScalesTo b x k (scale b x k)

/-- R123: under exact scaling, decoding the value bytes an `F64` add command appends, when it ends with
`OK`, recovers its operand (for a heading, the normalised one; for an altitude, one that did not wrap)
within half a quantisation step. -/
def Obligations.DecodedFieldsAreWithinHalfAStep : Prop :=
  ∀ (x : BitVec 64) (s : State), s.build.scaleMode = .exact →
    let decodesTo (i : Instr) (decode : Bytes → ℤ) (k operand : ℚ) : Prop :=
      ∀ t, exec i s = .next t → t.lastStatus = some .ok →
        |(decode (t.klvItems.drop (s.klvItems.length + 2)) : ℚ) / k - operand| ≤ 1 / (2 * k)
    let unsigned : Bytes → ℤ := fun b => fromBe b
    decodesTo (.addLatitude x) (signedBe 4) 10000000 (f64Rat x) ∧
    decodesTo (.addLongitude x) (signedBe 4) 10000000 (f64Rat x) ∧
    decodesTo (.addRoll x) (signedBe 2) 100 (f64Rat x) ∧
    decodesTo (.addPitch x) (signedBe 2) 100 (f64Rat x) ∧
    (∀ y, HeadingNormal s.build x y → decodesTo (.addHeading x) unsigned 100 y) ∧
    (∀ v, ScalesTo s.build x 10 v → 0 ≤ v → v ≤ 65535 →
      decodesTo (.addAltitude x) unsigned 10 (f64Rat x)) ∧
    decodesTo (.addHfov x) unsigned 100 (f64Rat x) ∧
    decodesTo (.addVfov x) unsigned 100 (f64Rat x) ∧
    decodesTo (.addGimbalRoll x) (signedBe 4) 1000000 (f64Rat x) ∧
    decodesTo (.addGimbalPitch x) (signedBe 4) 1000000 (f64Rat x) ∧
    decodesTo (.addGimbalYaw x) (signedBe 4) 1000000 (f64Rat x)

/-- R118: the four forms of the BER length, byte by byte. -/
def Obligations.BerLengthForms : Prop :=
  ∀ n : Nat,
    (n < 128 → ber n = [BitVec.ofNat 8 n]) ∧
    (128 ≤ n → n ≤ 255 → ber n = [0x81, BitVec.ofNat 8 n]) ∧
    (256 ≤ n → n ≤ 65535 → ber n = [0x82, BitVec.ofNat 8 (n / 256), BitVec.ofNat 8 n]) ∧
    (65536 ≤ n → n < 2 ^ 32 →
      ber n =
        [0x84, BitVec.ofNat 8 (n / 16777216), BitVec.ofNat 8 (n / 65536), BitVec.ofNat 8 (n / 256),
          BitVec.ofNat 8 n])

/-- spec/95_test_vectors.md section 3: the reference decoder reads back every BER length, and `ber` is
injective. -/
def Obligations.BerLengthsRoundTrip : Prop :=
  (∀ (n : Nat) (rest : Bytes), n < 2 ^ 32 → unber (ber n ++ rest) = some (n, rest)) ∧
    ∀ n m : Nat, n < 2 ^ 32 → m < 2 ^ 32 → ber n = ber m → n = m

/-- R119, R121: `KLV_PACK` emits key, BER length, items, in that order, and leaves the buffer as it
was. -/
def Obligations.KlvPackEmitsKeyLengthItems : Prop :=
  ∀ s : State,
    exec .klvPack s =
      .next
        (afterRecords s
          [{ port := .klvOut
             flags := 0
             data :=
               [0x06, 0x0E, 0x2B, 0x34, 0x02, 0x0B, 0x01, 0x01, 0x0E, 0x01, 0x03, 0x01, 0x01, 0x00,
                 0x00, 0x00] ++ ber s.klvItems.length ++ s.klvItems }])

/-- R120: `KLV_CLEAR` empties the item buffer and changes nothing else. -/
def Obligations.KlvClearEmptiesTheBuffer : Prop :=
  ∀ s : State, exec .klvClear s = .next (afterRecords { s with klvItems := [] } [])

/-- spec/95_test_vectors.md section 3: parsing a packed buffer gives its items in the order they were
appended. -/
def Obligations.PackedItemsParseBack : Prop :=
  ∀ items : List (Byte × Bytes), (∀ p ∈ items, p.2.length ≤ 255) →
    ((items.map fun p => klvItem p.1 p.2).flatten).length < 2 ^ 32 →
    parsePacket (klvPacket (items.map fun p => klvItem p.1 p.2).flatten) = some items

/-! ## Unit TS -/

/-- R141: the bit fields of the TS packet header. -/
def Obligations.TsHeaderFields : Prop :=
  ∀ (pid : Nat) (pusi : Bool) (cc : BitVec 4), pid < 2 ^ 13 →
    ∃ b1 b2 b3 : Byte, tsHeader pid pusi cc = [0x47, b1, b2, b3] ∧
      b1.getLsbD 7 = false ∧ b1.getLsbD 6 = pusi ∧ b1.getLsbD 5 = false ∧
      b1.toNat % 32 * 256 + b2.toNat = pid ∧
      b3.toNat / 64 = 0 ∧ b3.toNat / 16 % 4 = 1 ∧ b3.toNat % 16 = cc.toNat

/-- R141 to R145, R147, R149, R152 to R154: a non-empty `TS_WRAP` emits the table packets exactly when the
cadence counter is 0, then the payload packets, each written out as header, body and 0xFF stuffing, with its
PID, payload-start flag and counter; the counters and the cadence advance; nothing else changes. An empty
one does nothing. -/
def Obligations.TsWrapEmitsTablesThenPayload : Prop :=
  (∀ s : State, exec (.tsWrap []) s = .next (afterRecords s [])) ∧
  ∀ (data : Bytes) (s : State), data ≠ [] →
    let packets := 1 + (data.length - 183 + 183) / 184
    let packet (b1 b2 : Byte) (cc : BitVec 4) (body : Bytes) : Record :=
      { port := .tsOut
        flags := 0
        data :=
          [0x47, b1, b2, BitVec.ofNat 8 (0x10 + cc.toNat)] ++ body ++
            List.replicate (184 - body.length) 0xFF }
    let tables :=
      if s.psiCtr = 0 then
        [packet 0x40 0x00 s.ccPat (0x00 :: patSection s.build),
          packet 0x50 0x00 s.ccPmt (0x00 :: pmtSection s.build)]
      else []
    let payload := (List.range packets).map fun j =>
      if j = 0 then packet 0x41 0x00 s.ccEs (0x00 :: data.take 183)
      else
        packet 0x01 0x00 (s.ccEs + BitVec.ofNat 4 j) ((data.drop (183 + 184 * (j - 1))).take 184)
    exec (.tsWrap data) s =
      .next
        (afterRecords
          { s with
            ccPat := if s.psiCtr = 0 then s.ccPat + 1 else s.ccPat
            ccPmt := if s.psiCtr = 0 then s.ccPmt + 1 else s.ccPmt
            ccEs := s.ccEs + BitVec.ofNat 4 packets
            psiCtr := BitVec.ofNat 32 ((s.psiCtr.toNat + 1) % s.cfg.tsPsiInterval.toNat) }
          (tables ++ payload))

/-- R141, R143: every record `TS_WRAP` emits is a TS packet of exactly 188 bytes, the first 0x47 and the
first four the header of one of the three PIDs; a table packet sets payload-start. -/
def Obligations.EveryTsPacketHas188Bytes : Prop :=
  ∀ (data : Bytes) (s t : State), exec (.tsWrap data) s = .next t →
    ∃ records, t.resp = some { records := records, status := .ok } ∧
      ∀ r ∈ records, r.port = .tsOut ∧ r.data.length = 188 ∧ r.data.head? = some 0x47 ∧
        ∃ (pid : TsPid) (pusi : Bool) (cc : BitVec 4),
          r.data.take 4 = tsHeader pid.number pusi cc ∧ (pid ≠ .es → pusi = true)

/-- R144: no payload byte is lost: past the 4 header bytes (and the pointer byte of the first) the payload
packets spell the payload, then only stuffing. -/
def Obligations.TsPayloadIsCarriedWhole : Prop :=
  ∀ (data : Bytes) (s t : State), data ≠ [] → s.psiCtr ≠ 0 → exec (.tsWrap data) s = .next t →
    ∃ (first : Record) (later : List Record) (stuffing : Nat),
      t.resp = some { records := first :: later, status := .ok } ∧ stuffing < 184 ∧
        first.data.drop 5 ++ (later.map fun r => r.data.drop 4).flatten =
          data ++ List.replicate stuffing 0xFF

/-- R151: the CRC of a section, its own CRC bytes included, is 0. -/
def Obligations.CrcOfAWholeSectionIsZero : Prop :=
  ∀ body : Bytes, crc32Mpeg2 (body ++ be 4 (crc32Mpeg2 body).toNat) = 0

/-- R146, R148, R150: the bytes of the two sections for every build parameter, the `section_length` field
of each counting the bytes after it, and the constants the spec gives for the default parameters. -/
def Obligations.SectionBytes : Prop :=
  (∀ b : Build,
    let pat := [0x00, 0xB0, 0x0D] ++ be 2 b.tsId.toNat ++ [0xC1, 0x00, 0x00, 0x00, 0x01, 0xF0, 0x00]
    let pmt := [0x02, 0xB0, 0x12, 0x00, 0x01, 0xC1, 0x00, 0x00] ++ be 2 (0xE000 + b.pmtPcrPid.toNat) ++
      [0xF0, 0x00, 0x06, 0xE1, 0x00, 0xF0, 0x00]
    patSection b = pat ++ be 4 (crc32Mpeg2 pat).toNat ∧
      pmtSection b = pmt ++ be 4 (crc32Mpeg2 pmt).toNat ∧
      fromBe ((patSection b).take 3) % 4096 = ((patSection b).drop 3).length ∧
      fromBe ((pmtSection b).take 3) % 4096 = ((pmtSection b).drop 3).length) ∧
  ∀ b : Build,
    (b.tsId = 0x0001 →
      patSection b =
        [0x00, 0xB0, 0x0D, 0x00, 0x01, 0xC1, 0x00, 0x00, 0x00, 0x01, 0xF0, 0x00, 0x2A, 0xB1, 0x04,
          0xB2]) ∧
    (b.pmtPcrPid = 0x1FFF →
      pmtSection b =
        [0x02, 0xB0, 0x12, 0x00, 0x01, 0xC1, 0x00, 0x00, 0xFF, 0xFF, 0xF0, 0x00, 0x06, 0xE1, 0x00,
          0xF0, 0x00, 0x6A, 0x99, 0xAC, 0xE4]) ∧
    (b.pmtPcrPid = 0x0100 →
      pmtSection b =
        [0x02, 0xB0, 0x12, 0x00, 0x01, 0xC1, 0x00, 0x00, 0xE1, 0x00, 0xF0, 0x00, 0x06, 0xE1, 0x00,
          0xF0, 0x00, 0xBE, 0x7F, 0xA0, 0x52])

/-! ## Unit FRAG -/

/-- R182: the payload splitter: `ceil(S / C)` chunks, all but the last of exactly C bytes, the last of 1 to
C, in order and whole; with the source's example. -/
def Obligations.SplitterCutsTheFrameWhole : Prop :=
  (∀ (c : Nat) (f : Bytes), 1 ≤ c → f ≠ [] →
    let total := ceilDiv f.length c
    (chunks c f).length = total ∧ total * c < f.length + c ∧ f.length ≤ total * c ∧
      (chunks c f).flatten = f ∧
      (∀ i, i < total - 1 → (chunk c f i).length = c) ∧
      (chunk c f (total - 1)).length = f.length - c * (total - 1) ∧
      1 ≤ (chunk c f (total - 1)).length ∧ (chunk c f (total - 1)).length ≤ c) ∧
  ∀ f : Bytes, f.length = 150000 →
    (chunks 59988 f).map List.length = [59988, 59988, 30024]

/-- R183, R184, R188 to R191: `FRAG_SEND` of a Frame of at most 65535 chunks under variant A caches an
initialization unit, offers one datagram a chunk under the identifier `s.next_id`, drops and counts the
refused ones, and uses the identifier once. -/
def Obligations.FragSendVariantA : Prop :=
  ∀ (tag : Byte) (ts : BitVec 64) (f : Bytes) (s : State),
    s.cfg.fragVariant = .a → s.cfg.fragMaxChunk ≠ 0 → f ≠ [] →
    (f.length + s.cfg.fragMaxChunk.toNat - 1) / s.cfg.fragMaxChunk.toNat ≤ 65535 →
    exec (.fragSend tag ts f) s =
      .next
        (afterOffers
          { s with
            cache0 := if tag = s.cfg.initTag0 then some f else s.cache0
            cache1 :=
              if tag ≠ s.cfg.initTag0 ∧ tag = s.cfg.initTag1 then some f else s.cache1
            nextId := s.nextId + 1
            fidWrapped := s.fidWrapped || decide (s.nextId.toNat = 2 ^ 32 - 1) }
          (frameOffers s s.nextId tag f 0) false)

/-- R186, R188, R189: `FRAG_SEND` under variant B numbers every datagram, caches nothing, marks none
urgent, and has no limit on their number. -/
def Obligations.FragSendVariantB : Prop :=
  ∀ (tag : Byte) (ts : BitVec 64) (f : Bytes) (s : State),
    s.cfg.fragVariant = .b → s.cfg.fragMaxChunk ≠ 0 → f ≠ [] →
    exec (.fragSend tag ts f) s =
      .next
        (afterOffers
          { s with
            nextId := s.nextId + BitVec.ofNat 32 (streamOffers s ts f).length
            fidWrapped :=
              s.fidWrapped || decide (2 ^ 32 ≤ s.nextId.toNat + (streamOffers s ts f).length) }
          (streamOffers s ts f) false)

/-- R187: an empty Frame sends nothing and changes nothing; a variant A Frame of more than 65535 chunks
ends with `CAPACITY_ERROR` and changes nothing but its counter; a variant A Frame no longer than C is one
datagram of `total_chunks = 1` and `chunk_id = 0`, header included. -/
def Obligations.FragSendCornerCases : Prop :=
  ∀ (tag : Byte) (ts : BitVec 64) (s : State), s.cfg.fragMaxChunk ≠ 0 →
    (s.cfg.fragVariant ≠ .unset → exec (.fragSend tag ts []) s = .next (afterRecords s [])) ∧
    (s.cfg.fragVariant = .a → ∀ f : Bytes, 65535 * s.cfg.fragMaxChunk.toNat < f.length →
      exec (.fragSend tag ts f) s = .next (afterCapacityError s)) ∧
    (s.cfg.fragVariant = .a → ∀ f : Bytes, f ≠ [] → f.length ≤ s.cfg.fragMaxChunk.toNat →
      ∃ t, exec (.fragSend tag ts f) s = .next t ∧ t.nextId = s.nextId + 1 ∧
        (0 ∉ s.refusals →
          ∃ flags,
            t.resp =
              some
                { records :=
                    [{ port := .txOut
                       flags := flags
                       data := be 4 s.nextId.toNat ++ [0, 1, 0, 0, tag, 0x00] ++ f }]
                  status := .ok }) ∧
        (0 ∈ s.refusals → t.resp = some { records := [], status := .transportError }))

/-- R180: both operations of unit FRAG are illegal while the variant is unset or C is 0. -/
def Obligations.UnconfiguredFragIsIllegal : Prop :=
  ∀ s : State, s.cfg.fragVariant = .unset ∨ s.cfg.fragMaxChunk = 0 →
    (∀ tag ts f, exec (.fragSend tag ts f) s = .next (afterIllegal s)) ∧
      exec .fragRefresh s = .next (afterIllegal s)

/-- R192: `FRAG_REFRESH` of a configured unit resends each cached unit as a new Frame under a new
identifier, skips and counts a unit of more than 65535 chunks, and leaves the cache as it was. That skipping
both units counts two is the model's reading of R192 and R276 against R34 (log entry 20). -/
def Obligations.FragRefreshResendsTheCache : Prop :=
  ∀ s : State, s.cfg.fragVariant ≠ .unset → s.cfg.fragMaxChunk ≠ 0 →
    exec .fragRefresh s =
      .next
        (afterOffers
          { s with
            nextId := s.nextId + BitVec.ofNat 32 (refreshUnits s).length
            fidWrapped :=
              s.fidWrapped || decide (2 ^ 32 ≤ s.nextId.toNat + (refreshUnits s).length)
            cnt :=
              { s.cnt with capacity := s.cnt.capacity + BitVec.ofNat 32 (refreshSkips s) } }
          (framesOffers s s.nextId 0 (refreshUnits s)) (decide (0 < refreshSkips s)))

/-! ## Unit RX -/

/-- R210, R211: `RX_PACKET` is illegal while the variant is unset; a datagram shorter than the header of
the variant is discarded and counted, and nothing else changes. -/
def Obligations.UnreadableDatagramsAreRefused : Prop :=
  ∀ (d : Bytes) (s : State),
    (s.cfg.fragVariant = .unset → exec (.rxPacket d) s = .next (afterIllegal s)) ∧
    (s.cfg.fragVariant = .a → d.length < 10 → exec (.rxPacket d) s = .next (afterShort s)) ∧
    (s.cfg.fragVariant = .b → d.length < 12 → exec (.rxPacket d) s = .next (afterShort s))

/-- R181, R212: the receiver's parse of a datagram gives back its fields whatever its `type_tag` and
`reserved` bytes; the header the sender writes is these fields with `reserved` 0x00. -/
def Obligations.ReceiverParsesWhatTheSenderWrote : Prop :=
  ∀ (fid : BitVec 32) (total i : BitVec 16) (tag reserved : Byte) (payload : Bytes),
    let header : Byte → Bytes := fun r =>
      be 4 fid.toNat ++ be 2 total.toNat ++ be 2 i.toNat ++ [tag, r]
    parseA (header reserved ++ payload) =
        { fid := fid, total := total, index := i, payload := payload } ∧
      hdrA fid total.toNat i.toNat tag = header 0x00

/-- R215 to R218: a chunk of a tracked frame_id is stored at its `chunk_id`, a duplicate overwriting; the
entry takes the chunk's `total_chunks`; it completes exactly when the counts are equal, and then the Frame
is pushed and the entry deleted. -/
def Obligations.ChunkOfATrackedFrameIsStored : Prop :=
  ∀ (d : Bytes) (s : State) (e : Entry),
    s.cfg.fragVariant = .a → 10 ≤ d.length → mapGet (parseA d).fid s.rxTable = some e →
    let h := parseA d
    let stored : Entry := { total := h.total, chunks := mapSet h.index h.payload e.chunks }
    let dup : BitVec 32 := if (mapGet h.index e.chunks).isSome then 1 else 0
    let s' := { s with cnt := { s.cnt with rxDup := s.cnt.rxDup + dup } }
    (stored.chunks.length ≠ h.total.toNat →
      exec (.rxPacket d) s =
        .next (afterRecords { s' with rxTable := mapSet h.fid stored s.rxTable } [])) ∧
    (stored.chunks.length = h.total.toNat →
      exec (.rxPacket d) s =
        .next
          (afterRecords
            (afterPush
              { s' with
                rxTable := mapDel h.fid s.rxTable
                cnt := { s'.cnt with rxFrames := s.cnt.rxFrames + 1 } }
              (.frame h.fid (stored.chunks.map Prod.snd).flatten)) []))

/-- R213, R214: a chunk of a new frame_id. The lowest keys are evicted one at a time until there is room;
when the new frame_id is itself lower than every key left and there is still no room, it is the one
dropped, what was evicted staying evicted. An admitted chunk opens an entry. -/
def Obligations.NewFrameIsAdmittedOrDropped : Prop :=
  ∀ (d : Bytes) (s : State),
    s.cfg.fragVariant = .a → 10 ≤ d.length → mapWf s.rxTable = true →
    s.cfg.rxMaxFrames ≠ 0 → mapGet (parseA d).fid s.rxTable = none →
    let h := parseA d
    ∃ n, n ≤ s.rxTable.length ∧ (∀ p ∈ s.rxTable.take n, p.1.toNat < h.fid.toNat) ∧
      (0 < n → s.cfg.rxMaxFrames.toNat ≤ (s.rxTable.drop (n - 1)).length) ∧
      let kept := s.rxTable.drop n
      let s' :=
        { s with
          rxTable := kept
          cnt := { s.cnt with rxEvicted := s.cnt.rxEvicted + BitVec.ofNat 32 n } }
      ((kept.length < s.cfg.rxMaxFrames.toNat ∧
          ((h.total = 1 ∧
            exec (.rxPacket d) s =
              .next
                (afterRecords
                  (afterPush { s' with cnt := { s'.cnt with rxFrames := s.cnt.rxFrames + 1 } }
                    (.frame h.fid h.payload)) [])) ∨
          (h.total ≠ 1 ∧
            exec (.rxPacket d) s =
              .next
                (afterRecords
                  { s' with
                    rxTable :=
                      mapSet h.fid { total := h.total, chunks := [(h.index, h.payload)] } kept }
                  [])))) ∨
        (s.cfg.rxMaxFrames.toNat ≤ kept.length ∧ (∀ p ∈ kept, h.fid.toNat < p.1.toNat) ∧
          exec (.rxPacket d) s =
            .next
              { s' with
                cnt := { s'.cnt with rxEvicted := s'.cnt.rxEvicted + 1 }
                resp := some { records := [], status := .reassemblyDiscard } }))

/-- R29, R214, R255: the bound on tracked frame_ids holds after every command that does not lower it, once
it holds. That a `CFG_WRITE` may leave it broken is the model's reading of R255 (log entry 6). -/
def Obligations.TrackedFramesStayWithinTheBound : Prop :=
  ∀ (i : Instr) (s t : State), (∀ v, i ≠ .cfgWrite 0x03 v) → exec i s = .next t →
    mapWf s.rxTable = true → s.cfg.rxMaxFrames ≠ 0 → s.rxTable.length ≤ s.cfg.rxMaxFrames.toNat →
    t.rxTable.length ≤ t.cfg.rxMaxFrames.toNat

/-- R222 (a receiver given only this Frame's datagrams, with room for its entry): whatever the order and
the repetition, exactly one item is pushed, at the command that stores the last distinct chunk, and its
data is the Frame, byte for byte. -/
def Obligations.ReassemblyIsOrderIndependent : Prop :=
  ∀ (s : State) (f : Bytes) (c : Nat) (fid : BitVec 32) (tag : Byte) (order : List Nat) (last : Nat),
    s.cfg.fragVariant = .a → 1 ≤ c → f ≠ [] → ceilDiv f.length c ≤ 65535 →
    mapWf s.rxTable = true → mapGet fid s.rxTable = none →
    s.rxTable.length < s.cfg.rxMaxFrames.toNat →
    (∀ i ∈ order, i < ceilDiv f.length c) → last < ceilDiv f.length c → last ∉ order →
    (∀ i, i < ceilDiv f.length c → i ∈ order ∨ i = last) →
    let receive : List Nat → State :=
      fun is => performAll (is.map fun i => .rxPacket (datagramA fid c tag f i)) s
    (receive order).outq = s.outq ∧ (receive order).cnt.rxFrames = s.cnt.rxFrames ∧
      (receive (order ++ [last])).rxTable = s.rxTable ∧
      (receive (order ++ [last])).cnt.rxFrames = s.cnt.rxFrames + 1 ∧
      (receive (order ++ [last])).outq = (afterPush s (.frame fid f)).outq

/-- R226: a Frame of which one chunk never arrives is never pushed; its entry stays, incomplete. -/
def Obligations.MissingChunkNeverCompletes : Prop :=
  ∀ (s : State) (f : Bytes) (c : Nat) (fid : BitVec 32) (tag : Byte) (order : List Nat)
    (missing : Nat),
    s.cfg.fragVariant = .a → 1 ≤ c → f ≠ [] → ceilDiv f.length c ≤ 65535 →
    mapWf s.rxTable = true → mapGet fid s.rxTable = none →
    s.rxTable.length < s.cfg.rxMaxFrames.toNat → order ≠ [] →
    (∀ i ∈ order, i < ceilDiv f.length c) → missing < ceilDiv f.length c → missing ∉ order →
    let t := performAll (order.map fun i => .rxPacket (datagramA fid c tag f i)) s
    t.outq = s.outq ∧ t.cnt.rxFrames = s.cnt.rxFrames ∧
      ∃ e, mapGet fid t.rxTable = some e ∧ entryComplete e = false

/-- R219, R224: under variant B a datagram with a whole header is passed to the output queue as it came, or
dropped and counted when the queue is full; nothing waits and the status is `OK`; a short one is discarded
and counted. -/
def Obligations.VariantBPassesDatagramsOn : Prop :=
  ∀ s : State, s.cfg.fragVariant = .b →
    (∀ (seq : BitVec 32) (ts : BitVec 64) (payload : Bytes),
      exec (.rxPacket (be 4 seq.toNat ++ be 8 ts.toNat ++ payload)) s =
        .next (afterRecords (afterPush s (.datagram seq ts payload)) [])) ∧
    ∀ d : Bytes, d.length < 12 → exec (.rxPacket d) s = .next (afterShort s)

/-- R220: `RX_POP` emits the head of the queue and removes it; of an empty queue it does nothing. -/
def Obligations.RxPopRemovesTheHead : Prop :=
  ∀ (s : State) (rest : List OutItem),
    (s.outq = [] → exec .rxPop s = .next (afterRecords s [])) ∧
    (∀ fid data, s.outq = .frame fid data :: rest →
      exec .rxPop s =
        .next
          (afterRecords { s with outq := rest }
            [{ port := .frameOut, flags := 0, data := be 4 fid.toNat ++ data }])) ∧
    (∀ seq ts data, s.outq = .datagram seq ts data :: rest →
      exec .rxPop s =
        .next
          (afterRecords { s with outq := rest }
            [{ port := .frameOut
               flags := 0
               data := be 4 seq.toNat ++ be 8 ts.toNat ++ data }]))

/-! ## Control -/

/-- R251, R253 to R257: every legal `CFG_WRITE` writes its register, with the side effects on the cadence
counter and the refresh cache, and nothing else. That a write of `INIT_TAG0` or `INIT_TAG1` clears its cache
slot is the model's reading of R257 against R28 and R50 (log entry 19). -/
def Obligations.LegalConfigurationWrites : Prop :=
  ∀ (v : BitVec 32) (s : State),
    (s.cfg.fragVariant = .unset →
      exec (.cfgWrite 0x00 0) s = .next (afterRecords s []) ∧
      exec (.cfgWrite 0x00 1) s =
        .next (afterRecords { s with cfg := { s.cfg with fragVariant := .a } } []) ∧
      exec (.cfgWrite 0x00 2) s =
        .next (afterRecords { s with cfg := { s.cfg with fragVariant := .b } } [])) ∧
    exec (.cfgWrite 0x01 v) s =
      .next (afterRecords { s with cfg := { s.cfg with fragMaxChunk := v } } []) ∧
    (v ≠ 0 →
      exec (.cfgWrite 0x02 v) s =
        .next
          (afterRecords { s with cfg := { s.cfg with tsPsiInterval := v }, psiCtr := 0 } []) ∧
      exec (.cfgWrite 0x03 v) s =
        .next (afterRecords { s with cfg := { s.cfg with rxMaxFrames := v } } [])) ∧
    (v.toNat ≤ 255 →
      exec (.cfgWrite 0x04 v) s =
        .next
          (afterRecords
            { s with cfg := { s.cfg with initTag0 := v.setWidth 8 }, cache0 := none } []) ∧
      exec (.cfgWrite 0x05 v) s =
        .next
          (afterRecords
            { s with cfg := { s.cfg with initTag1 := v.setWidth 8 }, cache1 := none } []))

/-- R36, R37, R251, R253: every other `CFG_WRITE` ends with `ILLEGAL_COMMAND` and leaves every register as
it was: a reserved or read-only number, an illegal value, a second write of `FRAG_VARIANT`. -/
def Obligations.IllegalConfigurationWrites : Prop :=
  ∀ (csr : Byte) (v : BitVec 32) (s : State),
    (5 < csr.toNat ∨ (csr = 0x00 ∧ (s.cfg.fragVariant ≠ .unset ∨ 3 ≤ v.toNat)) ∨
      ((csr = 0x02 ∨ csr = 0x03) ∧ v = 0) ∨ ((csr = 0x04 ∨ csr = 0x05) ∧ 255 < v.toNat)) →
    exec (.cfgWrite csr v) s = .next (afterIllegal s)

/-- R36, R252: the CSR map as read: every register zero-extended to 32 bits, big-endian, with no side
effect; every other number ends with `ILLEGAL_COMMAND`. -/
def Obligations.ReadsFollowTheCsrMap : Prop :=
  ∀ s : State, s.klvItems.length < 2 ^ 32 → s.outq.length < 2 ^ 32 → s.rxTable.length < 2 ^ 32 →
    let map : List (Byte × Nat) :=
      [(0x00, match s.cfg.fragVariant with | .unset => 0 | .a => 1 | .b => 2),
        (0x01, s.cfg.fragMaxChunk.toNat), (0x02, s.cfg.tsPsiInterval.toNat),
        (0x03, s.cfg.rxMaxFrames.toNat), (0x04, s.cfg.initTag0.toNat), (0x05, s.cfg.initTag1.toNat),
        (0x10, (if s.fidWrapped then 1 else 0) + (if s.outq = [] then 0 else 2) +
          (if s.klvItems = [] then 0 else 4)),
        (0x11, s.klvItems.length), (0x13, s.ccPat.toNat), (0x14, s.ccPmt.toNat),
        (0x15, s.ccEs.toNat), (0x16, s.psiCtr.toNat), (0x17, s.nextId.toNat),
        (0x18, s.rxTable.length), (0x19, s.outq.length), (0x20, s.cnt.validation.toNat),
        (0x21, s.cnt.txDrop.toNat), (0x22, s.cnt.rxShort.toNat), (0x23, s.cnt.rxDup.toNat),
        (0x24, s.cnt.rxEvicted.toNat), (0x25, s.cnt.rxFrames.toNat), (0x26, s.cnt.outDrop.toNat),
        (0x27, s.cnt.illegal.toNat), (0x28, s.cnt.capacity.toNat)]
    (∀ p ∈ map,
      exec (.csrRead p.1) s =
        .next (afterRecords s [{ port := .csrOut, flags := 0, data := be 4 p.2 }])) ∧
    ∀ csr : Byte, (∀ p ∈ map, p.1 ≠ csr) → exec (.csrRead csr) s = .next (afterIllegal s)

/-- R37: a legal write reads back exactly, whatever the register. -/
def Obligations.LegalWritesReadBack : Prop :=
  ∀ (csr : Byte) (v : BitVec 32) (s t : State), exec (.cfgWrite csr v) s = .next t →
    t.lastStatus = some .ok →
    exec (.csrRead csr) t =
      .next (afterRecords t [{ port := .csrOut, flags := 0, data := be 4 v.toNat }])

/-! ## Responses and the host's macros -/

/-- R93: `RECV` leaves the output queue empty and changes nothing `RX_PACKET` did not, but the response. -/
def Obligations.RecvDrainsTheQueue : Prop :=
  ∀ (d : Bytes) (s : State),
    { (recv d s).1 with resp := none } = { perform (.rxPacket d) s with outq := [], resp := none }

/-- R18, R91: the add commands of `ENCODE_SAMPLE`, one for each field emitted, in order. With GPS fixed the
position is emitted as present; with GPS not fixed neither latitude nor longitude is, and the default
altitude stands in the altitude position exactly under `DEFAULT_ALT`. That a sample without `gps_fixed` is
taken as one or the other is the model's choice (log entry 22). -/
def Obligations.UnfixedGpsEmitsThePolicyAltitudeOnly : Prop :=
  ∀ (policy : GpsPolicy) (sample : TelemetrySample),
    let around (latitude longitude altitude : Option Instr) : List Instr :=
      [sample.timestamp.map .addTimestamp, latitude, longitude, altitude, sample.roll.map .addRoll,
        sample.pitch.map .addPitch, sample.yaw.map .addHeading, sample.hfov.map .addHfov,
        sample.vfov.map .addVfov, sample.gimbalRoll.map .addGimbalRoll,
        sample.gimbalPitch.map .addGimbalPitch, sample.gimbalYaw.map .addGimbalYaw,
        sample.sensorWidth.map .addSensorWidth, sample.sensorHeight.map .addSensorHeight,
        sample.focalLength.map .addFocalLength].filterMap id
    let fixed : List Instr :=
      around (sample.latitude.map .addLatitude) (sample.longitude.map .addLongitude)
        (sample.altitude.map .addAltitude)
    let unfixed : List Instr :=
      around none none
        (match policy with
        | .omit => none
        | .defaultAlt x => some (.addAltitude x))
    (sample.gpsFixed = some true → sampleCommands policy sample = fixed) ∧
    (sample.gpsFixed = some false →
      sampleCommands policy sample = unfixed ∧
        ∀ x, .addLatitude x ∉ sampleCommands policy sample ∧
          .addLongitude x ∉ sampleCommands policy sample ∧
          (.addAltitude x ∈ sampleCommands policy sample ↔ policy = .defaultAlt x)) ∧
    (sample.gpsFixed = none →
      sampleCommands policy sample = fixed ∨ sampleCommands policy sample = unfixed)
end

