-- ==== Sys2Proof/Laws/Bytes.lean ====
section
/-! SUPPORT. What the byte string operations do: lengths, big-endian fields read back, slices and chunks. -/

namespace Sys2Proof.Machine

/-! ## Big-endian fields -/

@[simp] theorem be_length (n v : Nat) : (be n v).length = n := by
  induction n with
  | zero => rfl
  | succ n ih => simp [be, ih]

theorem be_one (v : Nat) : be 1 v = [BitVec.ofNat 8 v] := by simp [be]

theorem be_two (v : Nat) : be 2 v = [BitVec.ofNat 8 (v / 256), BitVec.ofNat 8 v] := by simp [be]

theorem be_four (v : Nat) :
    be 4 v =
      [BitVec.ofNat 8 (v / 16777216), BitVec.ofNat 8 (v / 65536), BitVec.ofNat 8 (v / 256),
        BitVec.ofNat 8 v] := by
  simp [be]

/-- Bytes of `v` beyond the field are not in it. -/
theorem be_mod (n v : Nat) : be n (v % 256 ^ n) = be n v := by
  induction n generalizing v with
  | zero => rfl
  | succ n ih =>
    have hdvd : 256 ^ n ∣ 256 ^ (n + 1) := pow_dvd_pow 256 (Nat.le_succ n)
    have hlow : be n (v % 256 ^ (n + 1)) = be n v := by
      rw [← ih (v % 256 ^ (n + 1)), Nat.mod_mod_of_dvd v hdvd, ih]
    have hhigh : v % 256 ^ (n + 1) / 256 ^ n = v / 256 ^ n % 256 := by
      rw [pow_succ, Nat.mod_mul_right_div_self]
    simp only [be, hlow, hhigh, List.cons.injEq, and_true]
    apply BitVec.eq_of_toNat_eq
    simp

@[simp] theorem fromBe_nil : fromBe [] = 0 := rfl

theorem fromBe_foldl (b : Bytes) (acc : Nat) :
    b.foldl (fun a x => a * 256 + x.toNat) acc = acc * 256 ^ b.length + fromBe b := by
  induction b generalizing acc with
  | nil => simp
  | cons x rest ih =>
    simp only [fromBe, List.foldl_cons, List.length_cons]
    rw [ih, ih (0 * 256 + x.toNat)]
    ring

theorem fromBe_cons (x : Byte) (b : Bytes) : fromBe (x :: b) = x.toNat * 256 ^ b.length + fromBe b := by
  simpa [fromBe] using fromBe_foldl b (0 * 256 + x.toNat)

theorem fromBe_append (a b : Bytes) : fromBe (a ++ b) = fromBe a * 256 ^ b.length + fromBe b := by
  simp only [fromBe, List.foldl_append]
  exact fromBe_foldl b _

theorem fromBe_lt (b : Bytes) : fromBe b < 256 ^ b.length := by
  induction b with
  | nil => simp
  | cons x rest ih =>
    have hx : x.toNat < 256 := x.isLt
    rw [fromBe_cons, List.length_cons, pow_succ]
    nlinarith

/-- A field read back is the number modulo its size. -/
theorem fromBe_be_mod (n v : Nat) : fromBe (be n v) = v % 256 ^ n := by
  induction n generalizing v with
  | zero => simp [be, Nat.mod_one]
  | succ n ih =>
    have h := Nat.mod_mul_right_div_self v (256 ^ n) 256
    have hm : v % (256 ^ n * 256) % 256 ^ n = v % 256 ^ n := Nat.mod_mul_right_mod v (256 ^ n) 256
    have hd := Nat.div_add_mod (v % (256 ^ n * 256)) (256 ^ n)
    rw [h, hm] at hd
    rw [be, fromBe_cons, be_length, ih, BitVec.toNat_ofNat, Nat.mul_comm]
    exact hd

/-- A number that fits a field is read back from it (R12). -/
theorem fromBe_be {n v : Nat} (h : v < 256 ^ n) : fromBe (be n v) = v := by
  rw [fromBe_be_mod, Nat.mod_eq_of_lt h]

/-- A byte string is the field of the number it spells. -/
theorem be_fromBe (b : Bytes) : be b.length (fromBe b) = b := by
  induction b with
  | nil => rfl
  | cons x rest ih =>
    have hpos : 0 < 256 ^ rest.length := Nat.pow_pos (by norm_num)
    rw [List.length_cons, be, fromBe_cons]
    have hdiv : (x.toNat * 256 ^ rest.length + fromBe rest) / 256 ^ rest.length = x.toNat := by
      rw [Nat.add_comm, Nat.add_mul_div_right _ _ hpos, Nat.div_eq_of_lt (fromBe_lt rest), zero_add]
    have hlow : be rest.length (x.toNat * 256 ^ rest.length + fromBe rest) = rest := by
      rw [← be_mod, Nat.mul_add_mod_self_right, Nat.mod_eq_of_lt (fromBe_lt rest), ih]
    rw [hdiv, hlow]
    simp

@[simp] theorem fromBe_be_toNat32 (x : BitVec 32) : fromBe (be 4 x.toNat) = x.toNat :=
  fromBe_be (by have := x.isLt; omega)

@[simp] theorem fromBe_be_toNat64 (x : BitVec 64) : fromBe (be 8 x.toNat) = x.toNat :=
  fromBe_be (by have := x.isLt; omega)

@[simp] theorem fromBe_be_toNat16 (x : BitVec 16) : fromBe (be 2 x.toNat) = x.toNat :=
  fromBe_be (by have := x.isLt; omega)

/-! ## Slices and chunks -/

theorem slice_length (b : Bytes) (i j : Nat) : (slice b i j).length = min j b.length - i := by
  simp [slice]

/-- A chunk is what `drop` then `take` give. -/
theorem chunk_eq_take_drop (c : Nat) (b : Bytes) (i : Nat) : chunk c b i = (b.drop (c * i)).take c := by
  rw [chunk, slice, List.drop_take]
  congr 1
  rw [Nat.mul_succ, Nat.add_sub_cancel_left]

theorem chunk_length (c : Nat) (b : Bytes) (i : Nat) :
    (chunk c b i).length = min c (b.length - c * i) := by
  simp [chunk_eq_take_drop]

@[simp] theorem chunks_length (c : Nat) (b : Bytes) : (chunks c b).length = ceilDiv b.length c := by
  simp [chunks]

theorem le_ceilDiv_mul {a b : Nat} (hb : 0 < b) : a ≤ ceilDiv a b * b := by
  have h := Nat.div_add_mod (a + b - 1) b
  have hlt := Nat.mod_lt (a + b - 1) hb
  rw [ceilDiv, Nat.mul_comm]
  omega

theorem ceilDiv_mul_lt {a b : Nat} (ha : 0 < a) : ceilDiv a b * b < a + b := by
  have h := Nat.div_mul_le_self (a + b - 1) b
  rw [ceilDiv]
  omega

theorem ceilDiv_pos {a b : Nat} (ha : 0 < a) (hb : 0 < b) : 0 < ceilDiv a b :=
  Nat.div_pos (by omega) hb

/-- `ceil_div(a, b)` is the least `q` with `q * b >= a` (R260 (f)). -/
theorem ceilDiv_le_iff {a b q : Nat} (hb : 0 < b) : ceilDiv a b ≤ q ↔ a ≤ q * b := by
  rw [ceilDiv, Nat.div_le_iff_le_mul_add_pred hb, Nat.mul_comm q b]
  omega

/-- The first `n` chunks, joined, are the first `c * n` bytes. -/
theorem flatten_map_chunk_range (c : Nat) (b : Bytes) (n : Nat) :
    ((List.range n).map (chunk c b)).flatten = b.take (c * n) := by
  induction n with
  | zero => simp
  | succ n ih =>
    rw [List.range_succ, List.map_append, List.flatten_append, ih]
    simp only [List.map_cons, List.map_nil, List.flatten_cons, List.flatten_nil, List.append_nil]
    rw [chunk_eq_take_drop, Nat.mul_succ, List.take_add]

end Sys2Proof.Machine
end

