-- ==== Sys2Proof/Laws/Macros.lean ====
section
/-! SUPPORT. Laws of the host's macros: which position commands a sample gives, one lemma for each case of
`gps_fixed` (R91). -/

namespace Sys2Proof.Machine

theorem TelemetrySample.fixed_of_present {sample : TelemetrySample} {b : Bool}
    (h : sample.gpsFixed = some b) : sample.fixed = b := by simp [TelemetrySample.fixed, h]

theorem positionCommands_of_fixed (policy : GpsPolicy) {sample : TelemetrySample} (h : sample.fixed = true) :
    positionCommands policy sample =
      fieldCommand .addLatitude sample.latitude ++ fieldCommand .addLongitude sample.longitude ++
        fieldCommand .addAltitude sample.altitude := by simp [positionCommands, h]

theorem positionCommands_of_unfixed (policy : GpsPolicy) {sample : TelemetrySample}
    (h : sample.fixed = false) :
    positionCommands policy sample =
      match policy with
      | .omit => []
      | .defaultAlt alt => [.addAltitude alt] := by cases policy <;> simp [positionCommands, h]

end Sys2Proof.Machine
end

