-- ==== Sys2Proof/Laws/Maps.lean ====
section
/-! SUPPORT. What the map operations of unit RX do: reading after writing and deleting, and the canonical
form, which every operation keeps. -/

namespace Sys2Proof.Machine

variable {w : Nat} {α : Type}

/-! ## Reading -/

@[simp] theorem mapGet_nil (k : BitVec w) : mapGet k ([] : KeyMap w α) = none := rfl

theorem mapGet_cons (k k' : BitVec w) (v : α) (m : KeyMap w α) :
    mapGet k ((k', v) :: m) = if k = k' then some v else mapGet k m := rfl

theorem mapGet_eq_none_iff (k : BitVec w) (m : KeyMap w α) :
    mapGet k m = none ↔ ∀ p ∈ m, p.1 ≠ k := by
  induction m with
  | nil => simp
  | cons p m ih =>
    obtain ⟨k', v⟩ := p
    by_cases h : k = k' <;> simp [mapGet_cons, h, ih, eq_comm]

theorem mem_of_mapGet {k : BitVec w} {v : α} {m : KeyMap w α} (h : mapGet k m = some v) :
    (k, v) ∈ m := by
  induction m with
  | nil => simp at h
  | cons p m ih =>
    obtain ⟨k', v'⟩ := p
    rw [mapGet_cons] at h
    split at h
    · simp_all
    · exact List.mem_cons_of_mem _ (ih h)

/-- A written key reads as what was written. -/
@[simp] theorem mapGet_mapSet_self (k : BitVec w) (v : α) (m : KeyMap w α) :
    mapGet k (mapSet k v m) = some v := by
  induction m with
  | nil => simp [mapSet, mapGet_cons]
  | cons p m ih =>
    obtain ⟨k', v'⟩ := p
    rw [mapSet]
    split_ifs with h1 h2
    · simp [mapGet_cons]
    · simp [mapGet_cons]
    · simp [mapGet_cons, h2, ih]

/-- A write leaves every other key alone. -/
theorem mapGet_mapSet_ne {k j : BitVec w} (h : j ≠ k) (v : α) (m : KeyMap w α) :
    mapGet j (mapSet k v m) = mapGet j m := by
  induction m with
  | nil => simp [mapSet, mapGet_cons, h]
  | cons p m ih =>
    obtain ⟨k', v'⟩ := p
    rw [mapSet]
    split_ifs with h1 h2
    · simp [mapGet_cons, h]
    · subst h2; simp [mapGet_cons, h]
    · simp [mapGet_cons, ih]

/-- A deletion leaves every other key alone. -/
theorem mapGet_mapDel_ne {k j : BitVec w} (h : j ≠ k) (m : KeyMap w α) :
    mapGet j (mapDel k m) = mapGet j m := by
  induction m with
  | nil => rfl
  | cons p m ih =>
    obtain ⟨k', v'⟩ := p
    rw [mapDel]
    split_ifs with h1
    · subst h1; simp [mapGet_cons, h]
    · simp [mapGet_cons, ih]

/-! ## The canonical form -/

@[simp] theorem mapWf_nil : mapWf ([] : KeyMap w α) = true := rfl

@[simp] theorem mapWf_singleton (p : BitVec w × α) : mapWf [p] = true := by
  obtain ⟨k, v⟩ := p
  rfl

/-- The canonical form as a relation between any two entries. -/
theorem mapWf_iff_pairwise (m : KeyMap w α) :
    mapWf m = true ↔ m.Pairwise fun p q => p.1.toNat < q.1.toNat := by
  induction m with
  | nil => simp
  | cons p m ih =>
    cases m with
    | nil => simp
    | cons q m =>
      obtain ⟨k, v⟩ := p
      obtain ⟨k', v'⟩ := q
      rw [mapWf, Bool.and_eq_true, decide_eq_true_iff, ih]
      constructor
      · rintro ⟨hlt, hp⟩
        refine List.pairwise_cons.2 ⟨fun r hr => ?_, hp⟩
        rcases List.mem_cons.1 hr with rfl | hr
        · exact hlt
        · exact lt_trans hlt ((List.pairwise_cons.1 hp).1 r hr)
      · intro hp
        exact ⟨(List.pairwise_cons.1 hp).1 _ (List.mem_cons_self ..), (List.pairwise_cons.1 hp).2⟩

theorem mapWf_cons (k : BitVec w) (v : α) (m : KeyMap w α) :
    mapWf ((k, v) :: m) = true ↔ (∀ p ∈ m, k.toNat < p.1.toNat) ∧ mapWf m = true := by
  rw [mapWf_iff_pairwise, List.pairwise_cons, mapWf_iff_pairwise]

theorem mem_mapSet {k : BitVec w} {v : α} {m : KeyMap w α} {p : BitVec w × α}
    (h : p ∈ mapSet k v m) : p = (k, v) ∨ p ∈ m := by
  induction m with
  | nil => simpa [mapSet] using h
  | cons q m ih =>
    obtain ⟨k', v'⟩ := q
    rw [mapSet] at h
    split_ifs at h with h1 h2
    · simpa using h
    · rcases List.mem_cons.1 h with rfl | h
      · exact .inl rfl
      · exact .inr (List.mem_cons_of_mem _ h)
    · rcases List.mem_cons.1 h with rfl | h
      · exact .inr (List.mem_cons_self ..)
      · exact (ih h).imp_right (List.mem_cons_of_mem _)

theorem mem_mapDel {k : BitVec w} {m : KeyMap w α} {p : BitVec w × α} (h : p ∈ mapDel k m) : p ∈ m := by
  induction m with
  | nil => exact h
  | cons q m ih =>
    obtain ⟨k', v'⟩ := q
    rw [mapDel] at h
    split_ifs at h with h1
    · exact List.mem_cons_of_mem _ h
    · rcases List.mem_cons.1 h with rfl | h
      · exact List.mem_cons_self ..
      · exact List.mem_cons_of_mem _ (ih h)

theorem mapWf_mapSet (k : BitVec w) (v : α) {m : KeyMap w α} (h : mapWf m = true) :
    mapWf (mapSet k v m) = true := by
  induction m with
  | nil => simp [mapSet]
  | cons q m ih =>
    obtain ⟨k', v'⟩ := q
    have ⟨hlt, hm⟩ := (mapWf_cons k' v' m).1 h
    rw [mapSet]
    split_ifs with h1 h2
    · refine (mapWf_cons _ _ _).2 ⟨fun p hp => ?_, h⟩
      rcases List.mem_cons.1 hp with rfl | hp
      · exact h1
      · exact lt_trans h1 (hlt p hp)
    · subst h2; exact (mapWf_cons _ _ _).2 ⟨hlt, hm⟩
    · refine (mapWf_cons _ _ _).2 ⟨fun p hp => ?_, ih hm⟩
      rcases mem_mapSet hp with rfl | hp
      · have : k.toNat ≠ k'.toNat := fun e => h2 (BitVec.eq_of_toNat_eq e)
        show k'.toNat < k.toNat
        omega
      · exact hlt p hp

theorem mapWf_mapDel (k : BitVec w) {m : KeyMap w α} (h : mapWf m = true) :
    mapWf (mapDel k m) = true := by
  induction m with
  | nil => rfl
  | cons q m ih =>
    obtain ⟨k', v'⟩ := q
    have ⟨hlt, hm⟩ := (mapWf_cons k' v' m).1 h
    rw [mapDel]
    split_ifs with h1
    · exact hm
    · exact (mapWf_cons _ _ _).2 ⟨fun p hp => hlt p (mem_mapDel hp), ih hm⟩

theorem mapWf_drop (n : Nat) {m : KeyMap w α} (h : mapWf m = true) : mapWf (m.drop n) = true := by
  rw [mapWf_iff_pairwise] at h ⊢
  exact h.sublist (List.drop_sublist n m)

/-- A key stands once, so a deleted key is absent. -/
theorem mapGet_mapDel_self (k : BitVec w) {m : KeyMap w α} (h : mapWf m = true) :
    mapGet k (mapDel k m) = none := by
  induction m with
  | nil => rfl
  | cons q m ih =>
    obtain ⟨k', v'⟩ := q
    have ⟨hlt, hm⟩ := (mapWf_cons k' v' m).1 h
    rw [mapDel]
    split_ifs with h1
    · subst h1
      exact (mapGet_eq_none_iff _ _).2 fun p hp e => by
        have := hlt p hp
        rw [e] at this
        exact lt_irrefl _ this
    · rw [mapGet_cons, if_neg h1, ih hm]

/-! ## Counting -/

/-- A write of a new key counts one more. -/
theorem mapSet_length_of_none {k : BitVec w} {m : KeyMap w α} (v : α) (h : mapGet k m = none) :
    (mapSet k v m).length = m.length + 1 := by
  induction m with
  | nil => rfl
  | cons q m ih =>
    obtain ⟨k', v'⟩ := q
    rw [mapGet_cons] at h
    split_ifs at h with h1
    rw [mapSet]
    split_ifs with h2
    · simp
    · simp [ih h]

/-- A write of a present key counts the same. -/
theorem mapSet_length_of_some {k : BitVec w} {m : KeyMap w α} {u : α} (v : α) (hwf : mapWf m = true)
    (h : mapGet k m = some u) : (mapSet k v m).length = m.length := by
  induction m with
  | nil => simp at h
  | cons q m ih =>
    obtain ⟨k', v'⟩ := q
    have ⟨hlt, hm⟩ := (mapWf_cons k' v' m).1 hwf
    rw [mapGet_cons] at h
    split_ifs at h with h1
    · subst h1; simp [mapSet]
    · have hk := hlt _ (mem_of_mapGet h)
      rw [mapSet, if_neg (by simp at hk; omega), if_neg h1]
      simp [ih hm h]

theorem mapDel_length_le (k : BitVec w) (m : KeyMap w α) : (mapDel k m).length ≤ m.length := by
  induction m with
  | nil => simp [mapDel]
  | cons q m ih =>
    obtain ⟨k', v'⟩ := q
    rw [mapDel]
    split_ifs <;> simp [ih]

theorem mapSet_ne_nil (k : BitVec w) (v : α) (m : KeyMap w α) : mapSet k v m ≠ [] := by
  intro h
  have := mapGet_mapSet_self k v m
  simp [h] at this

/-! ## Deleting what was written -/

theorem mapDel_of_none {k : BitVec w} {m : KeyMap w α} (h : mapGet k m = none) : mapDel k m = m := by
  induction m with
  | nil => rfl
  | cons q m ih =>
    obtain ⟨k', v'⟩ := q
    rw [mapGet_cons] at h
    split_ifs at h with h1
    rw [mapDel, if_neg h1, ih h]

theorem mapDel_mapSet_of_none {k : BitVec w} {m : KeyMap w α} (v : α) (h : mapGet k m = none) :
    mapDel k (mapSet k v m) = m := by
  induction m with
  | nil => simp [mapSet, mapDel]
  | cons q m ih =>
    obtain ⟨k', v'⟩ := q
    rw [mapGet_cons] at h
    split_ifs at h with h1
    rw [mapSet]
    split_ifs with h2
    · simp [mapDel]
    · rw [mapDel, if_neg h1, ih h]

theorem mapSet_mapSet (k : BitVec w) (u v : α) (m : KeyMap w α) :
    mapSet k v (mapSet k u m) = mapSet k v m := by
  induction m with
  | nil => simp [mapSet]
  | cons q m ih =>
    obtain ⟨k', v'⟩ := q
    by_cases h1 : k.toNat < k'.toNat
    · simp [mapSet, h1]
    · by_cases h2 : k = k'
      · simp [mapSet, h2]
      · simp [mapSet, h1, h2, ih]

/-- Two maps in the canonical form that read alike are equal. -/
theorem eq_of_mapGet_eq {m n : KeyMap w α} (hm : mapWf m = true) (hn : mapWf n = true)
    (h : ∀ k, mapGet k m = mapGet k n) : m = n := by
  induction m generalizing n with
  | nil =>
    cases n with
    | nil => rfl
    | cons q n =>
      have := h q.1
      simp [mapGet] at this
  | cons p m ih =>
    obtain ⟨k, v⟩ := p
    cases n with
    | nil =>
      have := h k
      simp [mapGet] at this
    | cons q n =>
      obtain ⟨k', v'⟩ := q
      have ⟨hlt, hm'⟩ := (mapWf_cons k v m).1 hm
      have ⟨hlt', hn'⟩ := (mapWf_cons k' v' n).1 hn
      have hk : k = k' := by
        by_contra hne
        have h1 := h k
        have h2 := h k'
        rw [mapGet_cons, if_pos rfl, mapGet_cons, if_neg hne] at h1
        rw [mapGet_cons, if_neg (Ne.symm hne), mapGet_cons, if_pos rfl] at h2
        have a := hlt' _ (mem_of_mapGet h1.symm)
        have b := hlt _ (mem_of_mapGet h2)
        simp at a b
        omega
      subst hk
      have hv := h k
      rw [mapGet_cons, if_pos rfl, mapGet_cons, if_pos rfl, Option.some.injEq] at hv
      subst hv
      rw [ih hm' hn' fun j => ?_]
      by_cases hj : j = k
      · subst hj
        rw [(mapGet_eq_none_iff _ _).2 fun p hp e => ?_, (mapGet_eq_none_iff _ _).2 fun p hp e => ?_]
        · have := hlt' p hp
          rw [e] at this
          exact lt_irrefl _ this
        · have := hlt p hp
          rw [e] at this
          exact lt_irrefl _ this
      · have := h j
        rwa [mapGet_cons, if_neg hj, mapGet_cons, if_neg hj] at this

/-! ## The space `RXSTORE` -/

theorem storeWf_iff (t : FrameTable) :
    storeWf t = true ↔ mapWf t = true ∧ ∀ p ∈ t, mapWf p.2.chunks = true := by
  simp [storeWf]

/-- A write of an entry whose chunk map has the canonical form keeps it. -/
theorem storeWf_mapSet (fid : BitVec 32) {e : Entry} {t : FrameTable} (he : mapWf e.chunks = true)
    (h : storeWf t = true) : storeWf (mapSet fid e t) = true := by
  rw [storeWf_iff] at h ⊢
  refine ⟨mapWf_mapSet fid e h.1, fun p hp => ?_⟩
  rcases mem_mapSet hp with rfl | hp
  · exact he
  · exact h.2 p hp

theorem storeWf_mapDel (fid : BitVec 32) {t : FrameTable} (h : storeWf t = true) :
    storeWf (mapDel fid t) = true := by
  rw [storeWf_iff] at h ⊢
  exact ⟨mapWf_mapDel fid h.1, fun p hp => h.2 p (mem_mapDel hp)⟩

theorem storeWf_drop (n : Nat) {t : FrameTable} (h : storeWf t = true) : storeWf (t.drop n) = true := by
  rw [storeWf_iff] at h ⊢
  exact ⟨mapWf_drop n h.1, fun p hp => h.2 p (List.mem_of_mem_drop hp)⟩

/-- An entry read from a canonical table has a canonical chunk map. -/
theorem mapWf_chunks_of_mapGet {fid : BitVec 32} {e : Entry} {t : FrameTable} (h : storeWf t = true)
    (he : mapGet fid t = some e) : mapWf e.chunks = true :=
  ((storeWf_iff t).1 h).2 _ (mem_of_mapGet he)

/-- The state after reset has it. -/
theorem storeWf_reset : storeWf State.reset.rxTable = true := rfl

end Sys2Proof.Machine
end

