-- ==== Sys2Proof/Laws/Operands.lean ====
section
/-! SUPPORT. The dyadic rationals the machine computes with, against the rationals: the value of a binary64,
the operations on it, and rounding to an integer (spec/00_scope.md R14, spec/30_encoding.md R78). -/

namespace Sys2Proof.Machine

/-- The rational number a dyadic rational stands for. -/
def Dyad.rat (q : Dyad) : ℚ := (q.num : ℚ) / 2 ^ q.sh

/-! ## The value of a binary64 -/

/-- The value of a normal number from its fields. -/
theorem f64Rat_of_fields (x : BitVec 64) (neg : Bool) (e f : Nat) (hs : x.msb = neg) (he : f64Exp x = e)
    (hf : f64Frac x = f) (h0 : e ≠ 0) :
    f64Rat x = (if neg then -1 else 1) * (1 + (f : ℚ) / 2 ^ 52) * (2 : ℚ) ^ ((e : ℤ) - 1023) := by
  subst hs he hf
  rw [f64Rat, if_neg h0]

theorem f64Rat_zero : f64Rat 0 = 0 := by
  have he : f64Exp 0 = 0 := by decide
  have hf : f64Frac 0 = 0 := by decide
  rw [f64Rat, if_pos he, hf]
  simp

/-- The dyadic rational of a binary64 is its exact value. -/
theorem f64Val_rat (x : BitVec 64) : (f64Val x).rat = f64Rat x := by
  have hsign : ((if x.msb then -(f64Mant x : ℤ) else (f64Mant x : ℤ) : ℤ) : ℚ) =
      (if x.msb then -1 else 1) * (f64Mant x : ℚ) := by
    split <;> simp
  by_cases hm : f64Mant x = 0
  · have he : f64Exp x = 0 := by
      by_contra h
      simp [f64Mant, h] at hm
    have hf : f64Frac x = 0 := by simpa [f64Mant, he] using hm
    simp [f64Val, hm, Dyad.rat, f64Rat, he, hf]
  · by_cases he : f64Exp x = 0
    · have hmant : (f64Mant x : ℚ) = f64Frac x := by simp [f64Mant, he]
      have hval : f64Val x = { num := if x.msb then -(f64Mant x : ℤ) else f64Mant x, sh := 1074 } := by
        simp [f64Val, hm, he]
      rw [hval, Dyad.rat, hsign, f64Rat, if_pos he, hmant, zpow_neg, div_eq_mul_inv]
      norm_cast
    · have hmant : (f64Mant x : ℚ) = 2 ^ 52 * (1 + (f64Frac x : ℚ) / 2 ^ 52) := by
        simp only [f64Mant, he, if_false]
        push_cast
        field_simp
        norm_num
      have hmax : max (f64Exp x) 1 = f64Exp x := by omega
      rw [f64Rat, if_neg he]
      by_cases h : 1075 ≤ f64Exp x
      · have hpow : (2 : ℚ) ^ ((f64Exp x : ℤ) - 1023) = 2 ^ 52 * 2 ^ (f64Exp x - 1075) := by
          rw [← pow_add, ← zpow_natCast]
          congr 1
          omega
        have hval : f64Val x =
            { num := (if x.msb then -(f64Mant x : ℤ) else f64Mant x) * ((2 ^ (f64Exp x - 1075) : Nat) : ℤ)
              sh := 0 } := by
          simp only [f64Val, hm, if_false, hmax, h, if_true]
        rw [hval, Dyad.rat, Int.cast_mul, hsign, hmant, hpow]
        push_cast
        ring
      · have hpow : (2 : ℚ) ^ ((f64Exp x : ℤ) - 1023) = 2 ^ 52 / 2 ^ (1075 - f64Exp x) := by
          rw [eq_div_iff (by positivity), ← zpow_natCast, ← zpow_natCast, ← zpow_add₀ (by norm_num)]
          congr 1
          omega
        have hval : f64Val x =
            { num := if x.msb then -(f64Mant x : ℤ) else f64Mant x, sh := 1075 - f64Exp x } := by
          simp only [f64Val, hm, if_false, hmax, h]
        rw [hval, Dyad.rat, hsign, hmant, hpow]
        ring

/-! ## Operations -/

theorem Dyad.times_rat (q : Dyad) (k : Nat) : (q.times k).rat = q.rat * k := by
  simp only [Dyad.times, Dyad.rat]
  push_cast
  ring

theorem Dyad.plus_rat (q : Dyad) (n : Nat) : (q.plus n).rat = q.rat + n := by
  simp only [Dyad.plus, Dyad.rat]
  push_cast
  field_simp

theorem Dyad.below_iff (q : Dyad) (n : Int) : q.below n = true ↔ q.rat < n := by
  rw [Dyad.below, decide_eq_true_iff, Dyad.rat, div_lt_iff₀ (by positivity)]
  exact_mod_cast Iff.rfl

theorem Dyad.above_iff (q : Dyad) (n : Int) : q.above n = true ↔ (n : ℚ) < q.rat := by
  rw [Dyad.above, decide_eq_true_iff, Dyad.rat, lt_div_iff₀ (by positivity)]
  exact_mod_cast Iff.rfl

/-! ## Rounding to an integer -/

/-- `rnd(q)` is one integer. -/
theorem NearestInt.unique {tie : Tie} {q : ℚ} {u v : ℤ} (hu : NearestInt tie q u) (hv : NearestInt tie q v) :
    u = v := by
  obtain ⟨hu1, hu2⟩ := hu
  obtain ⟨hv1, hv2⟩ := hv
  have au := abs_le.1 hu1
  have av := abs_le.1 hv1
  have hlt : ((u - v : ℤ) : ℚ) ≤ 1 ∧ -1 ≤ ((u - v : ℤ) : ℚ) := by push_cast; constructor <;> linarith
  have h1 : u - v ≤ 1 := by exact_mod_cast hlt.1
  have h2 : -1 ≤ u - v := by exact_mod_cast hlt.2
  by_contra hne
  rcases (show u = v + 1 ∨ v = u + 1 by omega) with h | h
  · have hc : (u : ℚ) = v + 1 := by exact_mod_cast h
    have hq : q = v + 1 / 2 := by linarith
    have e1 : |q - u| = 1 / 2 := by rw [hc, hq, abs_of_nonpos] <;> linarith
    have e2 : |q - v| = 1 / 2 := by rw [hq, abs_of_nonneg] <;> linarith
    cases tie with
    | even => have := hu2 e1; have := hv2 e2; simp only at *; omega
    | away =>
      have a1 := hu2 e1
      have a2 := hv2 e2
      simp only [hq, hc] at a1 a2
      rcases lt_or_ge v 0 with hs | hs
      · have : (v : ℚ) + 1 ≤ 0 := by exact_mod_cast hs
        rw [abs_of_nonpos this, abs_of_nonpos (by linarith)] at a1
        linarith
      · have : (0 : ℚ) ≤ v := by exact_mod_cast hs
        rw [abs_of_nonneg (by linarith), abs_of_nonneg this] at a2
        linarith
  · have hc : (v : ℚ) = u + 1 := by exact_mod_cast h
    have hq : q = u + 1 / 2 := by linarith
    have e1 : |q - u| = 1 / 2 := by rw [hq, abs_of_nonneg] <;> linarith
    have e2 : |q - v| = 1 / 2 := by rw [hc, hq, abs_of_nonpos] <;> linarith
    cases tie with
    | even => have := hu2 e1; have := hv2 e2; simp only at *; omega
    | away =>
      have a1 := hu2 e1
      have a2 := hv2 e2
      simp only [hq, hc] at a1 a2
      rcases lt_or_ge u 0 with hs | hs
      · have : (u : ℚ) + 1 ≤ 0 := by exact_mod_cast hs
        rw [abs_of_nonpos this, abs_of_nonpos (by linarith)] at a2
        linarith
      · have : (0 : ℚ) ≤ u := by exact_mod_cast hs
        rw [abs_of_nonneg (by linarith), abs_of_nonneg this] at a1
        linarith

/-- The machine's `rnd` is the nearest integer, ties as `TIE` says (R14). -/
theorem rnd_nearest (tie : Tie) (q : Dyad) : NearestInt tie q.rat (rnd tie q) := by
  have hd : (0 : ℤ) < ((2 ^ q.sh : Nat) : ℤ) := by positivity
  obtain ⟨d, hdef⟩ : ∃ d : ℤ, d = ((2 ^ q.sh : Nat) : ℤ) := ⟨_, rfl⟩
  have hrat : q.rat = (q.num : ℚ) / d := by rw [Dyad.rat, hdef]; push_cast; rfl
  rw [← hdef] at hd
  have hdq : (0 : ℚ) < d := by exact_mod_cast hd
  obtain ⟨f, hf⟩ : ∃ f : ℤ, f = q.num / d := ⟨_, rfl⟩
  obtain ⟨r, hr⟩ : ∃ r : ℤ, r = q.num % d := ⟨_, rfl⟩
  have hsplit : q.num = d * f + r := by rw [hf, hr]; exact (Int.mul_ediv_add_emod q.num d).symm
  have hr0 : 0 ≤ r := hr ▸ Int.emod_nonneg _ hd.ne'
  have hrd : r < d := hr ▸ Int.emod_lt_of_pos _ hd
  have hr0q : (0 : ℚ) ≤ r := by exact_mod_cast hr0
  have hrdq : (r : ℚ) < d := by exact_mod_cast hrd
  have hq : q.rat = f + r / d := by
    rw [hrat, hsplit]
    push_cast
    field_simp
  have hrnd : rnd tie q =
      if 2 * r < d then f
      else if d < 2 * r then f + 1
      else if tie = .even then (if f % 2 = 0 then f else f + 1)
      else if q.num < 0 then f else f + 1 := by
    cases tie <;> simp [rnd, ← hdef, ← hf, ← hr]
  rw [hrnd]
  have hfrac0 : (0 : ℚ) ≤ r / d := div_nonneg hr0q hdq.le
  by_cases h1 : 2 * r < d
  · rw [if_pos h1]
    have h1q : (2 : ℚ) * r < d := by exact_mod_cast h1
    have hlt : (r : ℚ) / d < 1 / 2 := by rw [div_lt_iff₀ hdq]; linarith
    have habs : |q.rat - f| = r / d := by rw [hq, abs_of_nonneg] <;> linarith
    exact ⟨by rw [habs]; exact hlt.le, fun h => absurd h (by rw [habs]; exact hlt.ne)⟩
  rw [if_neg h1]
  by_cases h2 : d < 2 * r
  · rw [if_pos h2]
    have h2q : (d : ℚ) < 2 * r := by exact_mod_cast h2
    have hgt : 1 / 2 < (r : ℚ) / d := by rw [lt_div_iff₀ hdq]; linarith
    have hle1 : (r : ℚ) / d < 1 := by rw [div_lt_iff₀ hdq]; linarith
    have habs : |q.rat - (f + 1 : ℤ)| = 1 - r / d := by
      push_cast
      rw [hq, abs_of_nonpos] <;> linarith
    exact ⟨by rw [habs]; linarith, fun h => absurd h (by rw [habs]; exact ne_of_lt (by linarith))⟩
  · rw [if_neg h2]
    have h2r : 2 * r = d := by omega
    have hhalf : (r : ℚ) / d = 1 / 2 := by
      rw [div_eq_iff hdq.ne']
      have : (2 : ℚ) * r = d := by exact_mod_cast h2r
      linarith
    have hdown : |q.rat - f| = 1 / 2 := by rw [hq, hhalf, abs_of_nonneg] <;> linarith
    have hup : |q.rat - (f + 1 : ℤ)| = 1 / 2 := by
      push_cast
      rw [hq, hhalf, abs_of_nonpos] <;> linarith
    cases tie with
    | even =>
      rw [if_pos rfl]
      by_cases he : f % 2 = 0
      · simp only [he, if_true]
        exact ⟨hdown.le, fun _ => he⟩
      · simp only [he, if_false]
        exact ⟨hup.le, fun _ => by simp only; omega⟩
    | away =>
      rw [if_neg (by decide)]
      have hneg : q.num < 0 ↔ f < 0 := by
        constructor
        · intro h
          by_contra hc
          have : 0 ≤ d * f := mul_nonneg hd.le (by omega)
          omega
        · intro h
          have : d * f ≤ d * (-1) := mul_le_mul_of_nonneg_left (by omega) hd.le
          omega
      by_cases hs : f < 0
      · simp only [hneg.2 hs, if_true]
        refine ⟨hdown.le, fun _ => ?_⟩
        have hfq : (f : ℚ) + 1 ≤ 0 := by exact_mod_cast hs
        simp only
        rw [hq, hhalf, abs_of_nonpos (by linarith), abs_of_nonpos (by linarith)]
        linarith
      · have hn : ¬ q.num < 0 := fun h => hs (hneg.1 h)
        simp only [hn, if_false]
        refine ⟨hup.le, fun _ => ?_⟩
        have hfq : (0 : ℚ) ≤ f := by exact_mod_cast (not_lt.1 hs)
        simp only
        push_cast
        rw [hq, hhalf, abs_of_nonneg (by linarith), abs_of_nonneg (by linarith)]
        linarith

/-- Under the exact `SCALE_MODE` the scaled integer is the machine's `rnd` of the exact product (R14). -/
theorem scalesTo_of_rnd {b : Build} {x : BitVec 64} {k : Nat} {v : ℤ} (hmode : b.scaleMode = .exact)
    (hv : rnd b.tie ((f64Val x).times k) = v) : ScalesTo b x k v := by
  simp only [ScalesTo, ScaledFrom, hmode]
  rw [← f64Val_rat, ← Dyad.times_rat, ← hv]
  exact rnd_nearest b.tie _

end Sys2Proof.Machine
end

