-- ==== Sys2Proof/Laws/State.lean ====
section
/-! SUPPORT. One lemma per field per update of the state: what each shared update leaves in each field.
Later proofs cite these and unfold no record update. -/

namespace Sys2Proof.Machine

/-! ## The response -/

@[simp] theorem State.respond_klvItems (s : State) (r : List Record) (x : Status) :
    (s.respond r x).klvItems = s.klvItems := rfl
@[simp] theorem State.respond_ccPat (s : State) (r : List Record) (x : Status) :
    (s.respond r x).ccPat = s.ccPat := rfl
@[simp] theorem State.respond_ccPmt (s : State) (r : List Record) (x : Status) :
    (s.respond r x).ccPmt = s.ccPmt := rfl
@[simp] theorem State.respond_ccEs (s : State) (r : List Record) (x : Status) :
    (s.respond r x).ccEs = s.ccEs := rfl
@[simp] theorem State.respond_psiCtr (s : State) (r : List Record) (x : Status) :
    (s.respond r x).psiCtr = s.psiCtr := rfl
@[simp] theorem State.respond_nextId (s : State) (r : List Record) (x : Status) :
    (s.respond r x).nextId = s.nextId := rfl
@[simp] theorem State.respond_fidWrapped (s : State) (r : List Record) (x : Status) :
    (s.respond r x).fidWrapped = s.fidWrapped := rfl
@[simp] theorem State.respond_cache0 (s : State) (r : List Record) (x : Status) :
    (s.respond r x).cache0 = s.cache0 := rfl
@[simp] theorem State.respond_cache1 (s : State) (r : List Record) (x : Status) :
    (s.respond r x).cache1 = s.cache1 := rfl
@[simp] theorem State.respond_rxTable (s : State) (r : List Record) (x : Status) :
    (s.respond r x).rxTable = s.rxTable := rfl
@[simp] theorem State.respond_outq (s : State) (r : List Record) (x : Status) :
    (s.respond r x).outq = s.outq := rfl
@[simp] theorem State.respond_cfg (s : State) (r : List Record) (x : Status) :
    (s.respond r x).cfg = s.cfg := rfl
@[simp] theorem State.respond_cnt (s : State) (r : List Record) (x : Status) :
    (s.respond r x).cnt = s.cnt := rfl
@[simp] theorem State.respond_build (s : State) (r : List Record) (x : Status) :
    (s.respond r x).build = s.build := rfl
@[simp] theorem State.respond_cmdIn (s : State) (r : List Record) (x : Status) :
    (s.respond r x).cmdIn = s.cmdIn := rfl
@[simp] theorem State.respond_envIn (s : State) (r : List Record) (x : Status) :
    (s.respond r x).envIn = s.envIn := rfl
@[simp] theorem State.respond_refusals (s : State) (r : List Record) (x : Status) :
    (s.respond r x).refusals = s.refusals := rfl
@[simp] theorem State.respond_resp (s : State) (r : List Record) (x : Status) :
    (s.respond r x).resp = some { records := r, status := x } := rfl

/-! ## Raising an error -/

@[simp] theorem raise_klvItems (e : Raised) (s : State) : (raise e s).klvItems = s.klvItems := rfl
@[simp] theorem raise_ccPat (e : Raised) (s : State) : (raise e s).ccPat = s.ccPat := rfl
@[simp] theorem raise_ccPmt (e : Raised) (s : State) : (raise e s).ccPmt = s.ccPmt := rfl
@[simp] theorem raise_ccEs (e : Raised) (s : State) : (raise e s).ccEs = s.ccEs := rfl
@[simp] theorem raise_psiCtr (e : Raised) (s : State) : (raise e s).psiCtr = s.psiCtr := rfl
@[simp] theorem raise_nextId (e : Raised) (s : State) : (raise e s).nextId = s.nextId := rfl
@[simp] theorem raise_fidWrapped (e : Raised) (s : State) : (raise e s).fidWrapped = s.fidWrapped := rfl
@[simp] theorem raise_cache0 (e : Raised) (s : State) : (raise e s).cache0 = s.cache0 := rfl
@[simp] theorem raise_cache1 (e : Raised) (s : State) : (raise e s).cache1 = s.cache1 := rfl
@[simp] theorem raise_rxTable (e : Raised) (s : State) : (raise e s).rxTable = s.rxTable := rfl
@[simp] theorem raise_outq (e : Raised) (s : State) : (raise e s).outq = s.outq := rfl
@[simp] theorem raise_cfg (e : Raised) (s : State) : (raise e s).cfg = s.cfg := rfl
@[simp] theorem raise_cnt (e : Raised) (s : State) : (raise e s).cnt = s.cnt.count e := rfl
@[simp] theorem raise_build (e : Raised) (s : State) : (raise e s).build = s.build := rfl
@[simp] theorem raise_cmdIn (e : Raised) (s : State) : (raise e s).cmdIn = s.cmdIn := rfl
@[simp] theorem raise_envIn (e : Raised) (s : State) : (raise e s).envIn = s.envIn := rfl
@[simp] theorem raise_refusals (e : Raised) (s : State) : (raise e s).refusals = s.refusals := rfl
@[simp] theorem raise_resp (e : Raised) (s : State) :
    (raise e s).resp = some { records := [], status := e.status } := rfl

/-! ## The command port -/

@[simp] theorem State.latch_klvItems (s : State) (rest : Bytes) :
    (s.latch rest).klvItems = s.klvItems := rfl
@[simp] theorem State.latch_ccPat (s : State) (rest : Bytes) : (s.latch rest).ccPat = s.ccPat := rfl
@[simp] theorem State.latch_ccPmt (s : State) (rest : Bytes) : (s.latch rest).ccPmt = s.ccPmt := rfl
@[simp] theorem State.latch_ccEs (s : State) (rest : Bytes) : (s.latch rest).ccEs = s.ccEs := rfl
@[simp] theorem State.latch_psiCtr (s : State) (rest : Bytes) : (s.latch rest).psiCtr = s.psiCtr := rfl
@[simp] theorem State.latch_nextId (s : State) (rest : Bytes) : (s.latch rest).nextId = s.nextId := rfl
@[simp] theorem State.latch_fidWrapped (s : State) (rest : Bytes) :
    (s.latch rest).fidWrapped = s.fidWrapped := rfl
@[simp] theorem State.latch_cache0 (s : State) (rest : Bytes) : (s.latch rest).cache0 = s.cache0 := rfl
@[simp] theorem State.latch_cache1 (s : State) (rest : Bytes) : (s.latch rest).cache1 = s.cache1 := rfl
@[simp] theorem State.latch_rxTable (s : State) (rest : Bytes) :
    (s.latch rest).rxTable = s.rxTable := rfl
@[simp] theorem State.latch_outq (s : State) (rest : Bytes) : (s.latch rest).outq = s.outq := rfl
@[simp] theorem State.latch_cfg (s : State) (rest : Bytes) : (s.latch rest).cfg = s.cfg := rfl
@[simp] theorem State.latch_cnt (s : State) (rest : Bytes) : (s.latch rest).cnt = s.cnt := rfl
@[simp] theorem State.latch_build (s : State) (rest : Bytes) : (s.latch rest).build = s.build := rfl
@[simp] theorem State.latch_cmdIn (s : State) (rest : Bytes) : (s.latch rest).cmdIn = rest := rfl
@[simp] theorem State.latch_envIn (s : State) (rest : Bytes) : (s.latch rest).envIn = s.envIn.tail := rfl
@[simp] theorem State.latch_refusals (s : State) (rest : Bytes) :
    (s.latch rest).refusals = s.envIn.headD [] := rfl
@[simp] theorem State.latch_resp (s : State) (rest : Bytes) : (s.latch rest).resp = s.resp := rfl

/-! ## The output queue -/

@[simp] theorem pushOut_klvItems (item : OutItem) (s : State) :
    (pushOut item s).klvItems = s.klvItems := by unfold pushOut; split <;> rfl
@[simp] theorem pushOut_ccPat (item : OutItem) (s : State) :
    (pushOut item s).ccPat = s.ccPat := by unfold pushOut; split <;> rfl
@[simp] theorem pushOut_ccPmt (item : OutItem) (s : State) :
    (pushOut item s).ccPmt = s.ccPmt := by unfold pushOut; split <;> rfl
@[simp] theorem pushOut_ccEs (item : OutItem) (s : State) :
    (pushOut item s).ccEs = s.ccEs := by unfold pushOut; split <;> rfl
@[simp] theorem pushOut_psiCtr (item : OutItem) (s : State) :
    (pushOut item s).psiCtr = s.psiCtr := by unfold pushOut; split <;> rfl
@[simp] theorem pushOut_nextId (item : OutItem) (s : State) :
    (pushOut item s).nextId = s.nextId := by unfold pushOut; split <;> rfl
@[simp] theorem pushOut_fidWrapped (item : OutItem) (s : State) :
    (pushOut item s).fidWrapped = s.fidWrapped := by unfold pushOut; split <;> rfl
@[simp] theorem pushOut_cache0 (item : OutItem) (s : State) :
    (pushOut item s).cache0 = s.cache0 := by unfold pushOut; split <;> rfl
@[simp] theorem pushOut_cache1 (item : OutItem) (s : State) :
    (pushOut item s).cache1 = s.cache1 := by unfold pushOut; split <;> rfl
@[simp] theorem pushOut_rxTable (item : OutItem) (s : State) :
    (pushOut item s).rxTable = s.rxTable := by unfold pushOut; split <;> rfl
@[simp] theorem pushOut_cfg (item : OutItem) (s : State) :
    (pushOut item s).cfg = s.cfg := by unfold pushOut; split <;> rfl
@[simp] theorem pushOut_build (item : OutItem) (s : State) :
    (pushOut item s).build = s.build := by unfold pushOut; split <;> rfl
@[simp] theorem pushOut_cmdIn (item : OutItem) (s : State) :
    (pushOut item s).cmdIn = s.cmdIn := by unfold pushOut; split <;> rfl
@[simp] theorem pushOut_envIn (item : OutItem) (s : State) :
    (pushOut item s).envIn = s.envIn := by unfold pushOut; split <;> rfl
@[simp] theorem pushOut_refusals (item : OutItem) (s : State) :
    (pushOut item s).refusals = s.refusals := by unfold pushOut; split <;> rfl
@[simp] theorem pushOut_resp (item : OutItem) (s : State) :
    (pushOut item s).resp = s.resp := by unfold pushOut; split <;> rfl

/-! ## The continuity counters -/

@[simp] theorem State.bumpContinuity_klvItems (s : State) (p : TsPid) :
    (s.bumpContinuity p).klvItems = s.klvItems := by cases p <;> rfl
@[simp] theorem State.bumpContinuity_ccPat (s : State) (p : TsPid) :
    (s.bumpContinuity p).ccPat = if p = .pat then s.ccPat + 1 else s.ccPat := by cases p <;> rfl
@[simp] theorem State.bumpContinuity_ccPmt (s : State) (p : TsPid) :
    (s.bumpContinuity p).ccPmt = if p = .pmt then s.ccPmt + 1 else s.ccPmt := by cases p <;> rfl
@[simp] theorem State.bumpContinuity_ccEs (s : State) (p : TsPid) :
    (s.bumpContinuity p).ccEs = if p = .es then s.ccEs + 1 else s.ccEs := by cases p <;> rfl
@[simp] theorem State.bumpContinuity_psiCtr (s : State) (p : TsPid) :
    (s.bumpContinuity p).psiCtr = s.psiCtr := by cases p <;> rfl
@[simp] theorem State.bumpContinuity_nextId (s : State) (p : TsPid) :
    (s.bumpContinuity p).nextId = s.nextId := by cases p <;> rfl
@[simp] theorem State.bumpContinuity_fidWrapped (s : State) (p : TsPid) :
    (s.bumpContinuity p).fidWrapped = s.fidWrapped := by cases p <;> rfl
@[simp] theorem State.bumpContinuity_cache0 (s : State) (p : TsPid) :
    (s.bumpContinuity p).cache0 = s.cache0 := by cases p <;> rfl
@[simp] theorem State.bumpContinuity_cache1 (s : State) (p : TsPid) :
    (s.bumpContinuity p).cache1 = s.cache1 := by cases p <;> rfl
@[simp] theorem State.bumpContinuity_rxTable (s : State) (p : TsPid) :
    (s.bumpContinuity p).rxTable = s.rxTable := by cases p <;> rfl
@[simp] theorem State.bumpContinuity_outq (s : State) (p : TsPid) :
    (s.bumpContinuity p).outq = s.outq := by cases p <;> rfl
@[simp] theorem State.bumpContinuity_cfg (s : State) (p : TsPid) :
    (s.bumpContinuity p).cfg = s.cfg := by cases p <;> rfl
@[simp] theorem State.bumpContinuity_cnt (s : State) (p : TsPid) :
    (s.bumpContinuity p).cnt = s.cnt := by cases p <;> rfl
@[simp] theorem State.bumpContinuity_build (s : State) (p : TsPid) :
    (s.bumpContinuity p).build = s.build := by cases p <;> rfl
@[simp] theorem State.bumpContinuity_cmdIn (s : State) (p : TsPid) :
    (s.bumpContinuity p).cmdIn = s.cmdIn := by cases p <;> rfl
@[simp] theorem State.bumpContinuity_envIn (s : State) (p : TsPid) :
    (s.bumpContinuity p).envIn = s.envIn := by cases p <;> rfl
@[simp] theorem State.bumpContinuity_refusals (s : State) (p : TsPid) :
    (s.bumpContinuity p).refusals = s.refusals := by cases p <;> rfl
@[simp] theorem State.bumpContinuity_resp (s : State) (p : TsPid) :
    (s.bumpContinuity p).resp = s.resp := by cases p <;> rfl

/-! ## The identifier counter -/

@[simp] theorem advanceId_klvItems (s : State) : (advanceId s).klvItems = s.klvItems := rfl
@[simp] theorem advanceId_ccPat (s : State) : (advanceId s).ccPat = s.ccPat := rfl
@[simp] theorem advanceId_ccPmt (s : State) : (advanceId s).ccPmt = s.ccPmt := rfl
@[simp] theorem advanceId_ccEs (s : State) : (advanceId s).ccEs = s.ccEs := rfl
@[simp] theorem advanceId_psiCtr (s : State) : (advanceId s).psiCtr = s.psiCtr := rfl
@[simp] theorem advanceId_nextId (s : State) : (advanceId s).nextId = s.nextId + 1 := rfl
@[simp] theorem advanceId_fidWrapped (s : State) :
    (advanceId s).fidWrapped = wrapFlag s.fidWrapped s.nextId := rfl
@[simp] theorem advanceId_cache0 (s : State) : (advanceId s).cache0 = s.cache0 := rfl
@[simp] theorem advanceId_cache1 (s : State) : (advanceId s).cache1 = s.cache1 := rfl
@[simp] theorem advanceId_rxTable (s : State) : (advanceId s).rxTable = s.rxTable := rfl
@[simp] theorem advanceId_outq (s : State) : (advanceId s).outq = s.outq := rfl
@[simp] theorem advanceId_cfg (s : State) : (advanceId s).cfg = s.cfg := rfl
@[simp] theorem advanceId_cnt (s : State) : (advanceId s).cnt = s.cnt := rfl
@[simp] theorem advanceId_build (s : State) : (advanceId s).build = s.build := rfl
@[simp] theorem advanceId_cmdIn (s : State) : (advanceId s).cmdIn = s.cmdIn := rfl
@[simp] theorem advanceId_envIn (s : State) : (advanceId s).envIn = s.envIn := rfl
@[simp] theorem advanceId_refusals (s : State) : (advanceId s).refusals = s.refusals := rfl
@[simp] theorem advanceId_resp (s : State) : (advanceId s).resp = s.resp := rfl

/-! ## The refresh cache -/

@[simp] theorem cacheUnit_klvItems (tag : Byte) (f : Bytes) (s : State) :
    (cacheUnit tag f s).klvItems = s.klvItems := by unfold cacheUnit; split_ifs <;> simp_all
@[simp] theorem cacheUnit_ccPat (tag : Byte) (f : Bytes) (s : State) :
    (cacheUnit tag f s).ccPat = s.ccPat := by unfold cacheUnit; split_ifs <;> simp_all
@[simp] theorem cacheUnit_ccPmt (tag : Byte) (f : Bytes) (s : State) :
    (cacheUnit tag f s).ccPmt = s.ccPmt := by unfold cacheUnit; split_ifs <;> simp_all
@[simp] theorem cacheUnit_ccEs (tag : Byte) (f : Bytes) (s : State) :
    (cacheUnit tag f s).ccEs = s.ccEs := by unfold cacheUnit; split_ifs <;> simp_all
@[simp] theorem cacheUnit_psiCtr (tag : Byte) (f : Bytes) (s : State) :
    (cacheUnit tag f s).psiCtr = s.psiCtr := by unfold cacheUnit; split_ifs <;> simp_all
@[simp] theorem cacheUnit_nextId (tag : Byte) (f : Bytes) (s : State) :
    (cacheUnit tag f s).nextId = s.nextId := by unfold cacheUnit; split_ifs <;> simp_all
@[simp] theorem cacheUnit_fidWrapped (tag : Byte) (f : Bytes) (s : State) :
    (cacheUnit tag f s).fidWrapped = s.fidWrapped := by unfold cacheUnit; split_ifs <;> simp_all
@[simp] theorem cacheUnit_cache0 (tag : Byte) (f : Bytes) (s : State) :
    (cacheUnit tag f s).cache0 = if tag = s.cfg.initTag0 then some f else s.cache0 := by unfold cacheUnit; split_ifs <;> simp_all
@[simp] theorem cacheUnit_cache1 (tag : Byte) (f : Bytes) (s : State) :
    (cacheUnit tag f s).cache1 = if tag ≠ s.cfg.initTag0 ∧ tag = s.cfg.initTag1 then some f else s.cache1 := by unfold cacheUnit; split_ifs <;> simp_all
@[simp] theorem cacheUnit_rxTable (tag : Byte) (f : Bytes) (s : State) :
    (cacheUnit tag f s).rxTable = s.rxTable := by unfold cacheUnit; split_ifs <;> simp_all
@[simp] theorem cacheUnit_outq (tag : Byte) (f : Bytes) (s : State) :
    (cacheUnit tag f s).outq = s.outq := by unfold cacheUnit; split_ifs <;> simp_all
@[simp] theorem cacheUnit_cfg (tag : Byte) (f : Bytes) (s : State) :
    (cacheUnit tag f s).cfg = s.cfg := by unfold cacheUnit; split_ifs <;> simp_all
@[simp] theorem cacheUnit_cnt (tag : Byte) (f : Bytes) (s : State) :
    (cacheUnit tag f s).cnt = s.cnt := by unfold cacheUnit; split_ifs <;> simp_all
@[simp] theorem cacheUnit_build (tag : Byte) (f : Bytes) (s : State) :
    (cacheUnit tag f s).build = s.build := by unfold cacheUnit; split_ifs <;> simp_all
@[simp] theorem cacheUnit_cmdIn (tag : Byte) (f : Bytes) (s : State) :
    (cacheUnit tag f s).cmdIn = s.cmdIn := by unfold cacheUnit; split_ifs <;> simp_all
@[simp] theorem cacheUnit_envIn (tag : Byte) (f : Bytes) (s : State) :
    (cacheUnit tag f s).envIn = s.envIn := by unfold cacheUnit; split_ifs <;> simp_all
@[simp] theorem cacheUnit_refusals (tag : Byte) (f : Bytes) (s : State) :
    (cacheUnit tag f s).refusals = s.refusals := by unfold cacheUnit; split_ifs <;> simp_all
@[simp] theorem cacheUnit_resp (tag : Byte) (f : Bytes) (s : State) :
    (cacheUnit tag f s).resp = s.resp := by unfold cacheUnit; split_ifs <;> simp_all

/-! ## The receiver's counters -/

@[simp] theorem countEvicted_klvItems (n : Nat) (s : State) :
    (countEvicted n s).klvItems = s.klvItems := rfl
@[simp] theorem countEvicted_ccPat (n : Nat) (s : State) : (countEvicted n s).ccPat = s.ccPat := rfl
@[simp] theorem countEvicted_ccPmt (n : Nat) (s : State) : (countEvicted n s).ccPmt = s.ccPmt := rfl
@[simp] theorem countEvicted_ccEs (n : Nat) (s : State) : (countEvicted n s).ccEs = s.ccEs := rfl
@[simp] theorem countEvicted_psiCtr (n : Nat) (s : State) : (countEvicted n s).psiCtr = s.psiCtr := rfl
@[simp] theorem countEvicted_nextId (n : Nat) (s : State) : (countEvicted n s).nextId = s.nextId := rfl
@[simp] theorem countEvicted_fidWrapped (n : Nat) (s : State) :
    (countEvicted n s).fidWrapped = s.fidWrapped := rfl
@[simp] theorem countEvicted_cache0 (n : Nat) (s : State) : (countEvicted n s).cache0 = s.cache0 := rfl
@[simp] theorem countEvicted_cache1 (n : Nat) (s : State) : (countEvicted n s).cache1 = s.cache1 := rfl
@[simp] theorem countEvicted_rxTable (n : Nat) (s : State) :
    (countEvicted n s).rxTable = s.rxTable := rfl
@[simp] theorem countEvicted_outq (n : Nat) (s : State) : (countEvicted n s).outq = s.outq := rfl
@[simp] theorem countEvicted_cfg (n : Nat) (s : State) : (countEvicted n s).cfg = s.cfg := rfl
@[simp] theorem countEvicted_cnt (n : Nat) (s : State) :
    (countEvicted n s).cnt = { s.cnt with rxEvicted := s.cnt.rxEvicted + BitVec.ofNat 32 n } := rfl
@[simp] theorem countEvicted_build (n : Nat) (s : State) : (countEvicted n s).build = s.build := rfl
@[simp] theorem countEvicted_cmdIn (n : Nat) (s : State) : (countEvicted n s).cmdIn = s.cmdIn := rfl
@[simp] theorem countEvicted_envIn (n : Nat) (s : State) : (countEvicted n s).envIn = s.envIn := rfl
@[simp] theorem countEvicted_refusals (n : Nat) (s : State) :
    (countEvicted n s).refusals = s.refusals := rfl
@[simp] theorem countEvicted_resp (n : Nat) (s : State) : (countEvicted n s).resp = s.resp := rfl
@[simp] theorem countDup_klvItems (h : ChunkHeader) (e : Entry) (s : State) :
    (countDup h e s).klvItems = s.klvItems := by unfold countDup; split <;> rfl
@[simp] theorem countDup_ccPat (h : ChunkHeader) (e : Entry) (s : State) :
    (countDup h e s).ccPat = s.ccPat := by unfold countDup; split <;> rfl
@[simp] theorem countDup_ccPmt (h : ChunkHeader) (e : Entry) (s : State) :
    (countDup h e s).ccPmt = s.ccPmt := by unfold countDup; split <;> rfl
@[simp] theorem countDup_ccEs (h : ChunkHeader) (e : Entry) (s : State) :
    (countDup h e s).ccEs = s.ccEs := by unfold countDup; split <;> rfl
@[simp] theorem countDup_psiCtr (h : ChunkHeader) (e : Entry) (s : State) :
    (countDup h e s).psiCtr = s.psiCtr := by unfold countDup; split <;> rfl
@[simp] theorem countDup_nextId (h : ChunkHeader) (e : Entry) (s : State) :
    (countDup h e s).nextId = s.nextId := by unfold countDup; split <;> rfl
@[simp] theorem countDup_fidWrapped (h : ChunkHeader) (e : Entry) (s : State) :
    (countDup h e s).fidWrapped = s.fidWrapped := by unfold countDup; split <;> rfl
@[simp] theorem countDup_cache0 (h : ChunkHeader) (e : Entry) (s : State) :
    (countDup h e s).cache0 = s.cache0 := by unfold countDup; split <;> rfl
@[simp] theorem countDup_cache1 (h : ChunkHeader) (e : Entry) (s : State) :
    (countDup h e s).cache1 = s.cache1 := by unfold countDup; split <;> rfl
@[simp] theorem countDup_rxTable (h : ChunkHeader) (e : Entry) (s : State) :
    (countDup h e s).rxTable = s.rxTable := by unfold countDup; split <;> rfl
@[simp] theorem countDup_outq (h : ChunkHeader) (e : Entry) (s : State) :
    (countDup h e s).outq = s.outq := by unfold countDup; split <;> rfl
@[simp] theorem countDup_cfg (h : ChunkHeader) (e : Entry) (s : State) :
    (countDup h e s).cfg = s.cfg := by unfold countDup; split <;> rfl
@[simp] theorem countDup_build (h : ChunkHeader) (e : Entry) (s : State) :
    (countDup h e s).build = s.build := by unfold countDup; split <;> rfl
@[simp] theorem countDup_cmdIn (h : ChunkHeader) (e : Entry) (s : State) :
    (countDup h e s).cmdIn = s.cmdIn := by unfold countDup; split <;> rfl
@[simp] theorem countDup_envIn (h : ChunkHeader) (e : Entry) (s : State) :
    (countDup h e s).envIn = s.envIn := by unfold countDup; split <;> rfl
@[simp] theorem countDup_refusals (h : ChunkHeader) (e : Entry) (s : State) :
    (countDup h e s).refusals = s.refusals := by unfold countDup; split <;> rfl
@[simp] theorem countDup_resp (h : ChunkHeader) (e : Entry) (s : State) :
    (countDup h e s).resp = s.resp := by unfold countDup; split <;> rfl

/-! ## Reset -/

@[simp] theorem resetState_klvItems (s : State) : (resetState s).klvItems = State.reset.klvItems := rfl
@[simp] theorem resetState_ccPat (s : State) : (resetState s).ccPat = State.reset.ccPat := rfl
@[simp] theorem resetState_ccPmt (s : State) : (resetState s).ccPmt = State.reset.ccPmt := rfl
@[simp] theorem resetState_ccEs (s : State) : (resetState s).ccEs = State.reset.ccEs := rfl
@[simp] theorem resetState_psiCtr (s : State) : (resetState s).psiCtr = State.reset.psiCtr := rfl
@[simp] theorem resetState_nextId (s : State) : (resetState s).nextId = State.reset.nextId := rfl
@[simp] theorem resetState_fidWrapped (s : State) :
    (resetState s).fidWrapped = State.reset.fidWrapped := rfl
@[simp] theorem resetState_cache0 (s : State) : (resetState s).cache0 = State.reset.cache0 := rfl
@[simp] theorem resetState_cache1 (s : State) : (resetState s).cache1 = State.reset.cache1 := rfl
@[simp] theorem resetState_rxTable (s : State) : (resetState s).rxTable = State.reset.rxTable := rfl
@[simp] theorem resetState_outq (s : State) : (resetState s).outq = State.reset.outq := rfl
@[simp] theorem resetState_cfg (s : State) : (resetState s).cfg = State.reset.cfg := rfl
@[simp] theorem resetState_cnt (s : State) : (resetState s).cnt = State.reset.cnt := rfl
@[simp] theorem resetState_build (s : State) : (resetState s).build = s.build := rfl
@[simp] theorem resetState_cmdIn (s : State) : (resetState s).cmdIn = s.cmdIn := rfl
@[simp] theorem resetState_envIn (s : State) : (resetState s).envIn = s.envIn := rfl
@[simp] theorem resetState_refusals (s : State) : (resetState s).refusals = s.refusals := rfl
@[simp] theorem resetState_resp (s : State) : (resetState s).resp = s.resp := rfl

/-! ## A command in progress -/

@[simp] theorem State.begin_st (s : State) : s.begin.st = s := rfl
@[simp] theorem State.begin_records (s : State) : s.begin.records = [] := rfl
@[simp] theorem State.begin_dropped (s : State) : s.begin.dropped = false := rfl
@[simp] theorem State.begin_skipped (s : State) : s.begin.skipped = false := rfl
@[simp] theorem Work.emit_st (w : Work) (p : OutPort) (fl : Byte) (d : Bytes) :
    (w.emit p fl d).st = w.st := rfl
@[simp] theorem Work.emit_records (w : Work) (p : OutPort) (fl : Byte) (d : Bytes) :
    (w.emit p fl d).records = w.records ++ [{ port := p, flags := fl, data := d }] := rfl
@[simp] theorem Work.emit_dropped (w : Work) (p : OutPort) (fl : Byte) (d : Bytes) :
    (w.emit p fl d).dropped = w.dropped := rfl
@[simp] theorem Work.emit_skipped (w : Work) (p : OutPort) (fl : Byte) (d : Bytes) :
    (w.emit p fl d).skipped = w.skipped := rfl
theorem Work.finish_eq (w : Work) :
    w.finish = { w.st with resp := some { records := w.records, status := w.status } } := rfl

end Sys2Proof.Machine
end

