-- ==== Sys2Proof/Laws/Ops.lean ====
section
/-! SUPPORT. One lemma per shared operation that says once everything it can do: raising an error, appending
an item, offering datagrams, pushing to the output queue, making room in the frame table, emitting packets. -/

namespace Sys2Proof.Machine

/-! ## Raising an error -/

theorem raise_validation (s : State) : raise .validation s = afterValidationError s := rfl
theorem raise_capacity (s : State) : raise .capacity s = afterCapacityError s := rfl
theorem raise_illegal (s : State) : raise .illegal s = afterIllegal s := rfl
theorem raise_rxShort (s : State) : raise .rxShort s = afterShort s := rfl
theorem respond_ok (s : State) (records : List Record) : s.respond records .ok = afterRecords s records := rfl

/-! ## Appending an item -/

@[simp] theorem klvItem_length (tag : Byte) (value : Bytes) :
    (klvItem tag value).length = value.length + 2 := rfl

/-- `append_item` appends whole or refuses whole (R122). -/
theorem appendItem_eq (tag : Byte) (value : Bytes) (s : State) :
    appendItem tag value s =
      if s.build.klvBufMax < s.klvItems.length + (value.length + 2) then afterCapacityError s
      else afterItem s tag value := rfl

theorem appendItem_of_fits {tag : Byte} {value : Bytes} {s : State}
    (h : s.klvItems.length + (value.length + 2) ≤ s.build.klvBufMax) :
    appendItem tag value s = afterItem s tag value := by
  rw [appendItem_eq, if_neg (by omega)]

theorem appendItem_of_full {tag : Byte} {value : Bytes} {s : State}
    (h : s.build.klvBufMax < s.klvItems.length + (value.length + 2)) :
    appendItem tag value s = afterCapacityError s := by
  rw [appendItem_eq, if_pos h]

@[simp] theorem beInt_length (n : Nat) (v : Int) : (beInt n v).length = n := by simp [beInt]

/-- A fixed-point add command ends in one of three ways (R102, R122, R278). -/
theorem appendFixed_cases (tag : Byte) (n : Nat) (operand : Option Int) (s : State) :
    (operand = none ∧ appendFixed tag n operand s = afterValidationError s) ∨
    (∃ v, operand = some v ∧ s.build.klvBufMax < s.klvItems.length + (n + 2) ∧
      appendFixed tag n operand s = afterCapacityError s) ∨
    ∃ v, operand = some v ∧ s.klvItems.length + (n + 2) ≤ s.build.klvBufMax ∧
      appendFixed tag n operand s = afterItem s tag (beInt n v) := by
  cases operand with
  | none => exact .inl ⟨rfl, rfl⟩
  | some v =>
    right
    rcases Nat.lt_or_ge s.build.klvBufMax (s.klvItems.length + (n + 2)) with h | h
    · exact .inl ⟨v, rfl, h, appendItem_of_full (by simpa using h)⟩
    · exact .inr ⟨v, rfl, h, appendItem_of_fits (by simpa using h)⟩

/-! ## Offering datagrams -/

/-- One datagram is emitted or dropped (R188). -/
theorem Work.offer_eq (w : Work) (i : Nat) (urgent : Bool) (d : Bytes) :
    w.offer i urgent d =
      if i ∈ w.st.refusals then
        { w with
          st := { w.st with cnt := { w.st.cnt with txDrop := w.st.cnt.txDrop + 1 } }
          dropped := true }
      else
        { w with
          records := w.records ++ [{ port := .txOut, flags := if urgent then 1 else 0, data := d }] } := by
  unfold Work.offer State.accepts
  by_cases h : i ∈ w.st.refusals <;> simp [h, Work.emit, inc32]

/-- Datagrams offered one after the other: the accepted ones are emitted in order, each refused one is
counted, nothing else changes (R188, R190). -/
theorem foldl_offer (is : List Nat) (base : Nat) (urgent : Bool) (d : Nat → Bytes) (w : Work) :
    is.foldl (fun w' i => w'.offer (base + i) urgent (d i)) w =
      { st :=
          { w.st with
            cnt :=
              { w.st.cnt with
                txDrop :=
                  w.st.cnt.txDrop +
                    BitVec.ofNat 32 (is.filter fun i => w.st.refusals.contains (base + i)).length } }
        records :=
          w.records ++ (is.filter fun i => !w.st.refusals.contains (base + i)).map fun i =>
            { port := .txOut, flags := if urgent then 1 else 0, data := d i }
        dropped := w.dropped || is.any fun i => w.st.refusals.contains (base + i)
        skipped := w.skipped } := by
  induction is generalizing w with
  | nil => simp
  | cons i is ih =>
    rw [List.foldl_cons, ih, Work.offer_eq]
    by_cases h : base + i ∈ w.st.refusals
    · simp [h, Nat.add_comm _ 1, ← BitVec.ofNat_add, BitVec.add_assoc]
    · simp [h]

/-! ## The output queue -/

/-- `push_out` appends or drops (R219). -/
theorem pushOut_eq (item : OutItem) (s : State) : pushOut item s = afterPush s item := rfl

/-! ## The bound on tracked frame_ids -/

/-- Making room evicts a number of entries from the head of the table, each no higher than the new
frame_id and each because there was no room; what is left has room, or stands above the new frame_id, which
is then not admitted (R214). -/
theorem makeRoom_cases (k : Nat) (fid : BitVec 32) (t : FrameTable) :
    ∃ n, n ≤ t.length ∧ (makeRoom k fid t).table = t.drop n ∧ (makeRoom k fid t).evicted = n ∧
      (∀ p ∈ t.take n, p.1.toNat ≤ fid.toNat) ∧ (0 < n → k ≤ (t.drop (n - 1)).length) ∧
      (((makeRoom k fid t).admitted = true ∧ ((t.drop n).length < k ∨ t.drop n = [])) ∨
        ((makeRoom k fid t).admitted = false ∧ k ≤ (t.drop n).length ∧
          ∃ m e rest, t.drop n = (m, e) :: rest ∧ fid.toNat < m.toNat)) := by
  induction t with
  | nil => exact ⟨0, by simp [makeRoom]⟩
  | cons p rest ih =>
    obtain ⟨m, e⟩ := p
    by_cases hfull : k < mapCount ((m, e) :: rest) + 1
    · by_cases hlow : fid.toNat < m.toNat
      · exact ⟨0, by simp [makeRoom, hfull, hlow]; simp [mapCount] at hfull; omega⟩
      · obtain ⟨n, hn, ht, he, htake, hbound, hend⟩ := ih
        have hroom : makeRoom k fid ((m, e) :: rest) =
            { makeRoom k fid rest with evicted := (makeRoom k fid rest).evicted + 1 } := by
          simp [makeRoom, hfull, hlow]
        refine ⟨n + 1, by simpa using hn, by simp [hroom, ht], by simp [hroom, he], ?_, ?_, ?_⟩
        · intro p hp
          rcases List.mem_cons.1 (by simpa using hp) with rfl | hp
          · exact Nat.not_lt.1 hlow
          · exact htake p hp
        · intro _
          rcases Nat.eq_zero_or_pos n with rfl | hpos
          · simp only [mapCount] at hfull
            simpa using Nat.lt_succ_iff.1 hfull
          · obtain ⟨n, rfl⟩ := Nat.exists_eq_succ_of_ne_zero hpos.ne'
            simpa using hbound hpos
        · simpa [hroom] using hend
    · refine ⟨0, by simp, by simp [makeRoom, hfull], by simp [makeRoom, hfull], by simp, by simp, .inl ?_⟩
      simp only [makeRoom, hfull, if_false, List.drop_zero, true_and]
      left
      simp only [mapCount] at hfull
      omega

/-! ## Emitting packets -/

@[simp] theorem tsPacketBytes_length {pid : Nat} {pusi : Bool} {cc : BitVec 4} {body : Bytes}
    (h : body.length ≤ 184) : (tsPacketBytes pid pusi cc body).length = 188 := by
  simp [tsPacketBytes, tsHeader]
  omega

@[simp] theorem tsPacketBytes_head (pid : Nat) (pusi : Bool) (cc : BitVec 4) (body : Bytes) :
    (tsPacketBytes pid pusi cc body).head? = some 0x47 := rfl

/-- One packet: a record with its PID's counter, which then advances (R142, R143). -/
theorem tsPacket_eq (p : TsPid) (pusi : Bool) (body : Bytes) (w : Work) :
    tsPacket p pusi body w =
      { w with
        st := w.st.bumpContinuity p
        records :=
          w.records ++
            [{ port := .tsOut
               flags := 0
               data := tsPacketBytes p.number pusi (w.st.continuity p) body }] } := rfl

/-- The later payload packets, one after the other (R145). -/
theorem foldl_tsPacket_es (bodies : List Bytes) (w : Work) :
    bodies.foldl (fun w' body => tsPacket .es false body w') w =
      { w with
        st := { w.st with ccEs := w.st.ccEs + BitVec.ofNat 4 bodies.length }
        records :=
          w.records ++ bodies.mapIdx fun j body =>
            { port := .tsOut
              flags := 0
              data := tsPacketBytes 0x0100 false (w.st.ccEs + BitVec.ofNat 4 j) body } } := by
  induction bodies generalizing w with
  | nil => simp
  | cons body bodies ih =>
    have hcc : ∀ j : Nat, w.st.ccEs + 1#4 + BitVec.ofNat 4 j = w.st.ccEs + BitVec.ofNat 4 (j + 1) := by
      intro j
      rw [BitVec.add_assoc, Nat.add_comm j 1, BitVec.ofNat_add]
    rw [List.foldl_cons, ih, tsPacket_eq]
    simp only [State.bumpContinuity, State.continuity, TsPid.number, List.mapIdx_cons, List.length_cons]
    simp [hcc]

/-! ## The identifier counter -/

theorem wrapFlag_eq (old : Bool) (id : BitVec 32) :
    wrapFlag old id = (old || decide (id.toNat = 2 ^ 32 - 1)) := by
  unfold wrapFlag
  congr 1
  rw [Bool.eq_iff_iff, beq_iff_eq, decide_eq_true_iff, ← BitVec.toNat_inj, BitVec.toNat_allOnes]

/-- Every datagram of a Frame is offered, then the identifier is used once (R183, R184). -/
theorem sendFrameA_eq (tag : Byte) (f : Bytes) (base : Nat) (w : Work) :
    sendFrameA tag f base w =
      { (List.range (ceilDiv f.length w.st.cfg.fragMaxChunk.toNat)).foldl
          (fun w' i =>
            w'.offer (base + i) (isInitTag w.st.cfg tag)
              (datagramA w.st.nextId w.st.cfg.fragMaxChunk.toNat tag f i)) w with
        st :=
          advanceId
            ((List.range (ceilDiv f.length w.st.cfg.fragMaxChunk.toNat)).foldl
              (fun w' i =>
                w'.offer (base + i) (isInitTag w.st.cfg tag)
                  (datagramA w.st.nextId w.st.cfg.fragMaxChunk.toNat tag f i)) w).st } := rfl

end Sys2Proof.Machine
end

