-- ==== Sys2Proof/Laws/PerInstr.lean ====
section
/-! SUPPORT. One lemma per command: the opcode and the argument bytes the encoder writes for it are read by
the opcode map as the command itself (spec/30_encoding.md R71, R72, R78). -/

namespace Sys2Proof.Laws.ArgsDecode

open Sys2Proof Sys2Proof.Machine

/-- The argument bytes of a command, read under its opcode, give the command, every operand at every
value. -/
def Statement (i : Instr) : Prop := decodeArg i.opcode i.args = some i

theorem arg64_args (mk : BitVec 64 → Instr) (x : BitVec 64) : arg64 mk (be 8 x.toNat) = some (mk x) := by
  simp [arg64]

theorem arg32_args (mk : BitVec 32 → Instr) (w : BitVec 32) : arg32 mk (be 4 w.toNat) = some (mk w) := by
  simp [arg32]

theorem addTimestamp (v : BitVec 64) : Statement (.addTimestamp v) := arg64_args .addTimestamp v

theorem addRoll (x : BitVec 64) : Statement (.addRoll x) := arg64_args .addRoll x

theorem addPitch (x : BitVec 64) : Statement (.addPitch x) := arg64_args .addPitch x

theorem addHeading (x : BitVec 64) : Statement (.addHeading x) := arg64_args .addHeading x

theorem addLatitude (x : BitVec 64) : Statement (.addLatitude x) := arg64_args .addLatitude x

theorem addLongitude (x : BitVec 64) : Statement (.addLongitude x) := arg64_args .addLongitude x

theorem addAltitude (x : BitVec 64) : Statement (.addAltitude x) := arg64_args .addAltitude x

theorem addHfov (x : BitVec 64) : Statement (.addHfov x) := arg64_args .addHfov x

theorem addVfov (x : BitVec 64) : Statement (.addVfov x) := arg64_args .addVfov x

theorem addGimbalRoll (x : BitVec 64) : Statement (.addGimbalRoll x) := arg64_args .addGimbalRoll x

theorem addGimbalPitch (x : BitVec 64) : Statement (.addGimbalPitch x) := arg64_args .addGimbalPitch x

theorem addGimbalYaw (x : BitVec 64) : Statement (.addGimbalYaw x) := arg64_args .addGimbalYaw x

theorem addSensorWidth (w : BitVec 32) : Statement (.addSensorWidth w) := arg32_args .addSensorWidth w

theorem addSensorHeight (w : BitVec 32) : Statement (.addSensorHeight w) := arg32_args .addSensorHeight w

theorem addFocalLength (w : BitVec 32) : Statement (.addFocalLength w) := arg32_args .addFocalLength w

theorem klvPack : Statement .klvPack := rfl

theorem klvClear : Statement .klvClear := rfl

theorem tsWrap (data : Bytes) : Statement (.tsWrap data) := rfl

theorem fragSend (typeTag : Byte) (timestamp : BitVec 64) (frame : Bytes) :
    Statement (.fragSend typeTag timestamp frame) := by
  have hts : slice (typeTag :: (be 8 timestamp.toNat ++ frame)) 1 9 = be 8 timestamp.toNat := by
    simp [slice]
  have hframe : (typeTag :: (be 8 timestamp.toNat ++ frame)).drop 9 = frame := by
    simp
  show argSend (typeTag :: (be 8 timestamp.toNat ++ frame)) = _
  rw [argSend, hts, hframe, if_pos (by simp)]
  simp

theorem fragRefresh : Statement .fragRefresh := rfl

theorem rxPacket (d : Bytes) : Statement (.rxPacket d) := rfl

theorem rxPop : Statement .rxPop := rfl

theorem cfgWrite (csr : Byte) (value : BitVec 32) : Statement (.cfgWrite csr value) := by
  have hv : slice (csr :: be 4 value.toNat) 1 5 = be 4 value.toNat := by
    simp [slice]
  show argCsrw (csr :: be 4 value.toNat) = _
  rw [argCsrw, hv, if_pos (by simp)]
  simp

theorem csrRead (csr : Byte) : Statement (.csrRead csr) := rfl

theorem reset : Statement .reset := rfl

end Sys2Proof.Laws.ArgsDecode
end

