-- ==== Sys2Proof/Machine/Assembler.lean ====
section
/-! DEFINITION. The spec's textual form of a command stream (spec/30_encoding.md R81, R82), host-side text that
stands for commands and for the transport's answers: it is read here into the commands it assembles to. -/

namespace Sys2Proof.Machine

/-- Text, one line of it. -/
abbrev Text := List Char

/-! ## Separators -/

/-- A line without its comment (R81). -/
def dropComment : Text → Text
  | [] => []
  | c :: rest => if c = '#' then [] else c :: dropComment rest

/-- Text without the spaces around it. -/
def trim (t : Text) : Text := ((t.dropWhile fun c => c == ' ').reverse.dropWhile fun c => c == ' ').reverse

/-- The parts of a text between the occurrences of a character. -/
def splitChar (sep : Char) : Text → List Text
  | [] => [[]]
  | c :: rest =>
    if c = sep then [] :: splitChar sep rest
    else
      match splitChar sep rest with
      | [] => [[c]]
      | part :: parts => (c :: part) :: parts

/-- The text after a prefix, where it begins with it. -/
def afterPrefix : Text → Text → Option Text
  | [], t => some t
  | _ :: _, [] => none
  | p :: ps, c :: t => if p = c then afterPrefix ps t else none

/-- The text between a prefix and a last character. -/
def between (front : Text) (last : Char) (t : Text) : Option Text :=
  match afterPrefix front t with
  | none => none
  | some rest => if rest.getLast? = some last then some rest.dropLast else none

/-! ## Numbers -/

/-- A decimal digit. -/
def decDigit (c : Char) : Option Nat :=
  if '0'.toNat ≤ c.toNat ∧ c.toNat ≤ '9'.toNat then some (c.toNat - '0'.toNat) else none

/-- A hexadecimal digit. -/
def hexDigit (c : Char) : Option Nat :=
  if 'a'.toNat ≤ c.toNat ∧ c.toNat ≤ 'f'.toNat then some (c.toNat - 'a'.toNat + 10)
  else if 'A'.toNat ≤ c.toNat ∧ c.toNat ≤ 'F'.toNat then some (c.toNat - 'A'.toNat + 10)
  else decDigit c

/-- Digits in a base, after the number `acc`. -/
def digits (base : Nat) (digit : Char → Option Nat) : Nat → Text → Option Nat
  | acc, [] => some acc
  | acc, c :: rest =>
    match digit c with
    | none => none
    | some d => digits base digit (acc * base + d) rest

/-- One or more decimal digits. -/
def decimal (t : Text) : Option Nat := if t = [] then none else digits 10 decDigit 0 t

/-- Exactly `n` hexadecimal digits. -/
def hexadecimal (n : Nat) (t : Text) : Option Nat := if t.length = n then digits 16 hexDigit 0 t else none

/-- An integer, decimal or `0x` hexadecimal (R81). -/
def integer (t : Text) : Option Nat :=
  match afterPrefix ['0', 'x'] t with
  | some rest => if rest = [] then none else digits 16 hexDigit 0 rest
  | none => decimal t

/-- An integer below a bound. -/
def integerBelow (bound : Nat) (t : Text) : Option Nat :=
  match integer t with
  | none => none
  | some n => if n < bound then some n else none

/-- The magnitude bits of the binary64 nearest to `num / den`, ties to even; none where that leaves the
finite range (R81). The significand is `num / den / 2^(e - 1074)` rounded, and a carry out of it moves the
exponent by one in the bits. -/
def nearestBits (num den : Nat) : Option Nat :=
  let e := Nat.log2 num + 1074 - (Nat.log2 den + 53)
  let e := if num = 0 then 0 else if num * 2 ^ 1074 < den * 2 ^ (e + 53) then e else e + 1
  let n := num * 2 ^ 1074
  let d := den * 2 ^ e
  let m := n / d
  let r := n % d
  let m := if 2 * r < d then m else if d < 2 * r then m + 1 else if m % 2 = 0 then m else m + 1
  let bits := e * 2 ^ 52 + m
  if bits < 2047 * 2 ^ 52 then some bits else none

/-- The digits of a decimal literal and how many of them follow the point. -/
def mantissa (t : Text) : Option (Nat × Nat) :=
  match splitChar '.' t with
  | [whole] => (decimal whole).map fun n => (n, 0)
  | [whole, fraction] => (decimal (whole ++ fraction)).map fun n => (n, fraction.length)
  | _ => none

/-- An unsigned decimal literal as a fraction: digits, a point, an exponent after `e`. -/
def decimalFraction (t : Text) : Option (Nat × Nat) :=
  match splitChar 'e' t with
  | [m] => (mantissa m).map fun p => (p.1, 10 ^ p.2)
  | [m, x] =>
    match mantissa m, afterPrefix ['-'] x with
    | some p, some x' => (decimal x').map fun k => (p.1, 10 ^ (p.2 + k))
    | some p, none => (decimal x).map fun k => (p.1 * 10 ^ k, 10 ^ p.2)
    | none, _ => none
  | _ => none

/-- A binary64 operand: `f64:0x` and 16 hexadecimal digits, or a decimal literal (R81). -/
def f64Literal (t : Text) : Option (BitVec 64) :=
  match afterPrefix ['f', '6', '4', ':', '0', 'x'] t with
  | some rest => (hexadecimal 16 rest).map (BitVec.ofNat 64)
  | none =>
    match afterPrefix ['-'] t with
    | some rest =>
      (decimalFraction rest).bind fun p =>
        (nearestBits p.1 p.2).map fun bits => BitVec.ofNat 64 (2 ^ 63 + bits)
    | none =>
      (decimalFraction t).bind fun p => (nearestBits p.1 p.2).map fun bits => BitVec.ofNat 64 bits

/-- A binary32 operand: `f32:0x` and 8 hexadecimal digits (R81). -/
def f32Literal (t : Text) : Option (BitVec 32) :=
  match afterPrefix ['f', '3', '2', ':', '0', 'x'] t with
  | some rest => (hexadecimal 8 rest).map (BitVec.ofNat 32)
  | none => none

/-! ## Byte strings -/

/-- Pairs of hexadecimal digits. -/
def hexPairs : Text → Option Bytes
  | [] => some []
  | [_] => none
  | a :: b :: rest =>
    match hexDigit a, hexDigit b, hexPairs rest with
    | some x, some y, some bytes => some (BitVec.ofNat 8 (x * 16 + y) :: bytes)
    | _, _, _ => none

/-- One byte string term: `hex"..."`, `zeros(n)` or `ramp(n)` (R81). -/
def byteTerm (t : Text) : Option Bytes :=
  match between ['h', 'e', 'x', '"'] '"' t with
  | some inner => hexPairs (inner.filter fun c => c != ' ')
  | none =>
    match between ['z', 'e', 'r', 'o', 's', '('] ')' t with
    | some inner => (integer inner).map fun n => List.replicate n 0
    | none =>
      match between ['r', 'a', 'm', 'p', '('] ')' t with
      | some inner => (integer inner).map fun n => (List.range n).map fun i => BitVec.ofNat 8 i
      | none => none

/-- Terms joined; `a ++ b` split at `+` leaves an empty part between its two terms. -/
def byteTerms : List Text → Option Bytes
  | [] => none
  | [t] => byteTerm (trim t)
  | _ :: [_] => none
  | t :: gap :: rest =>
    if gap = [] then
      match byteTerm (trim t), byteTerms rest with
      | some a, some b => some (a ++ b)
      | _, _ => none
    else none

/-- A byte string (R81). -/
def byteString (t : Text) : Option Bytes := byteTerms (splitChar '+' t)

/-! ## Commands -/

/-- The names of the CSRs and their numbers (R36). -/
def csrNames : List (String × Byte) :=
  [("FRAG_VARIANT", 0x00), ("FRAG_MAX_CHUNK", 0x01), ("TS_PSI_INTERVAL", 0x02),
    ("RX_MAX_FRAMES", 0x03), ("INIT_TAG0", 0x04), ("INIT_TAG1", 0x05), ("STATUS", 0x10),
    ("KLV_BYTES", 0x11), ("TS_CC_PAT", 0x13), ("TS_CC_PMT", 0x14), ("TS_CC_ES", 0x15),
    ("TS_PSI_CTR", 0x16), ("FRAG_NEXT_ID", 0x17), ("RX_TRACKED", 0x18), ("OUTQ_LEVEL", 0x19),
    ("CNT_VALIDATION", 0x20), ("CNT_TX_DROP", 0x21), ("CNT_RX_SHORT", 0x22), ("CNT_RX_DUP", 0x23),
    ("CNT_RX_EVICTED", 0x24), ("CNT_RX_FRAMES", 0x25), ("CNT_OUT_DROP", 0x26),
    ("CNT_ILLEGAL", 0x27), ("CNT_CAPACITY", 0x28)]

/-- The entry of a name in a table. -/
def named {α : Type} (t : Text) : List (String × α) → Option α
  | [] => none
  | (name, v) :: rest => if name.toList = t then some v else named t rest

/-- What the operands of a mnemonic are read as, and the command they make (R82). -/
inductive OperandForm where
  /-- `N`. -/
  | none (i : Instr)
  /-- `U64`. -/
  | u64 (mk : BitVec 64 → Instr)
  /-- `F64`. -/
  | f64 (mk : BitVec 64 → Instr)
  /-- `F32`. -/
  | f32 (mk : BitVec 32 → Instr)
  /-- `BLOB`. -/
  | blob (mk : Bytes → Instr)
  /-- `SEND`. -/
  | send
  /-- `CSRW`. -/
  | csrw
  /-- `CSRR`. -/
  | csrr

/-- The mnemonics of R72 and their formats (R71, R82). -/
def mnemonics : List (String × OperandForm) :=
  [("ADD_TIMESTAMP", .u64 .addTimestamp), ("ADD_ROLL", .f64 .addRoll), ("ADD_PITCH", .f64 .addPitch),
    ("ADD_HEADING", .f64 .addHeading), ("ADD_LATITUDE", .f64 .addLatitude),
    ("ADD_LONGITUDE", .f64 .addLongitude), ("ADD_ALTITUDE", .f64 .addAltitude),
    ("ADD_HFOV", .f64 .addHfov), ("ADD_VFOV", .f64 .addVfov),
    ("ADD_GIMBAL_ROLL", .f64 .addGimbalRoll), ("ADD_GIMBAL_PITCH", .f64 .addGimbalPitch),
    ("ADD_GIMBAL_YAW", .f64 .addGimbalYaw), ("ADD_SENSOR_WIDTH", .f32 .addSensorWidth),
    ("ADD_SENSOR_HEIGHT", .f32 .addSensorHeight), ("ADD_FOCAL_LENGTH", .f32 .addFocalLength),
    ("KLV_PACK", .none .klvPack), ("KLV_CLEAR", .none .klvClear), ("TS_WRAP", .blob .tsWrap),
    ("FRAG_SEND", .send), ("FRAG_REFRESH", .none .fragRefresh), ("RX_PACKET", .blob .rxPacket),
    ("RX_POP", .none .rxPop), ("CFG_WRITE", .csrw), ("CSR_READ", .csrr), ("RESET", .none .reset)]

/-- The command of operands in a form (R82). -/
def readOperands (form : OperandForm) (operands : List Text) : Option Instr :=
  match form, operands with
  | .none i, [[]] => some i
  | .u64 mk, [v] => (integerBelow (2 ^ 64) v).map fun n => mk (BitVec.ofNat 64 n)
  | .f64 mk, [x] => (f64Literal x).map mk
  | .f32 mk, [w] => (f32Literal w).map mk
  | .blob mk, [data] => (byteString data).map mk
  | .send, [tag, ts, frame] =>
    match integerBelow 256 tag, integerBelow (2 ^ 64) ts, byteString frame with
    | some g, some n, some f => some (.fragSend (BitVec.ofNat 8 g) (BitVec.ofNat 64 n) f)
    | _, _, _ => none
  | .csrw, [csr, value] =>
    match named csr csrNames, integerBelow (2 ^ 32) value with
    | some c, some n => some (.cfgWrite c (BitVec.ofNat 32 n))
    | _, _ => none
  | .csrr, [csr] => (named csr csrNames).map .csrRead
  | _, _ => none

/-- A command in text: the mnemonic, then its operands separated by commas; it assembles when it has an
encoding (R70, R81, R82). -/
def readCommand (t : Text) : Option Instr :=
  let name := t.takeWhile fun c => c != ' '
  let operands := (splitChar ',' (t.drop name.length)).map trim
  match named name mnemonics with
  | none => none
  | some form =>
    match readOperands form operands with
    | none => none
    | some i => if i.wellFormed then some i else none

/-! ## Streams -/

/-- The indices of an `env` line: those the transport refuses (R80, R81). The list stands in braces, the
characters of code 0x7B and 0x7D. -/
def readEnv (t : Text) : Option (List Nat) :=
  match afterPrefix "env accept = all".toList t with
  | none => none
  | some [] => some []
  | some rest =>
    match between (" except ".toList ++ [Char.ofNat 0x7B]) (Char.ofNat 0x7D) rest with
    | none => none
    | some inner => ((splitChar ',' inner).map fun i => integer (trim i)).allSome

/-- Whether the commands an `env` line stands before include this one (R81). -/
def takesEnv : Instr → Bool
  | .fragSend _ _ _ => true
  | .fragRefresh => true
  | _ => false

/-- The lines of a stream: each command with the indices the transport refuses for it, `pending` those an
`env` line has given (R81). -/
def readLines : List Nat → List Text → Option (List (Instr × List Nat))
  | _, [] => some []
  | pending, line :: rest =>
    let t := trim (dropComment line)
    if t = [] then readLines pending rest
    else
      match readEnv t with
      | some refused => readLines refused rest
      | none =>
        match readCommand t with
        | none => none
        | some i =>
          if takesEnv i then (readLines [] rest).map fun l => (i, pending) :: l
          else (readLines pending rest).map fun l => (i, []) :: l

/-- A command stream in text, assembled (R81, R82). -/
def assemble (lines : List Text) : Option (List (Instr × List Nat)) := readLines [] lines

/-- The host presents assembled commands, and the transport will answer as their `env` lines say: the bytes
go to the command port and the answers with them (R70, R80, R313). -/
def State.present (s : State) (commands : List (Instr × List Nat)) : State :=
  { s with
    cmdIn := s.cmdIn ++ (commands.map fun p => encode p.1).flatten
    envIn := s.envIn ++ commands.map Prod.snd }

end Sys2Proof.Machine
end

