-- ==== Sys2Proof/Tests/Slice0.lean ====
section
/-! SUPPORT. The model's own tests: ill-formed commands are refused, commands written out byte by byte from
the spec's encoding decode, one or two examples of the spec for each command, and for each statement that
has hypotheses a concrete state and operands that meet them. Expected values are those of
spec/95_test_vectors.md and of the examples in the rules. -/

namespace Sys2Proof.Tests

open Sys2Proof Sys2Proof.Machine

/-- The item buffer after one command. -/
def itemsAfter (s : State) (i : Instr) : Bytes := (perform i s).klvItems

/-- The data of each record one command emits. -/
def outputAfter (s : State) (i : Instr) : List Bytes :=
  match (perform i s).resp with
  | none => []
  | some r => r.records.map Record.data

/-- After reset the command appends nothing and ends with this status. -/
def refusedBy (status : Status) (i : Instr) : Bool :=
  (perform i State.reset).klvItems == [] && (perform i State.reset).lastStatus == some status

/-- The state after one step. -/
def stepped (s : State) : State :=
  match step s with
  | .next t => t
  | .fault _ => s
  | .refused _ => s

/-- After reset, with the variant and the chunk size written. -/
def sender (v : FragVariant) (c : BitVec 32) : State :=
  { State.reset with cfg := { Cfg.reset with fragVariant := v, fragMaxChunk := c } }

/-! ## Ill-formed terms are refused (R70, R71) -/

theorem test_wellFormed_refuses_long_tsWrap :
    (Instr.tsWrap (List.replicate (2 ^ 32) 0)).wellFormed = false :=
  by
  simp only [Instr.wellFormed, List.length_replicate]
  decide

theorem test_wellFormed_refuses_long_rxPacket :
    (Instr.rxPacket (List.replicate (2 ^ 32) 0)).wellFormed = false :=
  by
  simp only [Instr.wellFormed, List.length_replicate]
  decide

theorem test_wellFormed_refuses_long_fragSend :
    (Instr.fragSend 1 2 (List.replicate (2 ^ 32 - 9) 0)).wellFormed = false :=
  by
  simp only [Instr.wellFormed, List.length_replicate]
  decide

theorem test_wellFormed_accepts_longest_frame :
    (Instr.fragSend 1 2 (List.replicate (2 ^ 32 - 10) 0)).wellFormed = true :=
  by
  simp only [Instr.wellFormed, List.length_replicate]
  decide

/-! ## Written words decode (R70, R71, R72) -/

theorem test_decode_addTimestamp :
    decode [0x02, 0x00, 0x00, 0x00, 0x08, 0xFF, 0x00, 0x00, 0x00, 0x00, 0x00, 0x00, 0x01] = .command
      (Instr.addTimestamp 0xFF00000000000001) [] :=
  by decide

theorem test_decode_addRoll :
    decode [0x05, 0x00, 0x00, 0x00, 0x08, 0xC0, 0x66, 0x80, 0x00, 0x00, 0x00, 0x00, 0x00] = .command
      (Instr.addRoll 0xC066800000000000) [] :=
  by decide

theorem test_decode_addPitch :
    decode [0x06, 0x00, 0x00, 0x00, 0x08, 0xC0, 0x12, 0x3D, 0x70, 0xA3, 0xD7, 0x0A, 0x3D] = .command
      (Instr.addPitch 0xC0123D70A3D70A3D) [] :=
  by decide

theorem test_decode_addHeading :
    decode [0x07, 0x00, 0x00, 0x00, 0x08, 0xBF, 0x50, 0x62, 0x4D, 0xD2, 0xF1, 0xA9, 0xFC] = .command
      (Instr.addHeading 0xBF50624DD2F1A9FC) [] :=
  by decide

theorem test_decode_addLatitude :
    decode [0x0D, 0x00, 0x00, 0x00, 0x08, 0xC0, 0x40, 0xEF, 0x35, 0x7B, 0xE2, 0xCF, 0x6E] = .command
      (Instr.addLatitude 0xC040EF357BE2CF6E) [] :=
  by decide

theorem test_decode_addLongitude :
    decode [0x0E, 0x00, 0x00, 0x00, 0x08, 0x40, 0x1C, 0x7E, 0x6B, 0x6E, 0xE3, 0xE3, 0x6A] = .command
      (Instr.addLongitude 0x401C7E6B6EE3E36A) [] :=
  by decide

theorem test_decode_addAltitude :
    decode [0x0F, 0x00, 0x00, 0x00, 0x08, 0x40, 0x5E, 0xD9, 0x99, 0x99, 0x99, 0x99, 0x9A] = .command
      (Instr.addAltitude 0x405ED9999999999A) [] :=
  by decide

theorem test_decode_addHfov :
    decode [0x12, 0x00, 0x00, 0x00, 0x08, 0x40, 0x50, 0x40, 0x00, 0x00, 0x00, 0x00, 0x00] = .command
      (Instr.addHfov 0x4050400000000000) [] :=
  by decide

theorem test_decode_addVfov :
    decode [0x13, 0x00, 0x00, 0x00, 0x08, 0x40, 0x44, 0x40, 0x00, 0x00, 0x00, 0x00, 0x00] = .command
      (Instr.addVfov 0x4044400000000000) [] :=
  by decide

theorem test_decode_addGimbalRoll :
    decode [0x15, 0x00, 0x00, 0x00, 0x08, 0x3F, 0xF8, 0x00, 0x00, 0x00, 0x00, 0x00, 0x00] = .command
      (Instr.addGimbalRoll 0x3FF8000000000000) [] :=
  by decide

theorem test_decode_addGimbalPitch :
    decode [0x16, 0x00, 0x00, 0x00, 0x08, 0xC0, 0x3E, 0x00, 0x00, 0x00, 0x00, 0x00, 0x00] = .command
      (Instr.addGimbalPitch 0xC03E000000000000) [] :=
  by decide

theorem test_decode_addGimbalYaw :
    decode [0x17, 0x00, 0x00, 0x00, 0x08, 0x3F, 0xD0, 0x00, 0x00, 0x00, 0x00, 0x00, 0x00] = .command
      (Instr.addGimbalYaw 0x3FD0000000000000) [] :=
  by decide

theorem test_decode_addSensorWidth :
    decode [0x66, 0x00, 0x00, 0x00, 0x04, 0x7F, 0xC0, 0x00, 0x01] = .command (Instr.addSensorWidth
      0x7FC00001) [] :=
  by decide

theorem test_decode_addSensorHeight :
    decode [0x67, 0x00, 0x00, 0x00, 0x04, 0x40, 0x91, 0x99, 0x9A] = .command (Instr.addSensorHeight
      0x4091999A) [] :=
  by decide

theorem test_decode_addFocalLength :
    decode [0x68, 0x00, 0x00, 0x00, 0x04, 0x40, 0x80, 0x00, 0x00] = .command (Instr.addFocalLength
      0x40800000) [] :=
  by decide

theorem test_decode_klvPack :
    decode [0x80, 0x00, 0x00, 0x00, 0x00] = .command Instr.klvPack [] :=
  by decide

theorem test_decode_klvClear :
    decode [0x81, 0x00, 0x00, 0x00, 0x00, 0x80] = .command Instr.klvClear [0x80] :=
  by decide

theorem test_decode_tsWrap :
    decode [0x90, 0x00, 0x00, 0x00, 0x03, 0x47, 0x48, 0x49, 0xFF] = .command (Instr.tsWrap [0x47, 0x48,
      0x49]) [0xFF] :=
  by decide

theorem test_decode_fragSend :
    decode [0xA0, 0x00, 0x00, 0x00, 0x0B, 0x07, 0x01, 0x02, 0x03, 0x04, 0x05, 0x06, 0x07, 0x08, 0x67,
      0x42] = .command (Instr.fragSend 7 0x0102030405060708 [0x67, 0x42]) [] :=
  by decide

theorem test_decode_fragRefresh :
    decode [0xA1, 0x00, 0x00, 0x00, 0x00] = .command Instr.fragRefresh [] :=
  by decide

theorem test_decode_rxPacket :
    decode [0xB0, 0x00, 0x00, 0x00, 0x02, 0x01, 0x02] = .command (Instr.rxPacket [1, 2]) [] :=
  by decide

theorem test_decode_rxPop : decode [0xB1, 0x00, 0x00, 0x00, 0x00] = .command Instr.rxPop [] := by decide

theorem test_decode_cfgWrite :
    decode [0xC0, 0x00, 0x00, 0x00, 0x05, 0x02, 0x01, 0x02, 0x03, 0x04] = .command (Instr.cfgWrite 2
      0x01020304) [] :=
  by decide

theorem test_decode_csrRead :
    decode [0xC1, 0x00, 0x00, 0x00, 0x01, 0x28] = .command (Instr.csrRead 0x28) [] :=
  by decide

theorem test_decode_reset :
    decode [0xFF, 0x00, 0x00, 0x00, 0x00, 0xFF, 0x00, 0x00, 0x00, 0x00] = .command Instr.reset [0xFF, 0,
      0, 0, 0] :=
  by decide

theorem test_decode_reserved_opcode :
    decode [0x83, 0x00, 0x00, 0x00, 0x01, 0xAA, 0x80] = .illegal 0x83 [0x80] :=
  by decide

theorem test_decode_wrong_length :
    decode [0x05, 0x00, 0x00, 0x00, 0x04, 0x01, 0x02, 0x03, 0x04, 0x80] = .illegal 0x05 [0x80] :=
  by decide

theorem test_decode_short_send :
    decode [0xA0, 0x00, 0x00, 0x00, 0x08, 0x01, 0x02, 0x03, 0x04, 0x05, 0x06, 0x07, 0x08] = .illegal
      0xA0 [] :=
  by decide

theorem test_decode_truncated :
    decode [0x90, 0x00, 0x00, 0x00, 0x03, 0x01, 0x02] = .truncated :=
  by decide

theorem test_tableWord_latitude : decodeTableWord 40 0x0D00000008 = some (.addLatitude 0) := by decide

/-- The table's word of `FRAG_SEND` has `alen = 0`, which R71 and R73 make illegal. -/
theorem test_tableWord_frag_send : decodeTableWord 40 0xA000000000 = none := by decide

/-! ## Add commands, spec/95_test_vectors.md K0 to K10 -/

theorem test_timestamp :
    itemsAfter State.reset (Instr.addTimestamp 1700000000000000) = [0x02, 0x08, 0x00, 0x06, 0x0A, 0x24,
      0x18, 0x1E, 0x40, 0x00] :=
  by decide

theorem test_timestamp_highest :
    itemsAfter State.reset (Instr.addTimestamp 0xFFFFFFFFFFFFFFFF) = [0x02, 0x08, 0xFF, 0xFF, 0xFF,
      0xFF, 0xFF, 0xFF, 0xFF, 0xFF] :=
  by decide

theorem test_latitude_bound :
    itemsAfter State.reset (Instr.addLatitude 0xC056800000000000) = [0x0D, 0x04, 0xCA, 0x5B, 0x17, 0x00] :=
  by decide

theorem test_latitude_past_bound :
    refusedBy .validationError (Instr.addLatitude 0x4056800000000001) = true :=
  by decide

theorem test_longitude :
    itemsAfter State.reset (Instr.addLongitude 0xC05E9AD7B41BFBDF) = [0x0E, 0x04, 0xB7, 0x08, 0x47,
      0x95] :=
  by decide

theorem test_longitude_past_bound :
    refusedBy .validationError (Instr.addLongitude 0x4066800000055E64) = true :=
  by decide

theorem test_altitude_wraps :
    itemsAfter State.reset (Instr.addAltitude 0xBFB999999999999A) = [0x0F, 0x02, 0xFF, 0xFF] :=
  by decide

theorem test_altitude_infinite :
    refusedBy .validationError (Instr.addAltitude 0xFFF0000000000000) = true :=
  by decide

theorem test_roll_tie_to_even :
    itemsAfter State.reset (Instr.addRoll 0x3FD8000000000000) = [0x05, 0x02, 0x00, 0x26] :=
  by decide

theorem test_roll_tie_away :
    itemsAfter { State.reset with build := { vectorBuild with tie := .away } } (Instr.addRoll
      0xBFC0000000000000) = [0x05, 0x02, 0xFF, 0xF3] :=
  by decide

theorem test_pitch :
    itemsAfter State.reset (Instr.addPitch 0xC0123D70A3D70A3D) = [0x06, 0x02, 0xFE, 0x38] :=
  by decide

theorem test_pitch_past_bound :
    refusedBy .validationError (Instr.addPitch 0xC056A00000000000) = true :=
  by decide

theorem test_heading_normalised :
    itemsAfter State.reset (Instr.addHeading 0xC024000000000000) = [0x07, 0x02, 0x88, 0xB8] :=
  by decide

theorem test_heading_added_once :
    refusedBy .validationError (Instr.addHeading 0xC079000000000000) = true :=
  by decide

theorem test_hfov_highest :
    itemsAfter State.reset (Instr.addHfov 0x40847ACCCCCCCCCD) = [0x12, 0x02, 0xFF, 0xFF] :=
  by decide

theorem test_hfov_rounds_below_zero :
    refusedBy .validationError (Instr.addHfov 0xBF789374BC6A7EFA) = true :=
  by decide

theorem test_vfov :
    itemsAfter State.reset (Instr.addVfov 0x4044400000000000) = [0x13, 0x02, 0x0F, 0xD2] :=
  by decide

theorem test_vfov_past_range :
    refusedBy .validationError (Instr.addVfov 0x4085E00000000000) = true :=
  by decide

theorem test_gimbal_roll_lowest :
    itemsAfter State.reset (Instr.addGimbalRoll 0xC0A0C6F7A0B5ED8D) = [0x15, 0x04, 0x80, 0x00, 0x00,
      0x00] :=
  by decide

theorem test_gimbal_roll_past_range :
    refusedBy .validationError (Instr.addGimbalRoll 0x40A0C6F7A0A52696) = true :=
  by decide

theorem test_gimbal_pitch :
    itemsAfter State.reset (Instr.addGimbalPitch 0xC03E000000000000) = [0x16, 0x04, 0xFE, 0x36, 0x3C,
      0x80] :=
  by decide

theorem test_gimbal_yaw :
    itemsAfter State.reset (Instr.addGimbalYaw 0x3FD0000000000000) = [0x17, 0x04, 0x00, 0x03, 0xD0,
      0x90] :=
  by decide

theorem test_altitude_binary64 :
    itemsAfter { State.reset with build := { vectorBuild with scaleMode := .binary64 } }
      (Instr.addAltitude 0x3FA999999999999A) = [0x0F, 0x02, 0x00, 0x00] :=
  by decide

theorem test_sensor_width_nan :
    itemsAfter State.reset (Instr.addSensorWidth 0x7FC00000) = [0x66, 0x04, 0x7F, 0xC0, 0x00, 0x00] :=
  by decide

theorem test_sensor_height :
    itemsAfter State.reset (Instr.addSensorHeight 0x4091999A) = [0x67, 0x04, 0x40, 0x91, 0x99, 0x9A] :=
  by decide

theorem test_focal_length :
    itemsAfter State.reset (Instr.addFocalLength 0x40800000) = [0x68, 0x04, 0x40, 0x80, 0x00, 0x00] :=
  by decide

/-! ## Packing, spec/95_test_vectors.md S1, S2, B4 -/

theorem test_ber_boundaries :
    [127, 128, 255, 256, 65535, 65536].map ber = [[0x7F], [0x81, 0x80], [0x81, 0xFF], [0x82, 1, 0],
      [0x82, 0xFF, 0xFF], [0x84, 0, 1, 0, 0]] :=
  by decide

theorem test_pack_empty :
    outputAfter State.reset .klvPack = [[0x06, 0x0E, 0x2B, 0x34, 0x02, 0x0B, 0x01, 0x01, 0x0E, 0x01,
      0x03, 0x01, 0x01, 0x00, 0x00, 0x00, 0x00]] :=
  by decide

theorem test_clear :
    itemsAfter { State.reset with klvItems := [5, 2, 0, 100] } .klvClear = [] :=
  by decide

theorem test_capacity :
    (perform (.addRoll 0) { State.reset with build := { vectorBuild with klvBufMax := 3 } }).lastStatus
      = some .capacityError :=
  by decide

/-! ## The text form, the example of R82 -/

theorem test_assemble_latitude :
    (readCommand "ADD_LATITUDE 45.1234567".toList).map encode =
      some [0x0D, 0x00, 0x00, 0x00, 0x08, 0x40, 0x46, 0x8F, 0xCD, 0x6D, 0xDC, 0x7C, 0x6D] :=
  by decide +kernel

theorem test_assemble_env_and_comment :
    assemble ["# none at all".toList, "env accept = all".toList,
        "FRAG_SEND 1, 0x10, hex\"01 02\" ++ zeros(1) # sent".toList] =
      some [(.fragSend 1 16 [0x01, 0x02, 0x00], [])] :=
  by decide +kernel

/-- Half of the least subnormal ties to the even zero, and 2^53 + 1 to the even 2^53. -/
theorem test_nearest_ties_to_even :
    nearestBits 1 (2 ^ 1075) = some 0 ∧ nearestBits (2 ^ 53 + 1) 1 = some 0x4340000000000000 := by
  decide +kernel

/-! ## Unit TS, spec/95_test_vectors.md T1, T5, S8 and R151 -/

theorem test_crc_check_value :
    crc32Mpeg2 [0x31, 0x32, 0x33, 0x34, 0x35, 0x36, 0x37, 0x38, 0x39] = 0x0376E6E7 :=
  by decide +kernel

theorem test_wrap_first_call :
    (outputAfter State.reset (.tsWrap [0xAA, 0xBB])).map (List.take 9) = [[0x47, 0x40, 0x00, 0x10, 0x00,
      0x00, 0xB0, 0x0D, 0x00], [0x47, 0x50, 0x00, 0x10, 0x00, 0x02, 0xB0, 0x12, 0x00], [0x47, 0x41, 0x00,
      0x10, 0x00, 0xAA, 0xBB, 0xFF, 0xFF]] :=
  by decide +kernel

theorem test_wrap_184_bytes :
    (outputAfter { State.reset with psiCtr := 1 } (.tsWrap (List.replicate 184 0x55))).map (List.take 6)
      = [[0x47, 0x41, 0x00, 0x10, 0x00, 0x55], [0x47, 0x01, 0x00, 0x11, 0x55, 0xFF]] :=
  by decide +kernel

/-! ## Unit FRAG, spec/95_test_vectors.md F1, F6, F8, F9, F14 -/

theorem test_send_variant_a :
    outputAfter (sender .a 4) (.fragSend 1 0 [1, 2, 3, 4, 5]) = [[0x00, 0x00, 0x00, 0x00, 0x00, 0x02,
      0x00, 0x00, 0x01, 0x00, 0x01, 0x02, 0x03, 0x04], [0x00, 0x00, 0x00, 0x00, 0x00, 0x02, 0x00, 0x01,
      0x01, 0x00, 0x05]] :=
  by decide

theorem test_send_variant_b :
    outputAfter (sender .b 4) (.fragSend 0 0x0102030405060708 [0xAA, 0xBB, 0xCC, 0xDD, 0xEE]) = [[0x00,
      0x00, 0x00, 0x00, 0x01, 0x02, 0x03, 0x04, 0x05, 0x06, 0x07, 0x08, 0xAA, 0xBB, 0xCC, 0xDD], [0x00,
      0x00, 0x00, 0x01, 0x01, 0x02, 0x03, 0x04, 0x05, 0x06, 0x07, 0x08, 0xEE]] :=
  by decide

theorem test_refresh :
    outputAfter { sender .a 4 with cache0 := some [0x67, 0x42], nextId := 9 } .fragRefresh = [[0x00,
      0x00, 0x00, 0x09, 0x00, 0x01, 0x00, 0x00, 0x07, 0x00, 0x67, 0x42]] :=
  by decide

theorem test_refused_datagram_is_counted :
    (perform (.fragSend 1 0 [1, 2, 3, 4, 5]) { sender .a 4 with refusals := [1] }).cnt.txDrop = 1 :=
  by decide

/-! ## Unit RX, spec/95_test_vectors.md X3, X5 -/

theorem test_receive_one_chunk :
    (perform (.rxPacket [0x00, 0x00, 0x00, 0x05, 0x00, 0x01, 0x00, 0x00, 0x00, 0x00, 0x7F]) (sender .a
      4)).outq = [.frame 5 [0x7F]] :=
  by decide

theorem test_receive_variant_b :
    (perform (.rxPacket [0x00, 0x00, 0x00, 0x01, 0x01, 0x02, 0x03, 0x04, 0x05, 0x06, 0x07, 0x08, 0xEE])
      (sender .b 4)).outq = [.datagram 1 0x0102030405060708 [0xEE]] :=
  by decide

theorem test_pop :
    outputAfter { sender .a 4 with outq := [.frame 7 [1, 2], .frame 6 [3]] } .rxPop = [[0x00, 0x00,
      0x00, 0x07, 0x01, 0x02]] :=
  by decide

/-! ## Control, the examples of R251 and R252 -/

theorem test_cfg_write :
    (perform (.cfgWrite 0x01 59988) State.reset).cfg.fragMaxChunk = 59988 :=
  by decide

theorem test_cfg_write_variant_once :
    (perform (.cfgWrite 0x00 1) (sender .a 4)).lastStatus = some .illegalCommand :=
  by decide

theorem test_csr_read : outputAfter State.reset (.csrRead 0x03) = [[0, 0, 0, 0x64]] := by decide

theorem test_csr_read_reserved :
    (perform (.csrRead 0x12) State.reset).lastStatus = some .illegalCommand :=
  by decide

theorem test_reset :
    perform .reset { sender .a 4 with klvItems := [1], nextId := 7 } = { State.reset with resp := some {
      records := [], status := .ok } } :=
  by decide

/-! ## The step -/

theorem test_step_performs_table_word :
    (stepped (State.reset.withFetchWord 40 0x0700000008)).klvItems = [7, 2, 0, 0] :=
  by decide

theorem test_step_consumes_illegal :
    (stepped { State.reset with cmdIn := [0x83, 0, 0, 0, 1, 0xAA, 0x80] }).cmdIn = [0x80] :=
  by decide

/-! ## Witnesses: for each statement with hypotheses, values that meet them -/

/-! ### Encoding and the step -/

theorem test_witness_longest_command_is_wellFormed :
    (Instr.rxPacket (List.replicate (2 ^ 32 - 1) 0)).wellFormed = true := by
  simp only [Instr.wellFormed, List.length_replicate]
  decide

theorem test_witness_legal_and_illegal_lengths :
    FormatAdmits 0xA0 9 ∧ ¬ FormatAdmits 0xA0 8 ∧ FormatAdmits 0x05 8 ∧ ¬ FormatAdmits 0x05 9 ∧
      ¬ FormatAdmits 0x04 0 ∧ FormatAdmits 0xC1 1 ∧ ¬ FormatAdmits 0xC1 0 := by
  simp [FormatAdmits]

theorem test_witness_illegal_command_at_the_port :
    ∃ s : State, s.cmdIn = 0x05 :: (be 4 [1, 2].length ++ [1, 2] ++ [0x80]) :=
  ⟨{ State.reset with cmdIn := [0x05, 0, 0, 0, 2, 1, 2, 0x80] }, by decide⟩

theorem test_witness_reserved_opcodes :
    ([0x00, 0x08, 0x0C, 0x18, 0x65, 0x69, 0x7F, 0x82, 0x8F, 0x91, 0x9F, 0xA2, 0xAF, 0xB2, 0xBF, 0xC2,
      0xFE] : List Byte).all (fun op => decide (decodeArg op [] = none)) = true := by decide

theorem test_witness_stream_ends_inside_command :
    ([0x90, 0, 0, 0] : Bytes).length < 5 ∧ ([0x47] : Bytes).length < fromBe [0, 0, 0, 2] ∧
      fromBe [0, 0, 0, 1] ≤ ([0x47] : Bytes).length ∧
      { State.reset with cmdIn := [0x90] }.cmdIn ≠ [] ∧
      decode { State.reset with cmdIn := [0x90] }.cmdIn = .truncated ∧ State.reset.cmdIn = [] := by
  decide

theorem test_witness_command_at_the_port :
    decode { State.reset with cmdIn := [0x80, 0, 0, 0, 0, 0x81] }.cmdIn = .command .klvPack [0x81] := by
  decide

/-! ### Whole-machine statements -/

/-- A receiver with an item, a cached unit, a partial entry and a waiting Frame. -/
def busy : State :=
  { sender .a 4 with
    klvItems := [5, 2, 0, 100]
    psiCtr := 9
    nextId := 0xFFFFFFFF
    cache0 := some [0x67]
    rxTable := [(7, { total := 3, chunks := [(0, [1]), (2, [3])] })]
    outq := [.frame 6 [9]]
    cmdIn := [0x80, 0, 0, 0, 0] }

theorem test_witness_busy_state_is_legal : Legal busy where
  build := by decide
  items := ⟨[(5, [0, 100])], by decide, by decide⟩
  itemsFit := by decide
  interval := by decide
  bound := by decide
  cadence := by decide
  store := by decide
  unfinished := by decide
  tableVariant := by decide
  queueFits := by decide
  queueVariant := by simp [busy, sender, Cfg.reset, ItemOfVariant]
  cacheVariant := by decide
  cacheNonempty := by decide

theorem test_witness_busy_state_steps : ∃ t, step busy = .next t := ⟨_, rfl⟩

theorem test_witness_units_of_two_commands :
    unitOf (.fragSend 1 0 [1, 2]) = some .frag ∧ unitOf .rxPop = some .rx ∧ CoreUnit.frag ≠ CoreUnit.rx := by
  decide

theorem test_witness_two_commands_of_different_units :
    PlainStatus (perform (.fragSend 1 0 [1, 2]) busy) ∧
      PlainStatus (perform .rxPop (perform (.fragSend 1 0 [1, 2]) busy)) ∧
      PlainStatus (perform .rxPop busy) ∧
      PlainStatus (perform (.fragSend 1 0 [1, 2]) (perform .rxPop busy)) ∧
      (∃ t, exec .rxPop busy = .next t) ∧ ∃ t, exec (.fragSend 1 0 [1, 2]) busy = .next t :=
  ⟨by decide, by decide, by decide, by decide, ⟨_, rfl⟩, ⟨_, rfl⟩⟩

theorem test_witness_sticky_flag :
    { busy with fidWrapped := true }.fidWrapped = true ∧
      decode { busy with fidWrapped := true }.cmdIn = .command .klvPack [] := by decide

theorem test_witness_counter_stands_lower :
    (stepped { busy with cmdIn := encode (.fragSend 1 0 [1]) }).nextId.toNat < busy.nextId.toNat := by
  decide

/-! ### Unit KLV -/

theorem test_witness_item_fits_exactly :
    { State.reset with build := { vectorBuild with klvBufMax := 10 } }.klvItems.length + 10 ≤ 10 ∧
      State.reset.klvItems.length + 6 ≤ State.reset.build.klvBufMax ∧
      State.reset.klvItems.length + 4 ≤ State.reset.build.klvBufMax := by decide

/-- A state in which no item fits. -/
def full : State := { State.reset with build := { vectorBuild with klvBufMax := 3 } }

theorem test_witness_item_is_one_byte_too_long :
    { State.reset with build := { vectorBuild with klvBufMax := 9 } }.build.klvBufMax <
        State.reset.klvItems.length + 10 ∧
      full.build.klvBufMax < full.klvItems.length + 6 ∧
      full.build.klvBufMax < full.klvItems.length + 4 := by decide

/-- 90.0 -/
theorem f64Rat_90 : f64Rat 0x4056800000000000 = 90 := by
  rw [f64Rat_of_fields _ false 1029 (13 * 2 ^ 47) (by decide) (by decide) (by decide) (by decide)]
  norm_num

/-- -180.0 -/
theorem f64Rat_neg180 : f64Rat 0xC066800000000000 = -180 := by
  rw [f64Rat_of_fields _ true 1030 (13 * 2 ^ 47) (by decide) (by decide) (by decide) (by decide)]
  norm_num

/-- -360.0 -/
theorem f64Rat_neg360 : f64Rat 0xC076800000000000 = -360 := by
  rw [f64Rat_of_fields _ true 1031 (13 * 2 ^ 47) (by decide) (by decide) (by decide) (by decide)]
  norm_num

/-- -400.0 -/
theorem f64Rat_neg400 : f64Rat 0xC079000000000000 = -400 := by
  rw [f64Rat_of_fields _ true 1031 (9 * 2 ^ 48) (by decide) (by decide) (by decide) (by decide)]
  norm_num

/-- 360.5 -/
theorem f64Rat_360_5 : f64Rat 0x4076880000000000 = 721 / 2 := by
  rw [f64Rat_of_fields _ false 1031 (209 * 2 ^ 43) (by decide) (by decide) (by decide) (by decide)]
  norm_num

theorem test_witness_in_domain_operands :
    f64Finite 0x4056800000000000 = true ∧ |f64Rat 0x4056800000000000| ≤ 90 ∧
      f64Finite 0xC066800000000000 = true ∧ |f64Rat 0xC066800000000000| ≤ 180 ∧
      f64Finite 0xC076800000000000 = true ∧ |f64Rat 0xC076800000000000| ≤ 360 := by
  rw [f64Rat_90, f64Rat_neg180, f64Rat_neg360]
  refine ⟨by decide, ?_, by decide, ?_, by decide, ?_⟩ <;> norm_num

theorem test_witness_out_of_domain_operands :
    f64Finite 0x7FF8000000000000 = false ∧ f64Finite 0xC066800000000000 = true ∧
      90 < |f64Rat 0xC066800000000000| ∧ f64Finite 0xC076800000000000 = true ∧
      180 < |f64Rat 0xC076800000000000| ∧ f64Finite 0x4076880000000000 = true ∧
      360 < f64Rat 0x4076880000000000 := by
  rw [f64Rat_neg180, f64Rat_neg360, f64Rat_360_5]
  refine ⟨by decide, by decide, ?_, by decide, ?_, by decide, ?_⟩ <;> norm_num

theorem test_witness_heading_stays_negative :
    f64Finite 0xC079000000000000 = true ∧ HeadingNormal vectorBuild 0xC079000000000000 (-40) := by
  refine ⟨by decide, ?_⟩
  simp only [HeadingNormal, f64Rat_neg400, vectorBuild]
  norm_num

/-- 655.35, -0.006, 655.36 and 0 degrees as a field of view, spec/95_test_vectors.md K7. -/
theorem test_witness_scaled_fields_of_view :
    ScalesTo vectorBuild 0x40847ACCCCCCCCCD 100 65535 ∧ ScalesTo vectorBuild 0xBF789374BC6A7EFA 100 (-1) ∧
      ScalesTo vectorBuild 0x40847AE147AE147B 100 65536 ∧ ScalesTo vectorBuild 0 100 0 :=
  ⟨scalesTo_of_rnd rfl (by decide), scalesTo_of_rnd rfl (by decide), scalesTo_of_rnd rfl (by decide),
    scalesTo_of_rnd rfl (by decide)⟩

/-- The greatest and the least gimbal angle and the first operand beyond each, spec/95_test_vectors.md
K8. -/
theorem test_witness_scaled_gimbal_angles :
    ScalesTo vectorBuild 0x40A0C6F7A0945F9E 1000000 2147483647 ∧
      ScalesTo vectorBuild 0xC0A0C6F7A0B5ED8D 1000000 (-2147483648) ∧
      ScalesTo vectorBuild 0x40A0C6F7A0A52696 1000000 2147483648 ∧
      ScalesTo vectorBuild 0xC0A0C6F7A0CA0F83 1000000 (-2147483649) :=
  ⟨scalesTo_of_rnd rfl (by decide), scalesTo_of_rnd rfl (by decide), scalesTo_of_rnd rfl (by decide),
    scalesTo_of_rnd rfl (by decide)⟩

/-- Each `F64` command at a bound of its domain ends with `OK`; -180 degrees as a heading is 180, and the
altitudes 6553.5 and 0 do not wrap. -/
theorem test_witness_exact_build_appends :
    State.reset.build.scaleMode = .exact ∧
      [Instr.addLatitude 0x4056800000000000, .addLongitude 0xC066800000000000,
        .addRoll 0xC066800000000000, .addPitch 0x4056800000000000, .addHeading 0xC066800000000000,
        .addAltitude 0x40B9998000000000, .addHfov 0x40847ACCCCCCCCCD, .addVfov 0,
        .addGimbalRoll 0xC0A0C6F7A0B5ED8D, .addGimbalPitch 0x40A0C6F7A0945F9E, .addGimbalYaw 0].all
          (fun i => (perform i State.reset).lastStatus == some .ok) = true ∧
      HeadingNormal vectorBuild 0xC066800000000000 180 ∧
      ScalesTo vectorBuild 0x40B9998000000000 10 65535 ∧ ScalesTo vectorBuild 0 10 0 := by
  refine ⟨rfl, by decide, ?_, scalesTo_of_rnd rfl (by decide), scalesTo_of_rnd rfl (by decide)⟩
  simp only [HeadingNormal, f64Rat_neg180, vectorBuild]
  norm_num

theorem test_witness_ber_ranges :
    127 < 128 ∧ (128 ≤ 128 ∧ 255 ≤ 255) ∧ (256 ≤ 256 ∧ 65535 ≤ 65535) ∧
      (65536 ≤ 65536 ∧ 2 ^ 32 - 1 < 2 ^ 32) := by decide

theorem test_witness_items_of_a_packet :
    (∀ p ∈ ([(2, [0, 0, 0, 0, 0, 0, 0, 5]), (5, [0, 100])] : List (Byte × Bytes)), p.2.length ≤ 255) ∧
      ((([(2, [0, 0, 0, 0, 0, 0, 0, 5]), (5, [0, 100])] : List (Byte × Bytes)).map
        fun p => klvItem p.1 p.2).flatten).length < 2 ^ 32 := by decide

/-! ### Unit TS -/

theorem test_witness_wraps :
    TsPid.pmt.number < 2 ^ 13 ∧ ([0x47] : Bytes) ≠ [] ∧ { State.reset with psiCtr := 9 }.psiCtr ≠ 0 ∧
      ∃ t, exec (.tsWrap [0x47]) { State.reset with psiCtr := 9 } = .next t :=
  ⟨by decide, by decide, by decide, ⟨_, rfl⟩⟩

theorem test_witness_section_parameters :
    vectorBuild.tsId = 0x0001 ∧ vectorBuild.pmtPcrPid = 0x1FFF ∧
      { vectorBuild with pmtPcrPid := 0x0100 }.pmtPcrPid = 0x0100 := by decide

/-! ### Unit FRAG -/

theorem test_witness_splitter : 1 ≤ 1 ∧ ([0] : Bytes) ≠ [] ∧ ∃ f : Bytes, f.length = 150000 :=
  ⟨by decide, by decide, List.replicate 150000 0, List.length_replicate⟩

theorem test_witness_longest_variant_a_frame :
    ∃ f : Bytes, (sender .a 4).cfg.fragVariant = .a ∧ (sender .a 4).cfg.fragMaxChunk ≠ 0 ∧ f ≠ [] ∧
      (f.length + (sender .a 4).cfg.fragMaxChunk.toNat - 1) / (sender .a 4).cfg.fragMaxChunk.toNat ≤
        65535 := by
  refine ⟨List.replicate 262140 0, by decide, by decide, ?_, ?_⟩
  · rw [ne_eq, List.replicate_eq_nil_iff]
    decide
  · rw [List.length_replicate]
    decide

theorem test_witness_shortest_refused_frame :
    ∃ f : Bytes, 65535 * (sender .a 4).cfg.fragMaxChunk.toNat < f.length := by
  refine ⟨List.replicate 262141 0, ?_⟩
  rw [List.length_replicate]
  decide

theorem test_witness_one_datagram_frame :
    ([1, 2, 3, 4] : Bytes) ≠ [] ∧ ([1, 2, 3, 4] : Bytes).length ≤ (sender .a 4).cfg.fragMaxChunk.toNat ∧
      0 ∉ (sender .a 4).refusals ∧ 0 ∈ { sender .a 4 with refusals := [0] }.refusals := by decide

theorem test_witness_variant_b_sender :
    (sender .b 4).cfg.fragVariant = .b ∧ (sender .b 4).cfg.fragMaxChunk ≠ 0 ∧ ([1] : Bytes) ≠ [] ∧
      (sender .b 4).cfg.fragVariant ≠ .unset := by decide

theorem test_witness_unconfigured_senders :
    State.reset.cfg.fragVariant = .unset ∧ (sender .a 0).cfg.fragMaxChunk = 0 := by decide

/-- Two cached units, both resent. -/
theorem test_witness_refresh_of_two_units :
    let s := { sender .a 4 with cache0 := some [0x67], cache1 := some [0x68, 1, 2, 3, 4] }
    s.cfg.fragVariant ≠ .unset ∧ s.cfg.fragMaxChunk ≠ 0 ∧ (refreshUnits s).length = 2 ∧
      refreshSkips s = 0 := by decide

/-- After reset under variant A with chunks of one byte, `unit` cached for both tags. -/
def cached (unit : Bytes) : State := { sender .a 1 with cache0 := some unit, cache1 := some unit }

theorem cached_long_units_are_skipped (unit : Bytes) (h : unit.length = 65536) :
    (cached unit).cfg.fragVariant ≠ .unset ∧ (cached unit).cfg.fragMaxChunk ≠ 0 ∧
      refreshUnits (cached unit) = [] ∧ refreshSkips (cached unit) = 2 := by
  simp [refreshUnits, refreshSkips, cached, sender, h]

/-- Two cached units of 65536 chunks each, both skipped. -/
theorem test_witness_refresh_skips_two_units :
    ∃ unit, (cached unit).cfg.fragVariant ≠ .unset ∧ (cached unit).cfg.fragMaxChunk ≠ 0 ∧
      refreshUnits (cached unit) = [] ∧ refreshSkips (cached unit) = 2 :=
  ⟨List.replicate 65536 0, cached_long_units_are_skipped _ List.length_replicate⟩

/-! ### Unit RX -/

theorem test_witness_unreadable_datagrams :
    State.reset.cfg.fragVariant = .unset ∧ (List.replicate 9 (0 : Byte)).length < 10 ∧
      (List.replicate 11 (0 : Byte)).length < 12 := by decide

/-- Chunk 1 of Frame 7, of 3 chunks: it completes `busy`'s entry; with 4 it does not. -/
theorem test_witness_chunks_of_a_tracked_frame :
    busy.cfg.fragVariant = .a ∧ 10 ≤ (hdrA 7 3 1 0 ++ [2]).length ∧
      mapGet (parseA (hdrA 7 3 1 0 ++ [2])).fid busy.rxTable =
        some { total := 3, chunks := [(0, [1]), (2, [3])] } ∧
      (mapSet (parseA (hdrA 7 3 1 0 ++ [2])).index [2] ([(0, [1]), (2, [3])] : KeyMap 16 Bytes)).length =
        (parseA (hdrA 7 3 1 0 ++ [2])).total.toNat ∧
      (mapSet (parseA (hdrA 7 4 1 0 ++ [2])).index [2] ([(0, [1]), (2, [3])] : KeyMap 16 Bytes)).length ≠
        (parseA (hdrA 7 4 1 0 ++ [2])).total.toNat := by decide

/-- A new Frame above the one tracked Frame, with K = 1: it evicts. -/
theorem test_witness_new_frame_evicts :
    busy.cfg.fragVariant = .a ∧ 10 ≤ (hdrA 8 1 0 0).length ∧ mapWf busy.rxTable = true ∧
      { busy.cfg with rxMaxFrames := 1 }.rxMaxFrames ≠ 0 ∧
      mapGet (parseA (hdrA 8 1 0 0)).fid busy.rxTable = none ∧
      (makeRoom 1 8 busy.rxTable).admitted = true := by decide

/-- A new Frame below the one tracked Frame, with K = 1: it is dropped. -/
theorem test_witness_new_frame_is_dropped :
    10 ≤ (hdrA 6 1 0 0).length ∧ mapGet (parseA (hdrA 6 1 0 0)).fid busy.rxTable = none ∧
      (makeRoom 1 6 busy.rxTable).admitted = false := by decide

theorem test_witness_within_the_bound :
    (∀ v, Instr.rxPacket (hdrA 8 1 0 0) ≠ .cfgWrite 0x03 v) ∧
      (∃ t, exec (.rxPacket (hdrA 8 1 0 0)) busy = .next t) ∧ mapWf busy.rxTable = true ∧
      busy.cfg.rxMaxFrames ≠ 0 ∧ busy.rxTable.length ≤ busy.cfg.rxMaxFrames.toNat :=
  ⟨by simp, ⟨_, rfl⟩, by decide, by decide, by decide⟩

/-- A Frame of 9 bytes in chunks of 4: chunk 2, then 0 twice, then 1 last. -/
theorem test_witness_chunks_out_of_order :
    busy.cfg.fragVariant = .a ∧ ([1, 2, 3, 4, 5, 6, 7, 8, 9] : Bytes) ≠ [] ∧ ceilDiv 9 4 ≤ 65535 ∧
      mapWf busy.rxTable = true ∧ mapGet 8 busy.rxTable = none ∧
      busy.rxTable.length < busy.cfg.rxMaxFrames.toNat ∧ (∀ i ∈ [2, 0, 0], i < ceilDiv 9 4) ∧
      1 < ceilDiv 9 4 ∧ 1 ∉ [2, 0, 0] ∧ (∀ i, i < ceilDiv 9 4 → i ∈ [2, 0, 0] ∨ i = 1) ∧
      [2, 0, 0] ≠ [] := by
  refine ⟨by decide, by decide, by decide, by decide, by decide, by decide, by decide, by decide, by decide,
    ?_, by decide⟩
  intro i hi
  have : ceilDiv 9 4 = 3 := by decide
  simp
  omega

theorem test_witness_queues :
    (sender .b 4).cfg.fragVariant = .b ∧ State.reset.outq = [] ∧ busy.outq = .frame 6 [9] :: [] ∧
      { sender .b 4 with outq := [.datagram 1 2 [3]] }.outq = .datagram 1 2 [3] :: [] := by decide

/-! ### Control and the host's macros -/

theorem test_witness_legal_configuration_values :
    State.reset.cfg.fragVariant = .unset ∧ (1 : BitVec 32) ≠ 0 ∧ (255 : BitVec 32).toNat ≤ 255 := by decide

theorem test_witness_illegal_configuration_writes :
    5 < (6 : Byte).toNat ∧ (sender .a 4).cfg.fragVariant ≠ .unset ∧ 3 ≤ (3 : BitVec 32).toNat ∧
      255 < (256 : BitVec 32).toNat := by decide

theorem test_witness_readable_state :
    busy.klvItems.length < 2 ^ 32 ∧ busy.outq.length < 2 ^ 32 ∧ busy.rxTable.length < 2 ^ 32 := by decide

theorem test_witness_legal_write :
    (∃ t, exec (.cfgWrite 0x05 255) busy = .next t) ∧
      (perform (.cfgWrite 0x05 255) busy).lastStatus = some .ok :=
  ⟨⟨_, rfl⟩, by decide⟩

/-- A sample with a position, whose `gps_fixed` is as given. -/
def positioned (gpsFixed : Option Bool) : TelemetrySample :=
  ⟨none, some 1, some 2, some 3, none, none, none, none, none, none, none, none, none, none, none, gpsFixed⟩

theorem test_witness_samples :
    sampleCommands .omit (positioned (some true)) = [.addLatitude 1, .addLongitude 2, .addAltitude 3] ∧
      sampleCommands .omit (positioned (some false)) = [] ∧
      sampleCommands (.defaultAlt 7) (positioned (some false)) = [.addAltitude 7] ∧
      (positioned none).gpsFixed = none := by decide

end Sys2Proof.Tests
end

section
/-! PROOFS. The step: what a fetch finds at the command port, and that no step changes a build parameter
(spec/00_scope.md R9, R15; spec/10_state.md R38; spec/20_memory.md R60). -/

namespace Sys2Proof.Machine

/-! ## Taking a command from the port -/

theorem decode_nil : decode [] = .truncated := rfl

theorem fetch_of_idle {s : State} (h : s.cmdIn = []) : fetch s = .idle := by simp [fetch, h]

/-- Where a command or an illegal command stands at the port, the port is not empty. -/
theorem cmdIn_isEmpty_of_decode {s : State} (h : decode s.cmdIn ≠ .truncated) :
    s.cmdIn.isEmpty = false := by
  rw [Bool.eq_false_iff, ne_eq, List.isEmpty_iff]
  intro hnil
  rw [hnil] at h
  exact h decode_nil

theorem fetch_of_command {s : State} {i : Instr} {rest : Bytes} (h : decode s.cmdIn = .command i rest) :
    fetch s = .command i (s.latch rest) := by
  have hne : s.cmdIn.isEmpty = false := cmdIn_isEmpty_of_decode (by simp [h])
  simp [fetch, hne, h]

theorem step_of_idle {s : State} (h : s.cmdIn = []) : step s = .next s := by
  rw [step, fetch_of_idle h]

theorem step_of_command {s : State} {i : Instr} {rest : Bytes} (h : decode s.cmdIn = .command i rest) :
    step s = exec i (s.latch rest) := by
  rw [step, fetch_of_command h]

/-- What a step that answers a next state did: nothing at an idle port, an illegal command counted, or a
legal command performed (R15, R73, R287). -/
theorem step_cases {s t : State} (h : step s = .next t) :
    (s.cmdIn = [] ∧ t = s) ∨
    (∃ op rest, decode s.cmdIn = .illegal op rest ∧ t = raise .illegal (s.latch rest)) ∨
    ∃ i rest, decode s.cmdIn = .command i rest ∧ exec i (s.latch rest) = .next t := by
  by_cases hidle : s.cmdIn = []
  · rw [step_of_idle hidle] at h
    cases h
    exact .inl ⟨hidle, rfl⟩
  · have hempty : s.cmdIn.isEmpty = false := by simpa using hidle
    right
    cases hd : decode s.cmdIn with
    | truncated => simp [step, fetch, hempty, hd] at h
    | illegal op rest =>
      simp only [step, fetch, hempty, hd, Bool.false_eq_true, if_false, execIllegal] at h
      cases h
      exact .inl ⟨op, rest, rfl, rfl⟩
    | command i rest =>
      rw [step_of_command hd] at h
      exact .inr ⟨i, rest, rfl, h⟩

/-! ## The build parameters, operation by operation -/

@[simp] theorem appendItem_build (tag : Byte) (value : Bytes) (s : State) :
    (appendItem tag value s).build = s.build := by
  rw [appendItem_eq]
  split <;> rfl

@[simp] theorem appendFixed_build (tag : Byte) (n : Nat) (operand : Option Int) (s : State) :
    (appendFixed tag n operand s).build = s.build := by
  rcases appendFixed_cases tag n operand s with ⟨-, h⟩ | ⟨v, -, -, h⟩ | ⟨v, -, -, h⟩ <;> rw [h] <;> rfl

@[simp] theorem Work.finish_build (w : Work) : w.finish.build = w.st.build := rfl

/-- A fold of steps that each keep the build parameters keeps them. -/
theorem foldl_build {α : Type} {f : Work → α → Work} (hf : ∀ w a, (f w a).st.build = w.st.build)
    (l : List α) (w : Work) : (l.foldl f w).st.build = w.st.build := by
  induction l generalizing w with
  | nil => rfl
  | cons a l ih => rw [List.foldl_cons, ih, hf]

@[simp] theorem tsPacket_build (p : TsPid) (pusi : Bool) (body : Bytes) (w : Work) :
    (tsPacket p pusi body w).st.build = w.st.build := by simp [tsPacket_eq]

@[simp] theorem injectTables_build (w : Work) : (injectTables w).st.build = w.st.build := by
  unfold injectTables
  split <;> simp

@[simp] theorem advanceCadence_build (w : Work) : (advanceCadence w).st.build = w.st.build := rfl

@[simp] theorem wrapPayload_build (data : Bytes) (w : Work) :
    (wrapPayload data w).st.build = w.st.build := by
  rw [wrapPayload, foldl_build (fun w body => tsPacket_build .es false body w), tsPacket_build]

@[simp] theorem Work.offer_build (w : Work) (i : Nat) (urgent : Bool) (d : Bytes) :
    (w.offer i urgent d).st.build = w.st.build := by
  rw [Work.offer_eq]
  split <;> rfl

@[simp] theorem sendFrameA_build (tag : Byte) (f : Bytes) (base : Nat) (w : Work) :
    (sendFrameA tag f base w).st.build = w.st.build := by
  rw [sendFrameA_eq, advanceId_build]
  exact foldl_build (fun _ _ => Work.offer_build ..) _ w

@[simp] theorem sendDatagramB_build (ts : BitVec 64) (c : Nat) (f : Bytes) (w : Work) (i : Nat) :
    (sendDatagramB ts c f w i).st.build = w.st.build := by simp [sendDatagramB]

@[simp] theorem fragSendA_build (tag : Byte) (f : Bytes) (s : State) :
    (fragSendA tag f s).build = s.build := by
  unfold fragSendA
  split_ifs <;> simp

@[simp] theorem fragSendB_build (ts : BitVec 64) (f : Bytes) (s : State) :
    (fragSendB ts f s).build = s.build := by
  unfold fragSendB
  split_ifs
  · simp
  · rw [Work.finish_build, foldl_build (sendDatagramB_build ts _ f), State.begin_st]

@[simp] theorem resendUnit_build (unit : Option Bytes) (tag : Byte) (base : Nat) (w : Work) :
    (resendUnit unit tag base w).st.build = w.st.build := by
  cases unit with
  | none => rfl
  | some f =>
    simp only [resendUnit]
    split_ifs <;> simp

@[simp] theorem storeInto_build (h : ChunkHeader) (e : Entry) (s : State) :
    (storeInto h e s).build = s.build := by
  simp only [storeInto]
  split_ifs <;> simp

@[simp] theorem receiveChunk_build (h : ChunkHeader) (s : State) :
    (receiveChunk h s).build = s.build := by
  unfold receiveChunk
  cases mapGet h.fid s.rxTable with
  | some e => simp
  | none =>
    simp only
    split_ifs <;> simp

theorem setVariant_build {value : BitVec 32} {s t : State} (h : setVariant value s = some t) :
    t.build = s.build := by
  unfold setVariant at h
  split at h
  · split at h <;> cases h <;> rfl
  · cases h

theorem csrSet_build {csr : Byte} {value : BitVec 32} {s t : State} (h : csrSet csr value s = some t) :
    t.build = s.build := by
  unfold csrSet at h
  split at h
  · exact setVariant_build h
  · cases h; rfl
  · split_ifs at h; cases h; rfl
  · split_ifs at h; cases h; rfl
  · split_ifs at h; cases h; rfl
  · split_ifs at h; cases h; rfl
  · cases h

/-! ## Every command -/

theorem execTsWrap_build (data : Bytes) (s : State) :
    ∃ t, execTsWrap data s = .next t ∧ t.build = s.build := by
  refine ⟨_, rfl, ?_⟩
  split_ifs <;> simp

theorem execFragSend_build (tag : Byte) (ts : BitVec 64) (f : Bytes) (s : State) :
    ∃ t, execFragSend tag ts f s = .next t ∧ t.build = s.build := by
  refine ⟨_, rfl, ?_⟩
  split_ifs
  · simp
  · cases s.cfg.fragVariant <;> simp

theorem execFragRefresh_build (s : State) :
    ∃ t, execFragRefresh s = .next t ∧ t.build = s.build := by
  refine ⟨_, rfl, ?_⟩
  split_ifs <;> simp

theorem execRxPacket_build (d : Bytes) (s : State) :
    ∃ t, execRxPacket d s = .next t ∧ t.build = s.build := by
  refine ⟨_, rfl, ?_⟩
  cases s.cfg.fragVariant with
  | unset => simp
  | a => simp only; split_ifs <;> simp
  | b => simp only; split_ifs <;> simp

theorem execRxPop_build (s : State) : ∃ t, execRxPop s = .next t ∧ t.build = s.build := by
  refine ⟨_, rfl, ?_⟩
  cases s.outq <;> rfl

theorem execCfgWrite_build (csr : Byte) (value : BitVec 32) (s : State) :
    ∃ t, execCfgWrite csr value s = .next t ∧ t.build = s.build := by
  refine ⟨_, rfl, ?_⟩
  cases h : csrSet csr value s with
  | none => simp
  | some s' => simpa using csrSet_build h

theorem execCsrRead_build (csr : Byte) (s : State) :
    ∃ t, execCsrRead csr s = .next t ∧ t.build = s.build := by
  refine ⟨_, rfl, ?_⟩
  cases csrGet csr s <;> simp

/-- Every command answers a next state, with the build parameters as they were (R9, R38, R270). -/
theorem exec_next_build (i : Instr) (s : State) : ∃ t, exec i s = .next t ∧ t.build = s.build := by
  cases i with
  | addTimestamp v => exact ⟨_, rfl, appendItem_build ..⟩
  | addRoll x => exact ⟨_, rfl, appendFixed_build ..⟩
  | addPitch x => exact ⟨_, rfl, appendFixed_build ..⟩
  | addHeading x => exact ⟨_, rfl, appendFixed_build ..⟩
  | addLatitude x => exact ⟨_, rfl, appendFixed_build ..⟩
  | addLongitude x => exact ⟨_, rfl, appendFixed_build ..⟩
  | addAltitude x => exact ⟨_, rfl, appendFixed_build ..⟩
  | addHfov x => exact ⟨_, rfl, appendFixed_build ..⟩
  | addVfov x => exact ⟨_, rfl, appendFixed_build ..⟩
  | addGimbalRoll x => exact ⟨_, rfl, appendFixed_build ..⟩
  | addGimbalPitch x => exact ⟨_, rfl, appendFixed_build ..⟩
  | addGimbalYaw x => exact ⟨_, rfl, appendFixed_build ..⟩
  | addSensorWidth w => exact ⟨_, rfl, appendItem_build ..⟩
  | addSensorHeight w => exact ⟨_, rfl, appendItem_build ..⟩
  | addFocalLength w => exact ⟨_, rfl, appendItem_build ..⟩
  | klvPack => exact ⟨_, rfl, rfl⟩
  | klvClear => exact ⟨_, rfl, rfl⟩
  | tsWrap data => exact execTsWrap_build data s
  | fragSend tag ts f => exact execFragSend_build tag ts f s
  | fragRefresh => exact execFragRefresh_build s
  | rxPacket d => exact execRxPacket_build d s
  | rxPop => exact execRxPop_build s
  | cfgWrite csr value => exact execCfgWrite_build csr value s
  | csrRead csr => exact execCsrRead_build csr s
  | reset => exact ⟨_, rfl, rfl⟩

theorem exec_build {i : Instr} {s t : State} (h : exec i s = .next t) : t.build = s.build := by
  obtain ⟨t', hnext, hbuild⟩ := exec_next_build i s
  rw [hnext] at h
  cases h
  exact hbuild

/-! ## The statements -/

/-- Settles O7: the fetch of a decodable command consumes its bytes and latches its answers, and the fetch at
an empty port is idle. -/
theorem stepPerformsTheDecodedCommand : Obligations.StepPerformsTheDecodedCommand :=
  ⟨fun _ _ _ h => step_of_command h, fun _ h => step_of_idle h⟩

/-- Settles O11, by the three things a step can be: idle, an illegal command, a legal command. -/
theorem buildParametersNeverChange : Obligations.BuildParametersNeverChange := by
  intro s t h
  rcases step_cases h with ⟨-, rfl⟩ | ⟨op, rest, -, rfl⟩ | ⟨i, rest, -, hexec⟩
  · rfl
  · simp
  · simpa using exec_build hexec

end Sys2Proof.Machine
end

section
/-! PROOFS. The add commands of `ENCODE_SAMPLE` (spec/00_scope.md R18, spec/30_encoding.md R91). -/

namespace Sys2Proof.Machine

/-- A field's command is there exactly when the field is present, with its value. -/
@[simp] theorem mem_fieldCommand {α : Type} {mk : α → Instr} {field : Option α} {i : Instr} :
    i ∈ fieldCommand mk field ↔ ∃ a, field = some a ∧ mk a = i := by
  simp [fieldCommand]

/-- What is present in a list of optional values, read off one value after the other. -/
theorem filterMap_id_cons {α : Type} (o : Option α) (l : List (Option α)) :
    (o :: l).filterMap id = o.toList ++ l.filterMap id := by cases o <;> simp

/-- The commands of a sample in the order of R91, around given commands of the three position fields. -/
def samplePresent (sample : TelemetrySample) (latitude longitude altitude : Option Instr) : List Instr :=
  [sample.timestamp.map .addTimestamp, latitude, longitude, altitude, sample.roll.map .addRoll,
    sample.pitch.map .addPitch, sample.yaw.map .addHeading, sample.hfov.map .addHfov,
    sample.vfov.map .addVfov, sample.gimbalRoll.map .addGimbalRoll,
    sample.gimbalPitch.map .addGimbalPitch, sample.gimbalYaw.map .addGimbalYaw,
    sample.sensorWidth.map .addSensorWidth, sample.sensorHeight.map .addSensorHeight,
    sample.focalLength.map .addFocalLength].filterMap id

/-- The altitude a policy emits when GPS is not fixed (R91, D14). -/
def GpsPolicy.altitude : GpsPolicy → Option Instr
  | .omit => none
  | .defaultAlt x => some (.addAltitude x)

/-- `ENCODE_SAMPLE` puts its position commands where R91 has the position. -/
theorem sampleCommands_eq_present {policy : GpsPolicy} {sample : TelemetrySample}
    {latitude longitude altitude : Option Instr}
    (h : positionCommands policy sample = latitude.toList ++ longitude.toList ++ altitude.toList) :
    sampleCommands policy sample = samplePresent sample latitude longitude altitude := by
  simp only [sampleCommands, samplePresent, h, fieldCommand, filterMap_id_cons, List.filterMap_nil,
    List.append_assoc, List.append_nil]

theorem sampleCommands_of_fixed (policy : GpsPolicy) {sample : TelemetrySample}
    (h : sample.fixed = true) :
    sampleCommands policy sample =
      samplePresent sample (sample.latitude.map .addLatitude) (sample.longitude.map .addLongitude)
        (sample.altitude.map .addAltitude) :=
  sampleCommands_eq_present (positionCommands_of_fixed policy h)

theorem sampleCommands_of_unfixed (policy : GpsPolicy) {sample : TelemetrySample}
    (h : sample.fixed = false) :
    sampleCommands policy sample = samplePresent sample none none policy.altitude := by
  apply sampleCommands_eq_present
  rw [positionCommands_of_unfixed policy h]
  cases policy <;> rfl

/-- With GPS not fixed the only position command is the policy's altitude. -/
theorem position_mem_of_unfixed (policy : GpsPolicy) {sample : TelemetrySample}
    (h : sample.fixed = false) (x : BitVec 64) :
    .addLatitude x ∉ sampleCommands policy sample ∧ .addLongitude x ∉ sampleCommands policy sample ∧
      (.addAltitude x ∈ sampleCommands policy sample ↔ policy = .defaultAlt x) := by
  rcases policy with _ | y
  · simp [sampleCommands, positionCommands_of_unfixed _ h]
  · simp [sampleCommands, positionCommands_of_unfixed _ h, eq_comm]

/-- Settles O60, by the cases of `gps_fixed`: a sample counts as fixed or as not fixed, and each case has its
own position commands. -/
theorem unfixedGpsEmitsThePolicyAltitudeOnly : Obligations.UnfixedGpsEmitsThePolicyAltitudeOnly := by
  intro policy sample
  refine ⟨fun hgps => ?_, fun hgps => ?_, fun _ => ?_⟩
  · exact sampleCommands_of_fixed policy (TelemetrySample.fixed_of_present hgps)
  · have hfixed := TelemetrySample.fixed_of_present hgps
    refine ⟨?_, position_mem_of_unfixed policy hfixed⟩
    cases policy <;> exact sampleCommands_of_unfixed _ hfixed
  · cases hfixed : sample.fixed with
    | true => exact .inl (sampleCommands_of_fixed policy hfixed)
    | false => exact .inr (by cases policy <;> exact sampleCommands_of_unfixed _ hfixed)

end Sys2Proof.Machine
end

section
/-! PROOFS. Rounding to binary64 and fixed-point scaling (spec/00_scope.md R14): the finite binary64 values
as integer multiples of the least one, the machine's `fl` against `NearestF64`, the machine's `scale` against
`ScalesTo`. -/

namespace Sys2Proof.Machine

/-! ## The finite binary64 values as multiples of the least positive one -/

/-- The least positive binary64, `2^-1074`. -/
def f64Ulp : ℚ := (2 : ℚ) ^ (-1074 : ℤ)

theorem f64Ulp_pos : 0 < f64Ulp := zpow_pos (by norm_num) _

theorem two_pow_mul_f64Ulp (n : ℕ) : (2 : ℚ) ^ n * f64Ulp = (2 : ℚ) ^ ((n : ℤ) - 1074) := by
  rw [f64Ulp, ← zpow_natCast, ← zpow_add₀ (by norm_num), sub_eq_add_neg]

theorem two_pow_add_mul_f64Ulp (n : ℕ) : (2 : ℚ) ^ (n + 1074) * f64Ulp = 2 ^ n := by
  rw [two_pow_mul_f64Ulp, Nat.cast_add, Nat.cast_ofNat, add_sub_cancel_right, zpow_natCast]

/-- The exponent of the unit a significand counts, above that of `f64Ulp`. -/
def f64Scale (x : BitVec 64) : ℕ := max (f64Exp x) 1 - 1

theorem f64Mant_lt (x : BitVec 64) : f64Mant x < 2 ^ 53 := by
  have hfrac : f64Frac x < 2 ^ 52 := Nat.mod_lt _ (by norm_num)
  unfold f64Mant
  split <;> omega

/-- A finite binary64 is plus or minus its significand in its unit (R78). -/
theorem f64Rat_eq_mant_mul (x : BitVec 64) :
    f64Rat x = (if x.msb then -1 else 1) * f64Mant x * (2 ^ f64Scale x * f64Ulp) := by
  by_cases he : f64Exp x = 0
  · simp [f64Rat, f64Mant, f64Scale, he, f64Ulp]
  · have hunit : (2 : ℚ) ^ ((f64Exp x : ℤ) - 1023) = 2 ^ 52 * (2 ^ f64Scale x * f64Ulp) := by
      rw [← mul_assoc, ← pow_add, two_pow_mul_f64Ulp]
      congr 1
      rw [f64Scale]
      omega
    rw [f64Rat, if_neg he, hunit, f64Mant, if_neg he]
    push_cast
    field_simp
    ring

/-- Against any unit, a binary64 is a multiple of it or lies below `2^52` of it. -/
theorem f64Rat_multiple_or_lt (z : BitVec 64) (c : ℕ) :
    (∃ j : ℤ, f64Rat z = j * (2 ^ c * f64Ulp)) ∨ |f64Rat z| < 2 ^ 52 * (2 ^ c * f64Ulp) := by
  have hulp := f64Ulp_pos
  rcases Nat.lt_or_ge (f64Scale z) c with hc | hc
  · right
    have hsign : |(if z.msb then -1 else 1 : ℚ)| = 1 := by split <;> simp
    have hmant : (f64Mant z : ℚ) < 2 ^ 53 := by exact_mod_cast f64Mant_lt z
    have hpow : (2 : ℚ) * 2 ^ f64Scale z ≤ 2 ^ c := by
      rw [← pow_succ']
      exact pow_le_pow_right₀ (by norm_num) hc
    rw [f64Rat_eq_mant_mul, abs_mul, abs_mul, hsign, one_mul, Nat.abs_cast,
      abs_of_pos (by positivity : (0 : ℚ) < 2 ^ f64Scale z * f64Ulp)]
    calc (f64Mant z : ℚ) * (2 ^ f64Scale z * f64Ulp)
        < 2 ^ 53 * (2 ^ f64Scale z * f64Ulp) := mul_lt_mul_of_pos_right hmant (by positivity)
      _ = 2 ^ 52 * ((2 * 2 ^ f64Scale z) * f64Ulp) := by ring
      _ ≤ 2 ^ 52 * (2 ^ c * f64Ulp) := by gcongr
  · left
    obtain ⟨d, hd⟩ := Nat.exists_eq_add_of_le hc
    refine ⟨(if z.msb then -1 else 1) * f64Mant z * 2 ^ d, ?_⟩
    rw [f64Rat_eq_mant_mul, hd, pow_add]
    push_cast
    ring

/-! ## Building a binary64 -/

/-- The binary64 of a sign and the 63 bits below it. -/
def f64OfBits (neg : Bool) (bits : ℕ) : BitVec 64 := BitVec.ofNat 64 ((if neg then 2 ^ 63 else 0) + bits)

section
variable (neg : Bool) {bits : ℕ} (h : bits < 2 ^ 63)
include h

theorem f64OfBits_toNat : (f64OfBits neg bits).toNat = (if neg then 2 ^ 63 else 0) + bits := by
  rw [f64OfBits, BitVec.toNat_ofNat]
  apply Nat.mod_eq_of_lt
  split <;> omega

theorem f64OfBits_msb : (f64OfBits neg bits).msb = neg := by
  rw [BitVec.msb_eq_decide, f64OfBits_toNat neg h]
  cases neg
  · simpa using h
  · simp

theorem f64OfBits_exp : f64Exp (f64OfBits neg bits) = bits / 2 ^ 52 := by
  rw [f64Exp, f64OfBits_toNat neg h]
  split <;> omega

theorem f64OfBits_frac : f64Frac (f64OfBits neg bits) = bits % 2 ^ 52 := by
  rw [f64Frac, f64OfBits_toNat neg h]
  split <;> omega

end

/-- The bits `a * 2^52 + m` stand for `m` units of exponent `a`, also where `m` is the power of two that
carries into the exponent. -/
theorem f64OfBits_mant_mul {neg : Bool} {m a : ℕ} (hm : m ≤ 2 ^ 53)
    (hrange : a * 2 ^ 52 + m < 2047 * 2 ^ 52) (hcanon : a = 0 ∨ 2 ^ 52 ≤ m) :
    f64Mant (f64OfBits neg (a * 2 ^ 52 + m)) * 2 ^ f64Scale (f64OfBits neg (a * 2 ^ 52 + m)) =
      m * 2 ^ a := by
  have hbits : a * 2 ^ 52 + m < 2 ^ 63 := by omega
  rw [f64Mant, f64Scale, f64OfBits_exp neg hbits, f64OfBits_frac neg hbits]
  rcases Nat.lt_or_ge m (2 ^ 52) with hsub | hnorm
  · have ha0 : a = 0 := by omega
    subst ha0
    rw [zero_mul, zero_add, Nat.div_eq_of_lt hsub, Nat.mod_eq_of_lt hsub]
    rfl
  · rcases Nat.lt_or_ge m (2 ^ 53) with hlt | hge
    · have hexp : (a * 2 ^ 52 + m) / 2 ^ 52 = a + 1 := by omega
      have hfrac : 2 ^ 52 + (a * 2 ^ 52 + m) % 2 ^ 52 = m := by omega
      rw [hexp, if_neg (by omega), hfrac, Nat.max_eq_left (by omega), Nat.add_sub_cancel]
    · have hm53 : m = 2 ^ 53 := by omega
      have hexp : (a * 2 ^ 52 + m) / 2 ^ 52 = a + 2 := by omega
      have hfrac : 2 ^ 52 + (a * 2 ^ 52 + m) % 2 ^ 52 = 2 ^ 52 := by omega
      rw [hexp, if_neg (by omega), hfrac, Nat.max_eq_left (by omega), hm53]
      show 2 ^ 52 * 2 ^ (a + 1) = 2 ^ 53 * 2 ^ a
      ring

/-- A significand of `n` bits below the top keeps its exponent below that of the finite range. -/
theorem exponent_lt_of_lt {n m a : ℕ} (hn : 2 ^ n ≤ m) (hlt : (m : ℚ) * (2 ^ a * f64Ulp) < 2 ^ 1024) :
    n + a < 1024 + 1074 := by
  have hulp := f64Ulp_pos
  have hnq : (2 : ℚ) ^ n ≤ m := by exact_mod_cast hn
  have h : (2 : ℚ) ^ (n + a) * f64Ulp < 2 ^ (1024 + 1074) * f64Ulp :=
    calc (2 : ℚ) ^ (n + a) * f64Ulp = 2 ^ n * (2 ^ a * f64Ulp) := by rw [pow_add, mul_assoc]
      _ ≤ m * (2 ^ a * f64Ulp) := by gcongr
      _ < 2 ^ 1024 := hlt
      _ = 2 ^ (1024 + 1074) * f64Ulp := (two_pow_add_mul_f64Ulp 1024).symm
  exact (pow_lt_pow_iff_right₀ (by norm_num : (1 : ℚ) < 2)).1 (lt_of_mul_lt_mul_right h hulp.le)

/-- A normalised significand in the finite range, or one of the least exponent, is a binary64, whose fraction
has the significand's parity. -/
theorem exists_f64_of_canonical (neg : Bool) {m a : ℕ} (hm : m ≤ 2 ^ 53) (hcanon : a = 0 ∨ 2 ^ 52 ≤ m)
    (hlt : (m : ℚ) * (2 ^ a * f64Ulp) < 2 ^ 1024) :
    ∃ y, f64Finite y = true ∧ f64Rat y = (if neg then -1 else 1) * m * (2 ^ a * f64Ulp) ∧
      f64Frac y % 2 = m % 2 := by
  have hrange : a * 2 ^ 52 + m < 2047 * 2 ^ 52 := by
    rcases hcanon with rfl | hnorm
    · omega
    · have ha := exponent_lt_of_lt hnorm hlt
      rcases Nat.lt_or_ge m (2 ^ 53) with hlow | hcarry
      · omega
      · have hb := exponent_lt_of_lt hcarry hlt
        omega
  have hbits : a * 2 ^ 52 + m < 2 ^ 63 := by omega
  refine ⟨f64OfBits neg (a * 2 ^ 52 + m), ?_, ?_, ?_⟩
  · rw [f64Finite, f64OfBits_exp neg hbits, bne_iff_ne]
    omega
  · have hmul : (f64Mant (f64OfBits neg (a * 2 ^ 52 + m)) : ℚ) *
        2 ^ f64Scale (f64OfBits neg (a * 2 ^ 52 + m)) = m * 2 ^ a := by
      exact_mod_cast f64OfBits_mant_mul hm hrange hcanon
    rw [f64Rat_eq_mant_mul, f64OfBits_msb neg hbits, mul_assoc, ← mul_assoc (f64Mant _ : ℚ), hmul]
    ring
  · rw [f64OfBits_frac neg hbits]
    omega

/-- Every significand of at most 53 bits (or `2^53`) in the finite range is a binary64: doubled until it is
normalised or its exponent is the least. -/
theorem exists_f64_of_mant (neg : Bool) {m a : ℕ} (hm : m ≤ 2 ^ 53)
    (hlt : (m : ℚ) * (2 ^ a * f64Ulp) < 2 ^ 1024) :
    ∃ y, f64Finite y = true ∧ f64Rat y = (if neg then -1 else 1) * m * (2 ^ a * f64Ulp) ∧
      (2 ^ 52 ≤ m → f64Frac y % 2 = m % 2) := by
  induction a generalizing m with
  | zero =>
    obtain ⟨y, hfin, hval, hfrac⟩ := exists_f64_of_canonical neg hm (.inl rfl) hlt
    exact ⟨y, hfin, hval, fun _ => hfrac⟩
  | succ a ih =>
    rcases Nat.lt_or_ge m (2 ^ 52) with hsmall | hnorm
    · have hdouble : (m : ℚ) * (2 ^ (a + 1) * f64Ulp) = (2 * m : ℕ) * (2 ^ a * f64Ulp) := by
        push_cast
        ring
      obtain ⟨y, hfin, hval, -⟩ := ih (m := 2 * m) (by omega) (hdouble ▸ hlt)
      refine ⟨y, hfin, ?_, fun h => absurd h (by omega)⟩
      rw [hval, mul_assoc, mul_assoc, hdouble]
    · obtain ⟨y, hfin, hval, hfrac⟩ := exists_f64_of_canonical neg hm (.inr hnorm) hlt
      exact ⟨y, hfin, hval, fun _ => hfrac⟩

/-! ## The nearest integer, compared with other integers -/

section
variable {tie : Tie} {q : ℚ} {v : ℤ}

theorem one_le_abs_sub_add_abs_sub {j : ℤ} (hne : j ≠ v) : 1 ≤ |q - v| + |q - j| := by
  have hint : (1 : ℚ) ≤ |((j - v : ℤ) : ℚ)| := by exact_mod_cast Int.one_le_abs (sub_ne_zero.2 hne)
  calc (1 : ℚ) ≤ |((j - v : ℤ) : ℚ)| := hint
    _ = |(q - v) - (q - j)| := by push_cast; congr 1; ring
    _ ≤ |q - v| + |q - j| := abs_sub _ _

theorem NearestInt.abs_sub_le (h : NearestInt tie q v) (j : ℤ) : |q - v| ≤ |q - j| := by
  by_cases hj : j = v
  · rw [hj]
  · have hhalf := h.1
    have hsum := one_le_abs_sub_add_abs_sub (q := q) hj
    linarith

theorem NearestInt.even_of_tie (h : NearestInt .even q v) {j : ℤ} (hne : j ≠ v)
    (heq : |q - j| = |q - v|) : v % 2 = 0 := by
  have hhalf := h.1
  have hsum := one_le_abs_sub_add_abs_sub (q := q) hne
  exact h.2 (by linarith)

theorem NearestInt.abs_abs_sub_le (h : NearestInt tie q v) : |(|q| - |(v : ℚ)|)| ≤ 1 / 2 :=
  (abs_abs_sub_abs_le q v).trans h.1

theorem NearestInt.abs_le_of_abs_lt (h : NearestInt tie q v) {n : ℤ} (hq : |q| < n) : |v| ≤ n := by
  have hclose := (abs_le.1 h.abs_abs_sub_le).1
  have hlt : ((|v| : ℤ) : ℚ) < ((n + 1 : ℤ) : ℚ) := by push_cast; linarith
  exact Int.lt_add_one_iff.1 (by exact_mod_cast hlt)

theorem NearestInt.le_abs_of_le_abs (h : NearestInt tie q v) {n : ℤ} (hq : n ≤ |q|) : n ≤ |v| := by
  have hclose := (abs_le.1 h.abs_abs_sub_le).2
  have hlt : ((n : ℤ) : ℚ) < ((|v| + 1 : ℤ) : ℚ) := by push_cast; linarith
  exact Int.lt_add_one_iff.1 (by exact_mod_cast hlt)

/-- Half way above an odd integer is rounded up in magnitude: where rounding reaches an even bound. -/
theorem NearestInt.succ_le_abs_iff (h : NearestInt .even q v) {n : ℤ} (hodd : n % 2 = 1) :
    n + 1 ≤ |v| ↔ (n : ℚ) + 1 / 2 ≤ |q| := by
  obtain ⟨hlow, hhigh⟩ := abs_le.1 h.abs_abs_sub_le
  constructor
  · intro hv
    have : ((n + 1 : ℤ) : ℚ) ≤ ((|v| : ℤ) : ℚ) := by exact_mod_cast hv
    push_cast at this
    linarith
  · intro hq
    have hn : n ≤ |v| := by
      have : (n : ℚ) ≤ ((|v| : ℤ) : ℚ) := by push_cast; linarith
      exact_mod_cast this
    refine lt_of_le_of_ne hn fun heq => ?_
    have hcast : (n : ℚ) = |(v : ℚ)| := by exact_mod_cast heq
    have hfar : 1 / 2 ≤ |q - v| := by
      have := abs_sub_abs_le_abs_sub q (v : ℚ)
      linarith
    have heven : v % 2 = 0 := h.2 (le_antisymm h.1 hfar)
    rcases abs_choice v with habs | habs <;> omega

end

/-! ## The nearest binary64 -/

theorem nearestF64_of_eq {q : ℚ} {y : BitVec 64} (hfin : f64Finite y = true) (hval : f64Rat y = q) :
    NearestF64 q y := by
  subst hval
  refine ⟨hfin, fun z _ => by simp, fun z _ hne heq => ?_⟩
  rw [sub_self, abs_zero, abs_eq_zero, sub_eq_zero] at heq
  exact absurd heq.symm hne

/-- A normalised significand that is the nearest integer, ties to even, gives the nearest binary64: the
binary64 values next to it are the multiples of the same unit. -/
theorem nearestF64_of_signif {q : ℚ} {v : ℤ} {c : ℕ} {y : BitVec 64} (hv : NearestInt .even q v)
    (hnorm : 2 ^ 52 ≤ |q|) (hfin : f64Finite y = true) (hval : f64Rat y = v * (2 ^ c * f64Ulp))
    (heven : v % 2 = 0 → f64Frac y % 2 = 0) : NearestF64 (q * (2 ^ c * f64Ulp)) y := by
  obtain ⟨u, hu⟩ : ∃ u, u = (2 : ℚ) ^ c * f64Ulp := ⟨_, rfl⟩
  have hpos : 0 < u := hu ▸ mul_pos (by positivity) f64Ulp_pos
  have hdist (j : ℤ) : |q * u - j * u| = |q - j| * u := by
    rw [← sub_mul, abs_mul, abs_of_pos hpos]
  have hbelow {z : ℚ} (hz : |z| < 2 ^ 52 * u) : |q * u - v * u| < |q * u - z| := by
    have hbound : |q - v| ≤ |q| - 2 ^ 52 := by
      rcases abs_cases q with ⟨habs, -⟩ | ⟨habs, -⟩
      · refine (hv.abs_sub_le (2 ^ 52)).trans_eq ?_
        push_cast
        rw [abs_of_nonneg] <;> linarith
      · refine (hv.abs_sub_le (-2 ^ 52)).trans_eq ?_
        push_cast
        rw [abs_of_nonpos] <;> linarith
    calc |q * u - v * u| = |q - v| * u := hdist v
      _ ≤ (|q| - 2 ^ 52) * u := mul_le_mul_of_nonneg_right hbound hpos.le
      _ = |q * u| - 2 ^ 52 * u := by rw [abs_mul, abs_of_pos hpos]; ring
      _ < |q * u| - |z| := by linarith
      _ ≤ |q * u - z| := abs_sub_abs_le_abs_sub _ _
  rw [← hu] at hval ⊢
  refine ⟨hfin, fun z _ => ?_, fun z _ hne heq => heven ?_⟩
  · rw [hval]
    rcases f64Rat_multiple_or_lt z c with ⟨j, hj⟩ | hlt
    · rw [hj, ← hu, hdist, hdist]
      exact mul_le_mul_of_nonneg_right (hv.abs_sub_le j) hpos.le
    · exact (hbelow (hu ▸ hlt)).le
  · rw [hval] at hne heq
    rcases f64Rat_multiple_or_lt z c with ⟨j, hj⟩ | hlt
    · rw [hj, ← hu] at hne heq
      rw [hdist, hdist] at heq
      exact hv.even_of_tie (fun h => hne (by rw [h])) (mul_right_cancel₀ hpos.ne' heq)
    · exact absurd heq (hbelow (hu ▸ hlt)).ne'

/-! ## The machine's `fl` -/

/-- How many low bits of the numerator `fl` rounds away. -/
def Dyad.drop (q : Dyad) : ℕ := Nat.log2 q.num.natAbs - 52

/-- The significand before rounding. -/
def Dyad.quot (q : Dyad) : Dyad := { num := q.num, sh := q.drop }

/-- The significand `fl` rounds to. -/
def Dyad.signif (q : Dyad) : ℤ := rnd .even q.quot

/-- What one unit of the significand counts. -/
def Dyad.unit (q : Dyad) : ℚ := 2 ^ q.drop / 2 ^ q.sh

theorem Dyad.unit_pos (q : Dyad) : 0 < q.unit := by unfold Dyad.unit; positivity

theorem Dyad.rat_eq_quot (q : Dyad) : q.rat = q.quot.rat * q.unit := by
  simp only [Dyad.rat, Dyad.quot, Dyad.unit]
  field_simp

theorem Dyad.signif_nearest (q : Dyad) : NearestInt .even q.quot.rat q.signif := rnd_nearest .even q.quot

theorem Dyad.abs_rat (q : Dyad) : |q.rat| = (q.num.natAbs : ℚ) / 2 ^ q.sh := by
  rw [Dyad.rat, abs_div, abs_of_pos (by positivity : (0 : ℚ) < 2 ^ q.sh), Nat.cast_natAbs, Int.cast_abs]

theorem Dyad.abs_quot (q : Dyad) : |q.quot.rat| = (q.num.natAbs : ℚ) / 2 ^ q.drop := q.quot.abs_rat

theorem Dyad.abs_quot_lt (q : Dyad) : |q.quot.rat| < 2 ^ 53 := by
  rw [q.abs_quot, div_lt_iff₀ (by positivity), ← pow_add]
  have hlog : q.num.natAbs < 2 ^ (Nat.log2 q.num.natAbs + 1) := Nat.lt_log2_self
  have hpow : 2 ^ (Nat.log2 q.num.natAbs + 1) ≤ 2 ^ (53 + q.drop) :=
    Nat.pow_le_pow_right (by norm_num) (by unfold Dyad.drop; omega)
  exact_mod_cast lt_of_lt_of_le hlog hpow

theorem Dyad.le_abs_quot {q : Dyad} (h : q.drop ≠ 0) : 2 ^ 52 ≤ |q.quot.rat| := by
  have hne : q.num.natAbs ≠ 0 := by
    intro h0
    simp [Dyad.drop, h0] at h
  have hexp : 52 + q.drop = Nat.log2 q.num.natAbs := by unfold Dyad.drop at h ⊢; omega
  rw [q.abs_quot, le_div_iff₀ (by positivity), ← pow_add, hexp]
  exact_mod_cast Nat.log2_self_le hne

theorem Dyad.abs_signif_le (q : Dyad) : |q.signif| ≤ 2 ^ 53 :=
  q.signif_nearest.abs_le_of_abs_lt (by exact_mod_cast q.abs_quot_lt)

theorem Dyad.le_abs_signif {q : Dyad} (h : q.drop ≠ 0) : 2 ^ 52 ≤ |q.signif| :=
  q.signif_nearest.le_abs_of_le_abs (by exact_mod_cast Dyad.le_abs_quot h)

/-- Nothing is rounded away from a numerator of at most 53 bits. -/
theorem Dyad.signif_eq_quot {q : Dyad} (h : q.drop = 0) : (q.signif : ℚ) = q.quot.rat := by
  have hquot : q.quot.rat = (q.num : ℚ) := by simp [Dyad.quot, Dyad.rat, h]
  have hle := q.signif_nearest.abs_sub_le q.num
  rw [hquot, sub_self, abs_zero, abs_nonpos_iff, sub_eq_zero] at hle
  rw [hquot, hle]

/-- The value of the significand `fl` rounds to. -/
def Dyad.rounded (q : Dyad) : Dyad := { num := q.signif * ((2 ^ q.drop : ℕ) : ℤ), sh := q.sh }

theorem Dyad.rounded_rat (q : Dyad) : q.rounded.rat = q.signif * q.unit := by
  simp only [Dyad.rounded, Dyad.rat, Dyad.unit]
  push_cast
  ring

theorem fl_eq (q : Dyad) :
    fl q = if 1024 + q.sh ≤ Nat.log2 q.rounded.num.natAbs then none else some q.rounded := rfl

/-- The machine's test for the finite range compares the rounded value with `2^1024`. -/
theorem Dyad.le_log2_num_iff (p : Dyad) : 1024 + p.sh ≤ Nat.log2 p.num.natAbs ↔ 2 ^ 1024 ≤ |p.rat| := by
  have hnat : (2 : ℚ) ^ (1024 + p.sh) ≤ p.num.natAbs ↔ 2 ^ (1024 + p.sh) ≤ p.num.natAbs := by norm_cast
  rw [p.abs_rat, le_div_iff₀ (by positivity), ← pow_add, hnat]
  by_cases h0 : p.num.natAbs = 0
  · simp [h0]
  · exact Nat.le_log2 h0

/-- The finite range ends at `2^53` of the unit of the largest values. -/
theorem two_pow_range : (2 : ℚ) ^ 1024 = 2 ^ 53 * 2 ^ 971 := by rw [← pow_add]

theorem f64Beyond_eq : f64Beyond = (2 ^ 53 - 1 / 2) * 2 ^ 971 := by
  have hstep : (2 : ℚ) ^ 971 = 2 * 2 ^ 970 := by rw [← pow_succ']
  rw [f64Beyond, two_pow_range, hstep]
  generalize (2 : ℚ) ^ 970 = b
  ring

/-- The unit against that of the largest binary64 values. -/
theorem Dyad.unit_cases (q : Dyad) :
    (q.drop < 971 + q.sh ∧ 2 * q.unit ≤ 2 ^ 971) ∨ (q.drop = 971 + q.sh ∧ q.unit = 2 ^ 971) ∨
      (971 + q.sh < q.drop ∧ 2 * 2 ^ 971 ≤ q.unit) := by
  have hsh : (0 : ℚ) < 2 ^ q.sh := by positivity
  unfold Dyad.unit
  rcases lt_trichotomy q.drop (971 + q.sh) with h | h | h
  · refine .inl ⟨h, ?_⟩
    rw [← mul_div_assoc, div_le_iff₀ hsh, ← pow_succ', ← pow_add]
    exact pow_le_pow_right₀ (by norm_num) h
  · refine .inr (.inl ⟨h, ?_⟩)
    rw [h, pow_add, mul_div_assoc, div_self hsh.ne', mul_one]
  · refine .inr (.inr ⟨h, ?_⟩)
    rw [le_div_iff₀ hsh, mul_assoc, ← pow_add, ← pow_succ']
    exact pow_le_pow_right₀ (by norm_num) h

theorem fl_eq_none_iff_rounded (q : Dyad) :
    fl q = none ↔ 2 ^ 53 * 2 ^ 971 ≤ |(q.signif : ℚ)| * q.unit := by
  have habs : |q.rounded.rat| = |(q.signif : ℚ)| * q.unit := by
    rw [q.rounded_rat, abs_mul, abs_of_pos q.unit_pos]
  rw [fl_eq, ← two_pow_range, ← habs, ← Dyad.le_log2_num_iff]
  exact ite_eq_left_iff.trans (by simp [Dyad.rounded])

/-- `fl` leaves the finite range exactly for the magnitudes from `f64Beyond` on (R14, log entry 8). -/
theorem fl_eq_none_iff (q : Dyad) : fl q = none ↔ f64Beyond ≤ |q.rat| := by
  have hpos := q.unit_pos
  have hsignif : |(q.signif : ℚ)| ≤ 2 ^ 53 := by exact_mod_cast q.abs_signif_le
  have hquot := q.abs_quot_lt
  rw [fl_eq_none_iff_rounded, f64Beyond_eq, q.rat_eq_quot, abs_mul, abs_of_pos hpos]
  have hcases := q.unit_cases
  have hB : (0 : ℚ) < 2 ^ 971 := by positivity
  generalize (2 : ℚ) ^ 971 = B at hcases hB ⊢
  rcases hcases with ⟨-, hunit⟩ | ⟨-, hunit⟩ | ⟨hdrop, hunit⟩
  · refine iff_of_false ?_ ?_ <;> nlinarith
  · have hodd := q.signif_nearest.succ_le_abs_iff (n := 2 ^ 53 - 1) (by norm_num)
    have hreach : (2 : ℚ) ^ 53 ≤ |(q.signif : ℚ)| ↔ 2 ^ 53 - 1 + 1 ≤ |q.signif| := by
      rw [sub_add_cancel]
      exact_mod_cast Iff.rfl
    have hhalf : ((2 ^ 53 - 1 : ℤ) : ℚ) + 1 / 2 = 2 ^ 53 - 1 / 2 := by norm_num
    rw [hunit, mul_le_mul_iff_left₀ hB, mul_le_mul_iff_left₀ hB, hreach, hodd, hhalf]
  · have hnorm : (2 : ℚ) ^ 52 ≤ |q.quot.rat| := Dyad.le_abs_quot (by omega)
    have hsnorm : (2 : ℚ) ^ 52 ≤ |(q.signif : ℚ)| := by
      exact_mod_cast Dyad.le_abs_signif (q := q) (by omega)
    refine iff_of_true ?_ ?_ <;> nlinarith

theorem eq_rounded_of_fl {q p : Dyad} (h : fl q = some p) : p = q.rounded := by
  rw [fl_eq] at h
  split_ifs at h
  exact (Option.some.inj h).symm

/-- The unit as a power of two of the least binary64, which it is where the denominator is no finer. -/
theorem Dyad.unit_eq_f64Ulp {q : Dyad} (hsh : q.sh ≤ 1074) :
    q.unit = 2 ^ (q.drop + (1074 - q.sh)) * f64Ulp := by
  rw [two_pow_mul_f64Ulp, Dyad.unit, ← zpow_natCast, ← zpow_natCast, ← zpow_sub₀ (by norm_num)]
  congr 1
  omega

theorem ite_neg_one_mul_natAbs (v : ℤ) :
    ((if decide (v < 0) then -1 else 1 : ℚ)) * (v.natAbs : ℚ) = v := by
  rw [Nat.cast_natAbs]
  by_cases hneg : v < 0
  · simp [hneg, abs_of_neg hneg]
  · simp [hneg, abs_of_nonneg (not_lt.1 hneg)]

/-- A result of `fl` is the nearest binary64 (R14). -/
theorem exists_nearestF64_of_fl {q p : Dyad} (hsh : q.sh ≤ 1074) (h : fl q = some p) :
    ∃ y, NearestF64 q.rat y ∧ f64Rat y = p.rat := by
  have hp : p = q.rounded := eq_rounded_of_fl h
  have hunit := Dyad.unit_eq_f64Ulp hsh
  have hrange : (q.signif.natAbs : ℚ) * q.unit < 2 ^ 1024 := by
    rw [Nat.cast_natAbs, Int.cast_abs, two_pow_range, ← not_le, ← fl_eq_none_iff_rounded, h]
    simp
  obtain ⟨y, hfin, hval, hfrac⟩ :=
    exists_f64_of_mant (decide (q.signif < 0)) (m := q.signif.natAbs)
      (by have := q.abs_signif_le; rw [Int.abs_eq_natAbs] at this; omega) (hunit ▸ hrange)
  rw [ite_neg_one_mul_natAbs] at hval
  refine ⟨y, ?_, by rw [hval, hp, q.rounded_rat, hunit]⟩
  by_cases hdrop : q.drop = 0
  · exact nearestF64_of_eq hfin (by rw [hval, q.rat_eq_quot, Dyad.signif_eq_quot hdrop, hunit])
  · rw [q.rat_eq_quot, hunit]
    refine nearestF64_of_signif q.signif_nearest (Dyad.le_abs_quot hdrop) hfin hval fun heven => ?_
    have hnorm := Dyad.le_abs_signif hdrop
    rw [Int.abs_eq_natAbs] at hnorm
    rw [hfrac (by omega)]
    omega

/-! ## Scaling -/

theorem f64Val_sh_le (x : BitVec 64) : (f64Val x).sh ≤ 1074 := by
  simp only [f64Val]
  split_ifs <;> simp <;> omega

theorem f64Max_pos : 0 < f64Max := by
  unfold f64Max
  exact Nat.mul_pos (Nat.sub_pos_of_lt (by norm_num)) (pow_pos two_pos _)

theorem f64Beyond_pos : 0 < f64Beyond := by
  rw [f64Beyond_eq]
  exact mul_pos (by norm_num) (pow_pos two_pos _)

theorem Dyad.num_neg_iff (q : Dyad) : q.num < 0 ↔ q.rat < 0 := by
  rw [Dyad.rat, div_lt_iff₀ (by positivity), zero_mul, Int.cast_lt_zero]

/-- Scaling under `SCALE_MODE = binary64`: two roundings in the finite range, the free value with the
product's sign beyond it (R14, log entry 8). -/
theorem rndFl_scaledFrom {b : Build} {x : BitVec 64} {k : ℕ} {q : Dyad} (hmode : b.scaleMode = .binary64)
    (hsh : q.sh ≤ 1074) : ScaledFrom b q.rat (rndFl b.tie x k q) := by
  simp only [ScaledFrom, hmode]
  cases hfl : fl q with
  | some p =>
    have hfinite : |q.rat| < f64Beyond := by
      rw [← not_le, ← fl_eq_none_iff, hfl]
      simp
    obtain ⟨y, hy, hval⟩ := exists_nearestF64_of_fl hsh hfl
    rw [if_pos hfinite]
    refine ⟨y, hy, ?_⟩
    simp only [rndFl, hfl, hval]
    exact rnd_nearest b.tie p
  | none =>
    have hbeyond : f64Beyond ≤ |q.rat| := (fl_eq_none_iff q).1 hfl
    have hmax := f64Max_pos
    obtain ⟨n, hn⟩ : ∃ n, n = f64Max + Config.freeScaleExcess x k := ⟨_, rfl⟩
    rw [if_neg (not_lt.2 hbeyond)]
    simp only [rndFl, hfl, ← hn]
    by_cases hneg : q.num < 0
    · have hq : ¬ 0 < q.rat := (q.num_neg_iff.1 hneg).le.not_gt
      rw [if_pos hneg, abs_neg, Nat.abs_cast]
      exact ⟨by omega, iff_of_false (by omega) hq⟩
    · have hq : 0 < q.rat := by
        have hnonneg : 0 ≤ q.rat := not_lt.1 (mt q.num_neg_iff.2 hneg)
        rw [abs_of_nonneg hnonneg] at hbeyond
        exact f64Beyond_pos.trans_le hbeyond
      rw [if_neg hneg, Nat.abs_cast]
      exact ⟨by omega, iff_of_true (by omega) hq⟩

/-- Every product the machine forms is scaled as `SCALE_MODE` and `TIE` say (R14). -/
theorem scaleDyad_scaledFrom (b : Build) (x : BitVec 64) {q : Dyad} (k : ℕ) (hsh : q.sh ≤ 1074) :
    ScaledFrom b (q.rat * k) (scaleDyad b x q k) := by
  rw [← Dyad.times_rat]
  cases hmode : b.scaleMode with
  | exact =>
    simp only [ScaledFrom, scaleDyad, hmode]
    exact rnd_nearest b.tie _
  | binary64 =>
    simp only [scaleDyad, hmode]
    exact rndFl_scaledFrom hmode hsh

/-- Settles O27: the value of the operand is exact, and the scaling of its product is that of R14. -/
theorem scaleRoundsTheProduct : Obligations.ScaleRoundsTheProduct := by
  intro b x k _ _
  rw [ScalesTo, ← f64Val_rat]
  exact scaleDyad_scaledFrom b x k (f64Val_sh_le x)

end Sys2Proof.Machine
end

section
/-! PROOFS. What a command can do to the state: one inductive predicate per unit lists every outcome of the
unit's commands, one lists those of the control operations, and two theorems say that `exec` does nothing else.
The invariants of the state are derived from them. -/

namespace Sys2Proof.Machine

/-! ## Unit KLV -/

/-- The outcomes of a command of unit KLV (R102, R119 to R122). -/
inductive KlvEffect (s : State) : State → Prop
  | validation : KlvEffect s (afterValidationError s)
  | capacity : KlvEffect s (afterCapacityError s)
  | item {tag : Byte} {value : Bytes} (htag : tag ∈ klvTags)
      (hlen : value.length = 2 ∨ value.length = 4 ∨ value.length = 8)
      (hfit : s.klvItems.length + (value.length + 2) ≤ s.build.klvBufMax) : KlvEffect s (afterItem s tag value)
  | packed (records : List Record) : KlvEffect s (afterRecords s records)
  | cleared : KlvEffect s (afterRecords { s with klvItems := [] } [])

theorem appendItem_effect {tag : Byte} {value : Bytes} (s : State) (htag : tag ∈ klvTags)
    (hlen : value.length = 2 ∨ value.length = 4 ∨ value.length = 8) : KlvEffect s (appendItem tag value s) := by
  rw [appendItem_eq]
  split_ifs with hfull
  · exact .capacity
  · exact .item htag hlen (Nat.not_lt.1 hfull)

theorem appendFixed_effect {tag : Byte} {n : Nat} (operand : Option Int) (s : State) (htag : tag ∈ klvTags)
    (hn : n = 2 ∨ n = 4 ∨ n = 8) : KlvEffect s (appendFixed tag n operand s) := by
  cases operand with
  | none => exact .validation
  | some v => exact appendItem_effect s htag (by simpa using hn)

theorem exec_klvEffect {i : Instr} {s t : State} (hu : unitOf i = some .klv) (h : exec i s = .next t) :
    KlvEffect s t := by
  cases i with
  | addTimestamp v => cases h; exact appendItem_effect s (by decide) (by simp)
  | addRoll x => cases h; exact appendFixed_effect _ s (by decide) (by decide)
  | addPitch x => cases h; exact appendFixed_effect _ s (by decide) (by decide)
  | addHeading x => cases h; exact appendFixed_effect _ s (by decide) (by decide)
  | addLatitude x => cases h; exact appendFixed_effect _ s (by decide) (by decide)
  | addLongitude x => cases h; exact appendFixed_effect _ s (by decide) (by decide)
  | addAltitude x => cases h; exact appendFixed_effect _ s (by decide) (by decide)
  | addHfov x => cases h; exact appendFixed_effect _ s (by decide) (by decide)
  | addVfov x => cases h; exact appendFixed_effect _ s (by decide) (by decide)
  | addGimbalRoll x => cases h; exact appendFixed_effect _ s (by decide) (by decide)
  | addGimbalPitch x => cases h; exact appendFixed_effect _ s (by decide) (by decide)
  | addGimbalYaw x => cases h; exact appendFixed_effect _ s (by decide) (by decide)
  | addSensorWidth w => cases h; exact appendItem_effect s (by decide) (by simp)
  | addSensorHeight w => cases h; exact appendItem_effect s (by decide) (by simp)
  | addFocalLength w => cases h; exact appendItem_effect s (by decide) (by simp)
  | klvPack => cases h; exact .packed _
  | klvClear => cases h; exact .cleared
  | _ => cases hu

/-! ## Unit TS -/

/-- The outcomes of `TS_WRAP` (R142, R153, R154). -/
inductive TsEffect (s : State) : State → Prop
  | empty : TsEffect s (afterRecords s [])
  | wrapped (ccPat ccPmt ccEs : BitVec 4) (resp : Option Response) :
      TsEffect s
        { s with
          ccPat := ccPat, ccPmt := ccPmt, ccEs := ccEs, resp := resp
          psiCtr := BitVec.ofNat 32 ((s.psiCtr.toNat + 1) % s.cfg.tsPsiInterval.toNat) }

/-- The tables advance two continuity counters or none (R142, R152). -/
theorem injectTables_st (w : Work) :
    ∃ ccPat ccPmt, (injectTables w).st = { w.st with ccPat := ccPat, ccPmt := ccPmt } := by
  unfold injectTables
  split_ifs
  · exact ⟨w.st.ccPat + 1, w.st.ccPmt + 1, rfl⟩
  · exact ⟨w.st.ccPat, w.st.ccPmt, rfl⟩

/-- The payload packets advance the continuity counter of their PID (R142, R145). -/
theorem wrapPayload_st (data : Bytes) (w : Work) :
    ∃ ccEs, (wrapPayload data w).st = { w.st with ccEs := ccEs } := by
  rw [wrapPayload, foldl_tsPacket_es]
  exact ⟨_, rfl⟩

theorem execTsWrap_effect {data : Bytes} {s t : State} (h : execTsWrap data s = .next t) : TsEffect s t := by
  cases h
  split_ifs
  · exact .empty
  · obtain ⟨ccPat, ccPmt, htables⟩ := injectTables_st s.begin
    obtain ⟨ccEs, hpayload⟩ := wrapPayload_st data (advanceCadence (injectTables s.begin))
    rw [Work.finish_eq, hpayload, advanceCadence, htables]
    exact .wrapped ccPat ccPmt ccEs _

/-! ## Unit FRAG -/

/-- One move of unit FRAG in the course of a command: a datagram is dropped, a cached unit is skipped, the
identifier counter is used (R188, R192, R184). -/
inductive FragMove : State → State → Prop
  | drop (s : State) : FragMove s { s with cnt := { s.cnt with txDrop := s.cnt.txDrop + 1 } }
  | skip (s : State) : FragMove s { s with cnt := s.cnt.count .capacity }
  | advance (s : State) : FragMove s (advanceId s)

/-- Any number of moves of unit FRAG. -/
abbrev FragMoves : State → State → Prop := Relation.ReflTransGen FragMove

theorem foldl_fragMoves {α : Type} {f : Work → α → Work} (hf : ∀ w a, FragMoves w.st (f w a).st)
    (l : List α) (w : Work) : FragMoves w.st (l.foldl f w).st := by
  induction l generalizing w with
  | nil => exact .refl
  | cons a l ih => exact (hf w a).trans (ih (f w a))

theorem Work.offer_fragMoves (w : Work) (i : Nat) (urgent : Bool) (d : Bytes) :
    FragMoves w.st (w.offer i urgent d).st := by
  rw [Work.offer_eq]
  split
  · exact .single (.drop w.st)
  · exact .refl

theorem sendFrameA_fragMoves (tag : Byte) (f : Bytes) (base : Nat) (w : Work) :
    FragMoves w.st (sendFrameA tag f base w).st := by
  rw [sendFrameA_eq]
  exact (foldl_fragMoves (fun _ _ => Work.offer_fragMoves ..) _ w).tail (.advance _)

theorem sendDatagramB_fragMoves (ts : BitVec 64) (c : Nat) (f : Bytes) (w : Work) (i : Nat) :
    FragMoves w.st (sendDatagramB ts c f w i).st :=
  (Work.offer_fragMoves ..).tail (.advance _)

theorem resendUnit_fragMoves (unit : Option Bytes) (tag : Byte) (base : Nat) (w : Work) :
    FragMoves w.st (resendUnit unit tag base w).st := by
  cases unit with
  | none => exact .refl
  | some f =>
    rw [resendUnit]
    split_ifs
    · exact .single (.skip w.st)
    · exact sendFrameA_fragMoves tag f base w

/-- The outcomes of a command of unit FRAG (R180, R187, R189, R191, R192). -/
inductive FragEffect (s : State) : State → Prop
  | unconfigured : FragEffect s (afterIllegal s)
  | sent {u : State} (hmoves : FragMoves s u) (records : List Record) (status : Status) :
      FragEffect s (u.respond records status)
  | cached {tag : Byte} {f : Bytes} {u : State} (hvariant : s.cfg.fragVariant = .a) (hframe : f ≠ [])
      (hmoves : FragMoves (cacheUnit tag f s) u) (records : List Record) (status : Status) :
      FragEffect s (u.respond records status)

theorem fragSendA_effect {s : State} (tag : Byte) (f : Bytes) (hvariant : s.cfg.fragVariant = .a) :
    FragEffect s (fragSendA tag f s) := by
  unfold fragSendA
  split_ifs with hempty
  · exact .sent .refl _ _
  · exact .sent (.single (.skip s)) _ _
  · exact .cached hvariant (mt List.length_eq_zero_iff.2 hempty)
      (sendFrameA_fragMoves tag f 0 (cacheUnit tag f s).begin) _ _

theorem fragSendB_effect (ts : BitVec 64) (f : Bytes) (s : State) : FragEffect s (fragSendB ts f s) := by
  unfold fragSendB
  split_ifs
  · exact .sent .refl _ _
  · exact .sent (foldl_fragMoves (sendDatagramB_fragMoves ts _ f) _ s.begin) _ _

theorem execFragSend_effect {tag : Byte} {ts : BitVec 64} {f : Bytes} {s t : State}
    (h : execFragSend tag ts f s = .next t) : FragEffect s t := by
  cases h
  split_ifs
  · exact .unconfigured
  · cases hvariant : s.cfg.fragVariant with
    | unset => exact .unconfigured
    | a => exact fragSendA_effect tag f hvariant
    | b => exact fragSendB_effect ts f s

theorem execFragRefresh_effect {s t : State} (h : execFragRefresh s = .next t) : FragEffect s t := by
  cases h
  split_ifs
  · exact .unconfigured
  · exact .sent ((resendUnit_fragMoves s.cache0 _ _ s.begin).trans (resendUnit_fragMoves ..)) _ _

/-! ## Unit RX -/

/-- The outcomes of a command of unit RX (R210, R211, R213 to R220, R224). -/
inductive RxEffect (s : State) : State → Prop
  | unconfigured : RxEffect s (afterIllegal s)
  | short : RxEffect s (afterShort s)
  | passedOn (hvariant : s.cfg.fragVariant = .b) (seq : BitVec 32) (ts : BitVec 64) (data : Bytes) :
      RxEffect s ((pushOut (.datagram seq ts data) s).respond [] .ok)
  | stored (hvariant : s.cfg.fragVariant = .a) {h : ChunkHeader} {e : Entry}
      (hentry : mapGet h.fid s.rxTable = some e) : RxEffect s ((storeInto h e s).respond [] .ok)
  | opened (hvariant : s.cfg.fragVariant = .a) {h : ChunkHeader} {n : Nat}
      (hroom : (s.rxTable.drop n).length < s.cfg.rxMaxFrames.toNat ∨ s.rxTable.drop n = [])
      (hnew : mapGet h.fid s.rxTable = none) :
      RxEffect s
        ((storeInto h { total := h.total, chunks := [] }
          (countEvicted n { s with rxTable := s.rxTable.drop n })).respond [] .ok)
  | tooOld (hvariant : s.cfg.fragVariant = .a) (n : Nat) :
      RxEffect s (raise .rxOldest (countEvicted n { s with rxTable := s.rxTable.drop n }))
  | nothingToPop : RxEffect s (afterRecords s [])
  | popped {item : OutItem} {rest : List OutItem} (hqueue : s.outq = item :: rest) (records : List Record) :
      RxEffect s (afterRecords { s with outq := rest } records)

theorem receiveChunk_effect {s : State} (h : ChunkHeader) (hvariant : s.cfg.fragVariant = .a) :
    RxEffect s (receiveChunk h s) := by
  unfold receiveChunk
  cases hget : mapGet h.fid s.rxTable with
  | some e => exact .stored hvariant hget
  | none =>
    obtain ⟨n, -, htable, hevicted, -, -, hend⟩ := makeRoom_cases s.cfg.rxMaxFrames.toNat h.fid s.rxTable
    rcases hend with ⟨hadmitted, hroom⟩ | ⟨hadmitted, -⟩
    · simp only [htable, hevicted, hadmitted, if_true]
      exact .opened hvariant hroom hget
    · simp only [htable, hevicted, hadmitted, Bool.false_eq_true, if_false]
      exact .tooOld hvariant n

theorem execRxPacket_effect {d : Bytes} {s t : State} (h : execRxPacket d s = .next t) : RxEffect s t := by
  cases h
  cases hvariant : s.cfg.fragVariant with
  | unset => exact .unconfigured
  | a =>
    simp only
    split_ifs
    · exact .short
    · exact receiveChunk_effect (parseA d) hvariant
  | b =>
    simp only
    split_ifs
    · exact .short
    · exact .passedOn hvariant _ _ _

theorem execRxPop_effect {s t : State} (h : execRxPop s = .next t) : RxEffect s t := by
  cases h
  cases hqueue : s.outq with
  | nil => exact .nothingToPop
  | cons item rest => exact .popped hqueue _

/-! ## Control -/

/-- The legal writes of a configuration register: the number, the value and what they leave (R37, R253 to
R257). -/
inductive CsrWrite (s : State) : Byte → BitVec 32 → State → Prop
  | variant (hunset : s.cfg.fragVariant = .unset) (v : FragVariant) :
      CsrWrite s 0x00 v.code { s with cfg := { s.cfg with fragVariant := v } }
  | maxChunk (c : BitVec 32) : CsrWrite s 0x01 c { s with cfg := { s.cfg with fragMaxChunk := c } }
  | interval {n : BitVec 32} (hn : n ≠ 0) :
      CsrWrite s 0x02 n { s with cfg := { s.cfg with tsPsiInterval := n }, psiCtr := 0 }
  | maxFrames {k : BitVec 32} (hk : k ≠ 0) :
      CsrWrite s 0x03 k { s with cfg := { s.cfg with rxMaxFrames := k } }
  | tag0 (tag : Byte) :
      CsrWrite s 0x04 (tag.setWidth 32) { s with cfg := { s.cfg with initTag0 := tag }, cache0 := none }
  | tag1 (tag : Byte) :
      CsrWrite s 0x05 (tag.setWidth 32) { s with cfg := { s.cfg with initTag1 := tag }, cache1 := none }

theorem setVariant_write {value : BitVec 32} {s t : State} (h : setVariant value s = some t) :
    CsrWrite s 0x00 value t := by
  unfold setVariant at h
  split_ifs at h with hunset
  split at h
  case _ hv =>
    obtain rfl : value = FragVariant.unset.code := BitVec.eq_of_toNat_eq hv
    cases h
    have hsame : ({ s with cfg := { s.cfg with fragVariant := .unset } } : State) = s := by rw [← hunset]
    simpa [hsame] using CsrWrite.variant hunset .unset
  case _ hv =>
    obtain rfl : value = FragVariant.a.code := BitVec.eq_of_toNat_eq hv
    cases h
    exact .variant hunset .a
  case _ hv =>
    obtain rfl : value = FragVariant.b.code := BitVec.eq_of_toNat_eq hv
    cases h
    exact .variant hunset .b
  case _ => cases h

/-- A value of at most 255 is the zero extension of its low byte. -/
theorem setWidth_setWidth_of_le {value : BitVec 32} (h : ¬ 255 < value.toNat) :
    (value.setWidth 8).setWidth 32 = value := by
  apply BitVec.eq_of_toNat_eq
  simp only [BitVec.toNat_setWidth]
  omega

theorem csrSet_write {csr : Byte} {value : BitVec 32} {s t : State} (h : csrSet csr value s = some t) :
    CsrWrite s csr value t := by
  unfold csrSet at h
  split at h
  case _ hcsr =>
    obtain rfl : csr = 0x00 := BitVec.eq_of_toNat_eq hcsr
    exact setVariant_write h
  case _ hcsr =>
    obtain rfl : csr = 0x01 := BitVec.eq_of_toNat_eq hcsr
    cases h
    exact .maxChunk value
  case _ hcsr =>
    obtain rfl : csr = 0x02 := BitVec.eq_of_toNat_eq hcsr
    split_ifs at h with hvalue
    cases h
    exact .interval hvalue
  case _ hcsr =>
    obtain rfl : csr = 0x03 := BitVec.eq_of_toNat_eq hcsr
    split_ifs at h with hvalue
    cases h
    exact .maxFrames hvalue
  case _ hcsr =>
    obtain rfl : csr = 0x04 := BitVec.eq_of_toNat_eq hcsr
    split_ifs at h with hvalue
    cases h
    have hwrite := CsrWrite.tag0 (s := s) (value.setWidth 8)
    rwa [setWidth_setWidth_of_le hvalue] at hwrite
  case _ hcsr =>
    obtain rfl : csr = 0x05 := BitVec.eq_of_toNat_eq hcsr
    split_ifs at h with hvalue
    cases h
    have hwrite := CsrWrite.tag1 (s := s) (value.setWidth 8)
    rwa [setWidth_setWidth_of_le hvalue] at hwrite
  case _ => cases h

/-- The outcomes of each control operation (R250 to R252, R277). -/
inductive ControlEffect (s : State) : Instr → State → Prop
  | written {csr : Byte} {value : BitVec 32} {u : State} (hwrite : CsrWrite s csr value u) :
      ControlEffect s (.cfgWrite csr value) (u.respond [] .ok)
  | illegalWrite (csr : Byte) (value : BitVec 32) : ControlEffect s (.cfgWrite csr value) (afterIllegal s)
  | read (csr : Byte) (records : List Record) : ControlEffect s (.csrRead csr) (afterRecords s records)
  | illegalRead (csr : Byte) : ControlEffect s (.csrRead csr) (afterIllegal s)
  | reset : ControlEffect s .reset ((resetState s).respond [] .ok)

theorem execCfgWrite_effect {csr : Byte} {value : BitVec 32} {s t : State}
    (h : execCfgWrite csr value s = .next t) : ControlEffect s (.cfgWrite csr value) t := by
  cases h
  cases hset : csrSet csr value s with
  | none => exact .illegalWrite csr value
  | some u => exact .written (csrSet_write hset)

theorem execCsrRead_effect {csr : Byte} {s t : State} (h : execCsrRead csr s = .next t) :
    ControlEffect s (.csrRead csr) t := by
  cases h
  cases csrGet csr s with
  | none => exact .illegalRead csr
  | some v => exact .read csr _

/-! ## Every command -/

/-- The outcomes of the commands of a unit. -/
def UnitEffect : CoreUnit → State → State → Prop
  | .klv => KlvEffect
  | .ts => TsEffect
  | .frag => FragEffect
  | .rx => RxEffect

/-- A command of a unit does one of the things its unit can do. -/
theorem exec_unitEffect {i : Instr} {u : CoreUnit} {s t : State} (hu : unitOf i = some u)
    (h : exec i s = .next t) : UnitEffect u s t := by
  cases u with
  | klv => exact exec_klvEffect hu h
  | ts =>
    cases i with
    | tsWrap data => exact execTsWrap_effect h
    | _ => cases hu
  | frag =>
    cases i with
    | fragSend tag ts f => exact execFragSend_effect h
    | fragRefresh => exact execFragRefresh_effect h
    | _ => cases hu
  | rx =>
    cases i with
    | rxPacket d => exact execRxPacket_effect h
    | rxPop => exact execRxPop_effect h
    | _ => cases hu

/-- A command of no unit does one of the things the control operations can do. -/
theorem exec_controlEffect {i : Instr} {s t : State} (hu : unitOf i = none) (h : exec i s = .next t) :
    ControlEffect s i t := by
  cases i with
  | cfgWrite csr value => exact execCfgWrite_effect h
  | csrRead csr => exact execCsrRead_effect h
  | reset => cases h; exact .reset
  | _ => cases hu

end Sys2Proof.Machine
end

section
/-! PROOFS. The frame of each unit (spec/40_klv.md R100, spec/41_ts.md R140, spec/42_frag.md R180,
spec/43_reasm.md R210): what a unit can do changes only the unit's own fields and counters. -/

namespace Sys2Proof.Machine

theorem UnitFrame.refl (u : CoreUnit) (s : State) : UnitFrame u s s := by cases u <;> rfl

theorem UnitFrame.trans {u : CoreUnit} {s t v : State} (hst : UnitFrame u s t) (htv : UnitFrame u t v) :
    UnitFrame u s v := by
  cases u <;> exact Eq.trans htv (by rw [hst])

/-! ## What a frame leaves unchanged -/

theorem UnitFrame.cfg {u : CoreUnit} {s t : State} (h : UnitFrame u s t) : t.cfg = s.cfg := by
  cases u <;> exact (congrArg State.cfg h).trans rfl

theorem UnitFrame.rxTable {u : CoreUnit} {s t : State} (h : UnitFrame u s t) (hu : u ≠ .rx) :
    t.rxTable = s.rxTable := by
  cases u with
  | rx => exact absurd rfl hu
  | _ => exact (congrArg State.rxTable h).trans rfl

theorem UnitFrame.nextId {u : CoreUnit} {s t : State} (h : UnitFrame u s t) (hu : u ≠ .frag) :
    t.nextId = s.nextId := by
  cases u with
  | frag => exact absurd rfl hu
  | _ => exact (congrArg State.nextId h).trans rfl

theorem UnitFrame.fidWrapped {u : CoreUnit} {s t : State} (h : UnitFrame u s t) (hu : u ≠ .frag) :
    t.fidWrapped = s.fidWrapped := by
  cases u with
  | frag => exact absurd rfl hu
  | _ => exact (congrArg State.fidWrapped h).trans rfl

/-! ## The units -/

theorem KlvEffect.unitFrame {s t : State} (h : KlvEffect s t) : UnitFrame .klv s t := by cases h <;> rfl

theorem TsEffect.unitFrame {s t : State} (h : TsEffect s t) : UnitFrame .ts s t := by cases h <;> rfl

theorem FragMove.unitFrame {s t : State} (h : FragMove s t) : UnitFrame .frag s t := by cases h <;> rfl

theorem FragMoves.unitFrame {s t : State} (h : FragMoves s t) : UnitFrame .frag s t := by
  induction h with
  | refl => exact .refl .frag s
  | tail _ hmove ih => exact ih.trans hmove.unitFrame

theorem cacheUnit_unitFrame (tag : Byte) (f : Bytes) (s : State) : UnitFrame .frag s (cacheUnit tag f s) := by
  unfold cacheUnit
  split_ifs <;> rfl

theorem respond_unitFrame (u : CoreUnit) (s : State) (records : List Record) (status : Status) :
    UnitFrame u s (s.respond records status) := by cases u <;> rfl

theorem FragEffect.unitFrame {s t : State} (h : FragEffect s t) : UnitFrame .frag s t := by
  cases h with
  | unconfigured => rfl
  | sent hmoves records status => exact hmoves.unitFrame.trans (respond_unitFrame ..)
  | cached _ _ hmoves records status =>
    exact (cacheUnit_unitFrame ..).trans (hmoves.unitFrame.trans (respond_unitFrame ..))

theorem pushOut_unitFrame (item : OutItem) (s : State) : UnitFrame .rx s (pushOut item s) := by
  unfold pushOut
  split <;> rfl

theorem countDup_unitFrame (h : ChunkHeader) (e : Entry) (s : State) : UnitFrame .rx s (countDup h e s) := by
  unfold countDup
  split <;> rfl

theorem storeInto_unitFrame (h : ChunkHeader) (e : Entry) (s : State) : UnitFrame .rx s (storeInto h e s) := by
  refine (countDup_unitFrame h e s).trans ?_
  simp only [storeInto]
  split
  · refine UnitFrame.trans ?_ (pushOut_unitFrame _ _)
    rfl
  · rfl

theorem RxEffect.unitFrame {s t : State} (h : RxEffect s t) : UnitFrame .rx s t := by
  cases h with
  | passedOn _ seq ts data => exact (pushOut_unitFrame ..).trans (respond_unitFrame ..)
  | stored _ _ => exact (storeInto_unitFrame ..).trans (respond_unitFrame ..)
  | opened _ _ _ =>
    refine UnitFrame.trans ?_ ((storeInto_unitFrame ..).trans (respond_unitFrame ..))
    rfl
  | _ => rfl

theorem UnitEffect.unitFrame {u : CoreUnit} {s t : State} (h : UnitEffect u s t) : UnitFrame u s t := by
  cases u with
  | klv => exact KlvEffect.unitFrame h
  | ts => exact TsEffect.unitFrame h
  | frag => exact FragEffect.unitFrame h
  | rx => exact RxEffect.unitFrame h

/-- A command of a unit changes only the unit's own fields and counters. -/
theorem exec_unitFrame {i : Instr} {u : CoreUnit} {s t : State} (hu : unitOf i = some u)
    (h : exec i s = .next t) : UnitFrame u s t :=
  (exec_unitEffect hu h).unitFrame

end Sys2Proof.Machine
end

section
/-! PROOFS. The legal states (spec/10_state.md R20 to R37): every operation that a command is made of keeps
`Legal`, so every step does. A record update of a legal state is legal by the fields it leaves alone and a
proof for each field it writes. -/

namespace Sys2Proof.Machine

variable {s t : State}

/-! ## Operations of every unit -/

theorem Legal.latch (hs : Legal s) (rest : Bytes) : Legal (s.latch rest) := { hs with }

theorem Legal.respond (hs : Legal s) (records : List Record) (status : Status) :
    Legal (s.respond records status) := { hs with }

theorem Legal.raise (hs : Legal s) (e : Raised) : Legal (raise e s) := { hs with }

/-- The event counters are free (R34). -/
theorem Legal.setCnt (hs : Legal s) (cnt : Counters) : Legal { s with cnt := cnt } := { hs with }

/-- R42, R250: every field of R20 has its reset value, and the build parameters are as legal as they were. -/
theorem legal_resetState (hbuild : s.build.Legal) : Legal (resetState s) where
  build := hbuild
  items := ⟨[], rfl, by simp⟩
  itemsFit := Nat.zero_le _
  interval := show Cfg.reset.tsPsiInterval ≠ 0 by decide
  bound := show Cfg.reset.rxMaxFrames ≠ 0 by decide
  cadence := show State.reset.psiCtr.toNat < Cfg.reset.tsPsiInterval.toNat by decide
  store := rfl
  unfinished := by simp [State.reset]
  tableVariant := fun _ => rfl
  queueFits := Nat.zero_le _
  queueVariant := by simp [State.reset]
  cacheVariant := fun _ => ⟨rfl, rfl⟩
  cacheNonempty := by simp [State.reset]

/-! ## Unit KLV -/

theorem ItemsLegal.append {b : Bytes} (hb : ItemsLegal b) {tag : Byte} {value : Bytes} (htag : tag ∈ klvTags)
    (hlen : value.length = 2 ∨ value.length = 4 ∨ value.length = 8) : ItemsLegal (b ++ klvItem tag value) := by
  obtain ⟨items, rfl, hitems⟩ := hb
  refine ⟨items ++ [(tag, value)], by simp, fun p hp => ?_⟩
  rcases List.mem_append.1 hp with hold | hnew
  · exact hitems p hold
  · obtain rfl := List.mem_singleton.1 hnew
    exact ⟨htag, hlen⟩

theorem Legal.klvEffect (hs : Legal s) (h : KlvEffect s t) : Legal t := by
  cases h with
  | validation => exact hs.raise .validation
  | capacity => exact hs.raise .capacity
  | item htag hlen hfit =>
    exact { hs with
      items := hs.items.append htag hlen
      itemsFit := by simpa [afterItem] using hfit }
  | packed records => exact hs.respond records .ok
  | cleared => exact { hs with items := ⟨[], rfl, by simp⟩, itemsFit := Nat.zero_le _ }

/-! ## Unit TS -/

theorem Legal.tsEffect (hs : Legal s) (h : TsEffect s t) : Legal t := by
  cases h with
  | empty => exact hs.respond [] .ok
  | wrapped ccPat ccPmt ccEs resp =>
    have hpos : 0 < s.cfg.tsPsiInterval.toNat := Nat.zero_lt_of_lt hs.cadence
    have hlt := Nat.mod_lt (s.psiCtr.toNat + 1) hpos
    have hcadence : (BitVec.ofNat 32 ((s.psiCtr.toNat + 1) % s.cfg.tsPsiInterval.toNat)).toNat <
        s.cfg.tsPsiInterval.toNat := by
      rwa [BitVec.toNat_ofNat, Nat.mod_eq_of_lt (hlt.trans s.cfg.tsPsiInterval.isLt)]
    exact { hs with cadence := hcadence }

/-! ## Unit FRAG -/

theorem Legal.fragMoves (hs : Legal s) (h : FragMoves s t) : Legal t := by
  induction h with
  | refl => exact hs
  | tail _ hmove ih => cases hmove <;> exact { ih with }

/-- R191: what is cached is a Frame of variant A that is not empty. -/
theorem Legal.cacheUnit (hs : Legal s) {f : Bytes} (tag : Byte) (hvariant : s.cfg.fragVariant = .a)
    (hframe : f ≠ []) : Legal (cacheUnit tag f s) := by
  have hnonempty : some f ≠ some [] := by simpa using hframe
  obtain ⟨hcache0, hcache1⟩ := hs.cacheNonempty
  unfold Machine.cacheUnit
  split_ifs
  · exact { hs with
      cacheVariant := fun hne => absurd hvariant hne
      cacheNonempty := ⟨hnonempty, hcache1⟩ }
  · exact { hs with
      cacheVariant := fun hne => absurd hvariant hne
      cacheNonempty := ⟨hcache0, hnonempty⟩ }
  · exact hs

theorem Legal.fragEffect (hs : Legal s) (h : FragEffect s t) : Legal t := by
  cases h with
  | unconfigured => exact hs.raise .illegal
  | sent hmoves records status => exact (hs.fragMoves hmoves).respond records status
  | cached hvariant hframe hmoves records status =>
    exact ((hs.cacheUnit _ hvariant hframe).fragMoves hmoves).respond records status

/-! ## Unit RX -/

theorem Legal.pushOut (hs : Legal s) {item : OutItem} (hitem : ItemOfVariant s.cfg.fragVariant item) :
    Legal (pushOut item s) := by
  rw [pushOut_eq, afterPush]
  split_ifs with hroom
  · refine { hs with queueFits := by simpa using hroom, queueVariant := fun x hx => ?_ }
    rcases List.mem_append.1 hx with hold | hnew
    · exact hs.queueVariant x hold
    · obtain rfl := List.mem_singleton.1 hnew
      exact hitem
  · exact { hs with }

/-- Under variant A the frame table may hold any entries that each hold a chunk and are incomplete. -/
theorem Legal.setTable (hs : Legal s) (hvariant : s.cfg.fragVariant = .a) {table : FrameTable}
    (hstore : storeWf table = true) (hunfinished : ∀ p ∈ table, p.2.chunks ≠ [] ∧ entryComplete p.2 = false) :
    Legal { s with rxTable := table } :=
  { hs with
    store := hstore
    unfinished := hunfinished
    tableVariant := fun hne => absurd hvariant hne }

theorem Legal.evict (hs : Legal s) (hvariant : s.cfg.fragVariant = .a) (n : Nat) :
    Legal (countEvicted n { s with rxTable := s.rxTable.drop n }) :=
  { hs.setTable hvariant (storeWf_drop n hs.store)
      fun p hp => hs.unfinished p (List.mem_of_mem_drop hp) with }

theorem Legal.countDup (hs : Legal s) (h : ChunkHeader) (e : Entry) : Legal (countDup h e s) := by
  unfold Machine.countDup
  split
  · exact { hs with }
  · exact hs

/-- R215 to R217: a completed entry leaves the table, and any other stays with the chunk just stored. -/
theorem Legal.storeInto (hs : Legal s) (hvariant : s.cfg.fragVariant = .a) (h : ChunkHeader) {e : Entry}
    (hchunks : mapWf e.chunks = true) : Legal (storeInto h e s) := by
  have hdup := hs.countDup h e
  have hdupVariant : (Machine.countDup h e s).cfg.fragVariant = .a := by simpa using hvariant
  simp only [Machine.storeInto]
  split_ifs with hcomplete
  · have hdeleted := hdup.setTable hdupVariant (storeWf_mapDel h.fid hdup.store)
      fun p hp => hdup.unfinished p (mem_mapDel hp)
    refine Legal.pushOut (hdeleted.setCnt _) ?_
    exact hdupVariant
  · refine hdup.setTable hdupVariant (storeWf_mapSet h.fid (mapWf_mapSet h.index h.payload hchunks) hdup.store)
      fun p hp => ?_
    rcases mem_mapSet hp with rfl | hold
    · exact ⟨mapSet_ne_nil _ _ _, Bool.eq_false_iff.2 hcomplete⟩
    · exact hdup.unfinished p hold

theorem Legal.rxEffect (hs : Legal s) (h : RxEffect s t) : Legal t := by
  cases h with
  | unconfigured => exact hs.raise .illegal
  | short => exact hs.raise .rxShort
  | passedOn hvariant seq ts data => exact (hs.pushOut (item := .datagram seq ts data) hvariant).respond [] .ok
  | stored hvariant hentry =>
    exact (hs.storeInto hvariant _ (mapWf_chunks_of_mapGet hs.store hentry)).respond [] .ok
  | opened hvariant _ _ => exact ((hs.evict hvariant _).storeInto hvariant _ rfl).respond [] .ok
  | tooOld hvariant n => exact (hs.evict hvariant n).raise .rxOldest
  | nothingToPop => exact hs.respond [] .ok
  | popped hqueue records =>
    have hfits := hs.queueFits
    have hqueueVariant := hs.queueVariant
    rw [hqueue] at hfits hqueueVariant
    exact { hs with
      queueFits := (Nat.le_succ _).trans hfits
      queueVariant := fun x hx => hqueueVariant x (List.mem_cons_of_mem _ hx) }

/-! ## Control -/

/-- R253: while no variant is set, the table, the queue and the caches are empty, so any variant may be. -/
theorem Legal.setVariant (hs : Legal s) (hunset : s.cfg.fragVariant = .unset) (v : FragVariant) :
    Legal { s with cfg := { s.cfg with fragVariant := v } } := by
  have hne : s.cfg.fragVariant ≠ .a := by simp [hunset]
  have hqueue : s.outq = [] := by
    refine List.eq_nil_iff_forall_not_mem.2 fun item hmem => ?_
    have hitem := hs.queueVariant item hmem
    rw [hunset] at hitem
    cases item <;> cases hitem
  exact { hs with
    tableVariant := fun _ => hs.tableVariant hne
    queueVariant := by simp [hqueue]
    cacheVariant := fun _ => hs.cacheVariant hne }

theorem Legal.csrWrite (hs : Legal s) {csr : Byte} {value : BitVec 32} (h : CsrWrite s csr value t) :
    Legal t := by
  obtain ⟨hcache0, hcache1⟩ := hs.cacheNonempty
  cases h with
  | variant hunset v => exact hs.setVariant hunset v
  | maxChunk c => exact { hs with }
  | interval hn => exact { hs with interval := hn, cadence := (BitVec.pos_iff_ne_zero _).2 hn }
  | maxFrames hk => exact { hs with bound := hk }
  | tag0 tag =>
    exact { hs with
      cacheVariant := fun hne => ⟨rfl, (hs.cacheVariant hne).2⟩
      cacheNonempty := ⟨nofun, hcache1⟩ }
  | tag1 tag =>
    exact { hs with
      cacheVariant := fun hne => ⟨(hs.cacheVariant hne).1, rfl⟩
      cacheNonempty := ⟨hcache0, nofun⟩ }

theorem Legal.controlEffect (hs : Legal s) {i : Instr} (h : ControlEffect s i t) : Legal t := by
  cases h with
  | written hwrite => exact (hs.csrWrite hwrite).respond [] .ok
  | illegalWrite csr value => exact hs.raise .illegal
  | read csr records => exact hs.respond records .ok
  | illegalRead csr => exact hs.raise .illegal
  | reset => exact (legal_resetState hs.build).respond [] .ok

/-! ## Every command -/

theorem Legal.unitEffect (hs : Legal s) {u : CoreUnit} (h : UnitEffect u s t) : Legal t := by
  cases u with
  | klv => exact hs.klvEffect h
  | ts => exact hs.tsEffect h
  | frag => exact hs.fragEffect h
  | rx => exact hs.rxEffect h

theorem Legal.exec (hs : Legal s) {i : Instr} (h : exec i s = .next t) : Legal t := by
  cases hu : unitOf i with
  | none => exact hs.controlEffect (exec_controlEffect hu h)
  | some u => exact hs.unitEffect (exec_unitEffect hu h)

end Sys2Proof.Machine
end

section
/-! PROOFS. The statements about legal states and about reset (spec/10_state.md R20 to R42, spec/44_control.md
R250). -/

namespace Sys2Proof.Machine

/-- Settles O8, by the three things a step can be: idle, an illegal command, a legal command. -/
theorem everyStepKeepsTheStateLegal : Obligations.EveryStepKeepsTheStateLegal := by
  intro s t hs h
  rcases step_cases h with ⟨-, rfl⟩ | ⟨op, rest, -, rfl⟩ | ⟨i, rest, -, hexec⟩
  · exact hs
  · exact (hs.latch rest).raise .illegal
  · exact (hs.latch rest).exec hexec

/-- Settles O9: the state after reset is the reset of itself, and its build parameters are legal. -/
theorem resetStateIsLegal : Obligations.ResetStateIsLegal :=
  legal_resetState (s := State.reset) (by decide)

/-- Settles O10: each field of `State.reset` is written out there, and `RESET` copies them. -/
theorem resetGivesEveryFieldItsValue : Obligations.ResetGivesEveryFieldItsValue :=
  ⟨⟨rfl, rfl, rfl, rfl, rfl, rfl, rfl, rfl, rfl, rfl, rfl, rfl, rfl⟩, fun _ => rfl⟩

end Sys2Proof.Machine
end

section
/-! PROOFS. The identifier counter and its sticky flag (spec/10_state.md R26, R27). -/

namespace Sys2Proof.Machine

/-- From `s` to `t` the flag `FID_WRAPPED` is not cleared, and it is set if the counter stands lower. -/
def WrapRecorded (s t : State) : Prop :=
  (s.fidWrapped = true → t.fidWrapped = true) ∧ (t.nextId.toNat < s.nextId.toNat → t.fidWrapped = true)

theorem wrapRecorded_of_eq {s t : State} (hid : t.nextId = s.nextId) (hflag : t.fidWrapped = s.fidWrapped) :
    WrapRecorded s t :=
  ⟨fun h => hflag.trans h, fun hlt => absurd hlt (by simp [hid])⟩

theorem WrapRecorded.trans {s t u : State} (hst : WrapRecorded s t) (htu : WrapRecorded t u) :
    WrapRecorded s u := by
  obtain ⟨hsticky, hwrap⟩ := hst
  obtain ⟨hsticky', hwrap'⟩ := htu
  refine ⟨fun h => hsticky' (hsticky h), fun hlt => ?_⟩
  rcases Nat.lt_or_ge t.nextId.toNat s.nextId.toNat with hlower | hnotLower
  · exact hsticky' (hwrap hlower)
  · exact hwrap' (hlt.trans_le hnotLower)

/-- One use of the counter makes it stand lower only from 2^32-1, where it sets the flag (R184). -/
theorem advanceId_wrapRecorded (s : State) : WrapRecorded s (advanceId s) := by
  have hlt := s.nextId.isLt
  constructor
  · intro h
    simp [wrapFlag_eq, h]
  · intro hlower
    rw [advanceId_nextId, BitVec.toNat_add] at hlower
    have hlast : s.nextId.toNat = 2 ^ 32 - 1 := by simp at hlower; omega
    simp [wrapFlag_eq, hlast]

theorem FragMoves.wrapRecorded {s t : State} (h : FragMoves s t) : WrapRecorded s t := by
  induction h with
  | refl => exact wrapRecorded_of_eq rfl rfl
  | tail _ hmove ih =>
    refine ih.trans ?_
    cases hmove with
    | drop => exact wrapRecorded_of_eq rfl rfl
    | skip => exact wrapRecorded_of_eq rfl rfl
    | advance => exact advanceId_wrapRecorded _

theorem cacheUnit_wrapRecorded (tag : Byte) (f : Bytes) (s : State) : WrapRecorded s (cacheUnit tag f s) :=
  wrapRecorded_of_eq (cacheUnit_nextId tag f s) (cacheUnit_fidWrapped tag f s)

theorem FragEffect.wrapRecorded {s t : State} (h : FragEffect s t) : WrapRecorded s t := by
  cases h with
  | unconfigured => exact wrapRecorded_of_eq rfl rfl
  | sent hmoves records status => exact hmoves.wrapRecorded.trans (wrapRecorded_of_eq rfl rfl)
  | cached _ _ hmoves records status =>
    exact (cacheUnit_wrapRecorded ..).trans (hmoves.wrapRecorded.trans (wrapRecorded_of_eq rfl rfl))

theorem CsrWrite.wrapRecorded {s t : State} {csr : Byte} {value : BitVec 32} (h : CsrWrite s csr value t) :
    WrapRecorded s t := by
  cases h <;> exact wrapRecorded_of_eq rfl rfl

theorem ControlEffect.wrapRecorded {s t : State} {i : Instr} (h : ControlEffect s i t) (hi : i ≠ .reset) :
    WrapRecorded s t := by
  cases h with
  | written hwrite => exact hwrite.wrapRecorded.trans (wrapRecorded_of_eq rfl rfl)
  | reset => exact absurd rfl hi
  | _ => exact wrapRecorded_of_eq rfl rfl

/-- Every command but `RESET` records a wrap of the counter: unit FRAG because each use of it does, the
others because they do not write it. -/
theorem exec_wrapRecorded {i : Instr} {s t : State} (hi : i ≠ .reset) (h : exec i s = .next t) :
    WrapRecorded s t := by
  cases hu : unitOf i with
  | none => exact (exec_controlEffect hu h).wrapRecorded hi
  | some u =>
    by_cases hfrag : u = .frag
    · subst hfrag
      exact FragEffect.wrapRecorded (exec_unitEffect hu h)
    · have hframe := exec_unitFrame hu h
      exact wrapRecorded_of_eq (hframe.nextId hfrag) (hframe.fidWrapped hfrag)

/-- Settles O14, by the three things a step can be; the legal command is not `RESET`. -/
theorem wrapFlagRecordsEveryWrap : Obligations.WrapFlagRecordsEveryWrap := by
  intro s t hreset h
  change WrapRecorded s t
  rcases step_cases h with ⟨-, rfl⟩ | ⟨op, rest, -, rfl⟩ | ⟨i, rest, hdecode, hexec⟩
  · exact wrapRecorded_of_eq rfl rfl
  · exact wrapRecorded_of_eq rfl rfl
  · have hi : i ≠ .reset := by
      rintro rfl
      exact hreset rest hdecode
    exact (wrapRecorded_of_eq rfl rfl : WrapRecorded s (s.latch rest)).trans (exec_wrapRecorded hi hexec)

end Sys2Proof.Machine
end

section
/-! PROOFS. The bound on tracked frame_ids (spec/10_state.md R29, spec/43_reasm.md R214). -/

namespace Sys2Proof.Machine

/-- The table after a store: the completed entry is gone, any other is written back (R215 to R217). -/
theorem storeInto_rxTable (h : ChunkHeader) (e : Entry) (s : State) :
    (storeInto h e s).rxTable =
      if entryComplete (storeChunk h e) then mapDel h.fid s.rxTable
      else mapSet h.fid (storeChunk h e) s.rxTable := by
  simp only [storeInto]
  split_ifs <;> simp

/-- A store into a tracked frame_id tracks no more of them. -/
theorem storeInto_length_le_of_some {h : ChunkHeader} {e e' : Entry} {s : State} (hwf : mapWf s.rxTable = true)
    (hentry : mapGet h.fid s.rxTable = some e') : (storeInto h e s).rxTable.length ≤ s.rxTable.length := by
  rw [storeInto_rxTable]
  split_ifs
  · exact mapDel_length_le ..
  · exact (mapSet_length_of_some _ hwf hentry).le

/-- A store into a new frame_id tracks at most one more. -/
theorem storeInto_length_le_of_none {h : ChunkHeader} {e : Entry} {s : State}
    (hnew : mapGet h.fid s.rxTable = none) : (storeInto h e s).rxTable.length ≤ s.rxTable.length + 1 := by
  rw [storeInto_rxTable]
  split_ifs
  · exact (mapDel_length_le ..).trans (Nat.le_succ _)
  · exact (mapSet_length_of_none _ hnew).le

theorem mapGet_drop_of_none {w : Nat} {α : Type} {k : BitVec w} {m : KeyMap w α} (n : Nat)
    (h : mapGet k m = none) : mapGet k (m.drop n) = none := by
  rw [mapGet_eq_none_iff] at h ⊢
  exact fun p hp => h p (List.mem_of_mem_drop hp)

/-- Unit RX keeps the table within a bound that is not zero (R214). -/
theorem RxEffect.rxTable_length_le {s t : State} (h : RxEffect s t) (hwf : mapWf s.rxTable = true)
    (hbound : 0 < s.cfg.rxMaxFrames.toNat) (hle : s.rxTable.length ≤ s.cfg.rxMaxFrames.toNat) :
    t.rxTable.length ≤ s.cfg.rxMaxFrames.toNat := by
  cases h with
  | passedOn _ seq ts data => simpa using hle
  | stored _ hentry => exact (storeInto_length_le_of_some hwf hentry).trans hle
  | @opened _ h n hroom hnew =>
    have hroom' : (s.rxTable.drop n).length < s.cfg.rxMaxFrames.toNat := by
      rcases hroom with hlt | hnil
      · exact hlt
      · simpa [hnil] using hbound
    exact (storeInto_length_le_of_none (mapGet_drop_of_none n hnew)).trans hroom'
  | tooOld _ n => exact (List.drop_sublist n _).length_le.trans hle
  | _ => exact hle

/-- A write of another register than `RX_MAX_FRAMES` touches neither the table nor its bound. -/
theorem CsrWrite.tracked_eq {s t : State} {csr : Byte} {value : BitVec 32} (h : CsrWrite s csr value t)
    (hcsr : csr ≠ 0x03) : t.rxTable = s.rxTable ∧ t.cfg.rxMaxFrames = s.cfg.rxMaxFrames := by
  cases h with
  | maxFrames _ => exact absurd rfl hcsr
  | _ => exact ⟨rfl, rfl⟩

theorem ControlEffect.rxTable_length_le {s t : State} {i : Instr} (h : ControlEffect s i t)
    (hi : ∀ v, i ≠ .cfgWrite 0x03 v) (hle : s.rxTable.length ≤ s.cfg.rxMaxFrames.toNat) :
    t.rxTable.length ≤ t.cfg.rxMaxFrames.toNat := by
  cases h with
  | @written csr value u hwrite =>
    have hcsr : csr ≠ 0x03 := by
      rintro rfl
      exact hi value rfl
    obtain ⟨htable, hbound⟩ := hwrite.tracked_eq hcsr
    simpa [htable, hbound] using hle
  | reset => exact Nat.zero_le _
  | _ => exact hle

/-- Settles O50: only unit RX and the control operations write the table or its bound, and unit RX makes
room before it opens an entry. -/
theorem trackedFramesStayWithinTheBound : Obligations.TrackedFramesStayWithinTheBound := by
  intro i s t hi h hwf hbound hle
  cases hu : unitOf i with
  | none => exact (exec_controlEffect hu h).rxTable_length_le hi hle
  | some u =>
    have hframe := exec_unitFrame hu h
    rw [hframe.cfg]
    by_cases hrx : u = .rx
    · subst hrx
      have hpos : 0 < s.cfg.rxMaxFrames.toNat := (BitVec.pos_iff_ne_zero _).2 hbound
      exact RxEffect.rxTable_length_le (exec_unitEffect hu h) hwf hpos hle
    · rw [hframe.rxTable hrx]
      exact hle

end Sys2Proof.Machine
end

section
/-! PROOFS. Illegal writes of the configuration registers, and what a legal write reads back as
(spec/10_state.md R36, R37, spec/44_control.md R251, R253). -/

namespace Sys2Proof.Machine

theorem FragVariant.code_lt (v : FragVariant) : v.code.toNat < 3 := by cases v <;> decide

theorem toNat_setWidth_le (tag : Byte) : (tag.setWidth 32).toNat ≤ 255 := by
  rw [BitVec.toNat_setWidth]
  omega

/-- What a legal write writes (R37): a writable register, the variant once and with one of its codes, no zero
interval or bound, a tag of one byte. -/
theorem CsrWrite.legal {s t : State} {csr : Byte} {value : BitVec 32} (h : CsrWrite s csr value t) :
    csr.toNat ≤ 5 ∧ (csr = 0x00 → s.cfg.fragVariant = .unset ∧ value.toNat < 3) ∧
      (csr = 0x02 ∨ csr = 0x03 → value ≠ 0) ∧ (csr = 0x04 ∨ csr = 0x05 → value.toNat ≤ 255) := by
  cases h with
  | variant hunset v => simp [hunset, v.code_lt]
  | maxChunk c => simp
  | interval hn => simpa using hn
  | maxFrames hk => simpa using hk
  | tag0 tag => exact ⟨by decide, by simp, by simp, fun _ => toNat_setWidth_le tag⟩
  | tag1 tag => exact ⟨by decide, by simp, by simp, fun _ => toNat_setWidth_le tag⟩

/-- A `CFG_WRITE` that no legal write matches ends with `ILLEGAL_COMMAND` (R251). -/
theorem execCfgWrite_of_not_write {csr : Byte} {value : BitVec 32} {s : State}
    (h : ∀ t, ¬ CsrWrite s csr value t) : execCfgWrite csr value s = .next (afterIllegal s) := by
  have hnone : csrSet csr value s = none :=
    Option.eq_none_iff_forall_not_mem.2 fun t ht => h t (csrSet_write ht)
  rw [execCfgWrite, hnone, raise_illegal]

/-- Settles O56: each of the conditions contradicts one of those of a legal write. -/
theorem illegalConfigurationWrites : Obligations.IllegalConfigurationWrites := by
  intro csr value s hillegal
  refine execCfgWrite_of_not_write fun t hwrite => ?_
  obtain ⟨hnumber, hvariant, hnonzero, hbyte⟩ := hwrite.legal
  rcases hillegal with hcsr | ⟨hcsr, hset | hcode⟩ | ⟨hcsr, hzero⟩ | ⟨hcsr, hlarge⟩
  · exact absurd hnumber (Nat.not_le.2 hcsr)
  · exact hset (hvariant hcsr).1
  · exact absurd (hvariant hcsr).2 (Nat.not_lt.2 hcode)
  · exact hnonzero hcsr hzero
  · exact absurd (hbyte hcsr) (Nat.not_le.2 hlarge)

theorem CsrWrite.csrGet {s t : State} {csr : Byte} {value : BitVec 32} (h : CsrWrite s csr value t) :
    csrGet csr t = some value := by cases h <;> rfl

theorem csrGet_respond (csr : Byte) (s : State) (records : List Record) (status : Status) :
    csrGet csr (s.respond records status) = csrGet csr s := rfl

theorem execCsrRead_of_get {csr : Byte} {value : BitVec 32} {s : State} (h : csrGet csr s = some value) :
    execCsrRead csr s =
      .next (afterRecords s [{ port := .csrOut, flags := 0, data := be 4 value.toNat }]) := by
  rw [execCsrRead, h]
  rfl

/-- Settles O58: a `CFG_WRITE` that ends with `OK` made a legal write, and each of those reads back. -/
theorem legalWritesReadBack : Obligations.LegalWritesReadBack := by
  intro csr value s t h hok
  cases execCfgWrite_effect h with
  | written hwrite =>
    exact execCsrRead_of_get ((csrGet_respond ..).trans hwrite.csrGet)
  | illegalWrite => cases hok

end Sys2Proof.Machine
end

section
/-! PROOFS. The independence of the units (spec/20_memory.md R61): a command does not read what a command of
another unit writes, so what the two of them do to a state commutes. The shared counters are no exception: they
are only ever incremented, and two increments commute. -/

namespace Sys2Proof.Machine

/-! ## What a command of another unit did -/

/-- The shared counters advanced by as much as from `a` to `b`. -/
def Counters.advance (c a b : Counters) : Counters :=
  { c with
    illegal := c.illegal + (b.illegal - a.illegal)
    capacity := c.capacity + (b.capacity - a.capacity) }

/-- What a command of unit `u` that led from `a` to `b` does to `s`: the unit's own fields and counters and
the response are those of `b`, the shared counters advance (R61, R100, R140, R180, R210). -/
def State.replay (s : State) (u : CoreUnit) (a b : State) : State :=
  match u with
  | .klv =>
    { s with
      klvItems := b.klvItems, resp := b.resp
      cnt := { s.cnt.advance a.cnt b.cnt with validation := b.cnt.validation } }
  | .ts =>
    { s with
      ccPat := b.ccPat, ccPmt := b.ccPmt, ccEs := b.ccEs, psiCtr := b.psiCtr, resp := b.resp
      cnt := s.cnt.advance a.cnt b.cnt }
  | .frag =>
    { s with
      nextId := b.nextId, fidWrapped := b.fidWrapped, cache0 := b.cache0, cache1 := b.cache1
      resp := b.resp
      cnt := { s.cnt.advance a.cnt b.cnt with txDrop := b.cnt.txDrop } }
  | .rx =>
    { s with
      rxTable := b.rxTable, outq := b.outq, resp := b.resp
      cnt :=
        { s.cnt.advance a.cnt b.cnt with
          rxShort := b.cnt.rxShort, rxDup := b.cnt.rxDup, rxEvicted := b.cnt.rxEvicted
          rxFrames := b.cnt.rxFrames, outDrop := b.cnt.outDrop } }

/-- What a command of unit `u` that led from `a` to `b` does to `s`, were it performed before the command
whose response `s` holds. -/
def State.beside (s : State) (u : CoreUnit) (a b : State) : State :=
  { s.replay u a b with resp := s.resp }

/-- The frame of a unit, read as: the command did to its state what it does. -/
theorem UnitFrame.eq_replay {u : CoreUnit} {s t : State} (h : UnitFrame u s t) : t = s.replay u s t := by
  cases u <;> rw [h] <;> simp [State.replay, Counters.advance, add_sub_cancel]

theorem State.replay_comm {u v : CoreUnit} (huv : u ≠ v) (a b c d s : State) :
    { (s.replay v c d).replay u a b with resp := none } =
      { (s.replay u a b).replay v c d with resp := none } := by
  revert huv
  cases u <;> cases v <;> simp [State.replay, Counters.advance, add_right_comm]

section
variable {v : CoreUnit} {a b : State}

/-! ## What every command may read -/

@[simp] theorem State.replay_cfg (s : State) : (s.replay v a b).cfg = s.cfg := by cases v <;> rfl
@[simp] theorem State.replay_build (s : State) : (s.replay v a b).build = s.build := by cases v <;> rfl
@[simp] theorem State.replay_refusals (s : State) : (s.replay v a b).refusals = s.refusals := by
  cases v <;> rfl

/-! ## The end of a command -/

/-- The unit whose counter an error increments; none where the counter is shared (R34, R61). -/
def Raised.owner : Raised → Option CoreUnit
  | .validation => some .klv
  | .capacity => none
  | .illegal => none
  | .rxShort => some .rx
  | .rxOldest => some .rx

theorem respond_replay (s : State) (records : List Record) (status : Status) :
    (s.replay v a b).respond records status = (s.respond records status).beside v a b := by
  cases v <;> rfl

theorem count_replay {e : Raised} (he : e.owner ≠ some v) (s : State) :
    { s.replay v a b with cnt := (s.replay v a b).cnt.count e } =
      { s with cnt := s.cnt.count e }.replay v a b := by
  revert he
  cases e <;> cases v <;>
    simp [Raised.owner, State.replay, Counters.advance, Counters.count, inc32, add_right_comm]

theorem raise_replay {e : Raised} (he : e.owner ≠ some v) (s : State) :
    raise e (s.replay v a b) = (raise e s).beside v a b := by
  rw [raise, count_replay he, respond_replay, raise]

end

/-! ## Unit KLV -/

section
variable {v : CoreUnit} {a b : State} (hv : v ≠ .klv)
include hv

theorem State.replay_klvItems (s : State) : (s.replay v a b).klvItems = s.klvItems := by
  cases v with
  | klv => exact absurd rfl hv
  | _ => rfl

theorem afterItem_replay (tag : Byte) (value : Bytes) (s : State) :
    afterItem (s.replay v a b) tag value = (afterItem s tag value).beside v a b := by
  rw [afterItem, State.replay_klvItems hv]
  cases v with
  | klv => exact absurd rfl hv
  | _ => rfl

theorem setKlvItems_replay (items : Bytes) (s : State) :
    { s.replay v a b with klvItems := items } = { s with klvItems := items }.replay v a b := by
  cases v with
  | klv => exact absurd rfl hv
  | _ => rfl

theorem appendItem_replay (tag : Byte) (value : Bytes) (s : State) :
    appendItem tag value (s.replay v a b) = (appendItem tag value s).beside v a b := by
  rw [appendItem_eq, appendItem_eq, State.replay_build, State.replay_klvItems hv]
  split_ifs
  · exact raise_replay (e := .capacity) (by simp [Raised.owner]) s
  · exact afterItem_replay hv tag value s

theorem appendFixed_replay (tag : Byte) (n : Nat) (operand : Option Int) (s : State) :
    appendFixed tag n operand (s.replay v a b) = (appendFixed tag n operand s).beside v a b := by
  cases operand with
  | none => exact raise_replay (by simpa [Raised.owner] using hv.symm) s
  | some x => exact appendItem_replay hv tag _ s

theorem exec_klv_replay {i : Instr} {s t : State} (hu : unitOf i = some .klv) (h : exec i s = .next t) :
    exec i (s.replay v a b) = .next (t.beside v a b) := by
  cases i with
  | addTimestamp x => cases h; simp only [exec, execAddTimestamp, appendItem_replay hv]
  | addRoll x => cases h; simp only [exec, execAddRoll, State.replay_build, appendFixed_replay hv]
  | addPitch x => cases h; simp only [exec, execAddPitch, State.replay_build, appendFixed_replay hv]
  | addHeading x => cases h; simp only [exec, execAddHeading, State.replay_build, appendFixed_replay hv]
  | addLatitude x => cases h; simp only [exec, execAddLatitude, State.replay_build, appendFixed_replay hv]
  | addLongitude x => cases h; simp only [exec, execAddLongitude, State.replay_build, appendFixed_replay hv]
  | addAltitude x => cases h; simp only [exec, execAddAltitude, State.replay_build, appendFixed_replay hv]
  | addHfov x => cases h; simp only [exec, execAddHfov, State.replay_build, appendFixed_replay hv]
  | addVfov x => cases h; simp only [exec, execAddVfov, State.replay_build, appendFixed_replay hv]
  | addGimbalRoll x => cases h; simp only [exec, execAddGimbalRoll, State.replay_build, appendFixed_replay hv]
  | addGimbalPitch x => cases h; simp only [exec, execAddGimbalPitch, State.replay_build, appendFixed_replay hv]
  | addGimbalYaw x => cases h; simp only [exec, execAddGimbalYaw, State.replay_build, appendFixed_replay hv]
  | addSensorWidth w => cases h; simp only [exec, execAddSensorWidth, appendItem_replay hv]
  | addSensorHeight w => cases h; simp only [exec, execAddSensorHeight, appendItem_replay hv]
  | addFocalLength w => cases h; simp only [exec, execAddFocalLength, appendItem_replay hv]
  | klvPack => cases h; simp only [exec, execKlvPack, State.replay_klvItems hv, respond_replay]
  | klvClear => cases h; rw [exec, execKlvClear, setKlvItems_replay hv, respond_replay]
  | _ => cases hu

end

/-! ## A command in progress -/

/-- The command in progress, had the other unit's command been performed before it. -/
def Work.replay (w : Work) (u : CoreUnit) (a b : State) : Work := { w with st := w.st.replay u a b }

section
variable {v : CoreUnit} {a b : State}

theorem begin_replay (s : State) : (s.replay v a b).begin = s.begin.replay v a b := rfl

theorem Work.finish_replay (w : Work) : (w.replay v a b).finish = w.finish.beside v a b :=
  respond_replay w.st w.records w.status

/-- A loop whose every round commutes with the other unit's command does. -/
theorem foldl_replay {α : Type} {f : Work → α → Work}
    (hf : ∀ w x, f (w.replay v a b) x = (f w x).replay v a b) (l : List α) (w : Work) :
    l.foldl f (w.replay v a b) = (l.foldl f w).replay v a b :=
  List.foldl_hom (fun w : Work => w.replay v a b) hf

end

/-! ## Unit TS -/

section
variable {v : CoreUnit} {a b : State} (hv : v ≠ .ts)
include hv

theorem State.replay_psiCtr (s : State) : (s.replay v a b).psiCtr = s.psiCtr := by
  cases v with
  | ts => exact absurd rfl hv
  | _ => rfl

theorem tsPacket_replay (p : TsPid) (pusi : Bool) (body : Bytes) (w : Work) :
    tsPacket p pusi body (w.replay v a b) = (tsPacket p pusi body w).replay v a b := by
  cases v with
  | ts => exact absurd rfl hv
  | _ => cases p <;> rfl

theorem injectTables_replay (w : Work) :
    injectTables (w.replay v a b) = (injectTables w).replay v a b := by
  have hctr : (w.replay v a b).st.psiCtr = w.st.psiCtr := State.replay_psiCtr hv w.st
  have hbuild : (w.replay v a b).st.build = w.st.build := State.replay_build w.st
  rw [injectTables, injectTables, hctr, hbuild]
  split_ifs
  · rw [tsPacket_replay hv, tsPacket_replay hv]
  · rfl

theorem advanceCadence_replay (w : Work) :
    advanceCadence (w.replay v a b) = (advanceCadence w).replay v a b := by
  cases v with
  | ts => exact absurd rfl hv
  | _ => rfl

theorem wrapPayload_replay (data : Bytes) (w : Work) :
    wrapPayload data (w.replay v a b) = (wrapPayload data w).replay v a b := by
  rw [wrapPayload, tsPacket_replay hv, foldl_replay fun w' body => tsPacket_replay hv .es false body w']
  rfl

theorem execTsWrap_replay {data : Bytes} {s t : State} (h : execTsWrap data s = .next t) :
    execTsWrap data (s.replay v a b) = .next (t.beside v a b) := by
  cases h
  rw [execTsWrap]
  split_ifs
  · rw [respond_replay]
  · rw [begin_replay, injectTables_replay hv, advanceCadence_replay hv, wrapPayload_replay hv,
      Work.finish_replay]

end

/-! ## Unit FRAG -/

section
variable {v : CoreUnit} {a b : State} (hv : v ≠ .frag)

theorem fragUnconfigured_replay (s : State) :
    fragUnconfigured (s.replay v a b) = fragUnconfigured s := by
  simp [fragUnconfigured]

include hv

theorem State.replay_nextId (s : State) : (s.replay v a b).nextId = s.nextId := by
  cases v with
  | frag => exact absurd rfl hv
  | _ => rfl

theorem State.replay_caches (s : State) :
    (s.replay v a b).cache0 = s.cache0 ∧ (s.replay v a b).cache1 = s.cache1 := by
  cases v with
  | frag => exact absurd rfl hv
  | _ => exact ⟨rfl, rfl⟩

theorem dropOne_replay (s : State) :
    { s.replay v a b with
      cnt := { (s.replay v a b).cnt with txDrop := (s.replay v a b).cnt.txDrop + 1 } } =
      { s with cnt := { s.cnt with txDrop := s.cnt.txDrop + 1 } }.replay v a b := by
  cases v with
  | frag => exact absurd rfl hv
  | _ => rfl

theorem advance_replay (w : Work) :
    { w.replay v a b with st := advanceId (w.replay v a b).st } =
      { w with st := advanceId w.st }.replay v a b := by
  cases v with
  | frag => exact absurd rfl hv
  | _ => rfl

theorem offer_replay (i : Nat) (urgent : Bool) (d : Bytes) (w : Work) :
    (w.replay v a b).offer i urgent d = (w.offer i urgent d).replay v a b := by
  have hrefusals : (w.replay v a b).st.refusals = w.st.refusals := State.replay_refusals w.st
  rw [Work.offer_eq, Work.offer_eq, hrefusals]
  split
  · rw [Work.replay, dropOne_replay hv]; rfl
  · rfl

theorem sendFrameA_replay (tag : Byte) (f : Bytes) (base : Nat) (w : Work) :
    sendFrameA tag f base (w.replay v a b) = (sendFrameA tag f base w).replay v a b := by
  have hcfg : (w.replay v a b).st.cfg = w.st.cfg := State.replay_cfg w.st
  have hid : (w.replay v a b).st.nextId = w.st.nextId := State.replay_nextId hv w.st
  rw [sendFrameA_eq, sendFrameA_eq, hcfg, hid, foldl_replay fun _ _ => offer_replay hv ..]
  exact advance_replay hv _

theorem sendDatagramB_replay (ts : BitVec 64) (c : Nat) (f : Bytes) (w : Work) (i : Nat) :
    sendDatagramB ts c f (w.replay v a b) i = (sendDatagramB ts c f w i).replay v a b := by
  have hid : (w.replay v a b).st.nextId = w.st.nextId := State.replay_nextId hv w.st
  rw [sendDatagramB, hid, offer_replay hv]
  exact advance_replay hv _

theorem cacheUnit_replay (tag : Byte) (f : Bytes) (s : State) :
    cacheUnit tag f (s.replay v a b) = (cacheUnit tag f s).replay v a b := by
  rw [cacheUnit, cacheUnit, State.replay_cfg]
  cases v with
  | frag => exact absurd rfl hv
  | _ => split_ifs <;> rfl

theorem resendUnit_replay (unit : Option Bytes) (tag : Byte) (base : Nat) (w : Work) :
    resendUnit unit tag base (w.replay v a b) = (resendUnit unit tag base w).replay v a b := by
  have hcfg : (w.replay v a b).st.cfg = w.st.cfg := State.replay_cfg w.st
  cases unit with
  | none => rfl
  | some f =>
    rw [resendUnit, resendUnit, hcfg]
    split_ifs
    · rw [Work.replay, count_replay (by simp [Raised.owner])]; rfl
    · exact sendFrameA_replay hv tag f base w

theorem fragSendA_replay (tag : Byte) (f : Bytes) (s : State) :
    fragSendA tag f (s.replay v a b) = (fragSendA tag f s).beside v a b := by
  rw [fragSendA, fragSendA, State.replay_cfg]
  split_ifs
  · exact respond_replay s [] .ok
  · exact raise_replay (by simp [Raised.owner]) s
  · rw [cacheUnit_replay hv, begin_replay, sendFrameA_replay hv, Work.finish_replay]

theorem fragSendB_replay (ts : BitVec 64) (f : Bytes) (s : State) :
    fragSendB ts f (s.replay v a b) = (fragSendB ts f s).beside v a b := by
  rw [fragSendB, fragSendB, State.replay_cfg]
  split_ifs
  · exact respond_replay s [] .ok
  · simp only [begin_replay, foldl_replay (sendDatagramB_replay hv ts _ f), Work.finish_replay]

theorem execFragSend_replay {tag : Byte} {ts : BitVec 64} {f : Bytes} {s t : State}
    (h : execFragSend tag ts f s = .next t) :
    execFragSend tag ts f (s.replay v a b) = .next (t.beside v a b) := by
  cases h
  rw [execFragSend, fragUnconfigured_replay, State.replay_cfg]
  split_ifs
  · rw [raise_replay (by simp [Raised.owner])]
  · cases s.cfg.fragVariant with
    | unset => exact congrArg Host.Outcome.next (raise_replay (by simp [Raised.owner]) s)
    | a => exact congrArg Host.Outcome.next (fragSendA_replay hv tag f s)
    | b => exact congrArg Host.Outcome.next (fragSendB_replay hv ts f s)

theorem execFragRefresh_replay {s t : State} (h : execFragRefresh s = .next t) :
    execFragRefresh (s.replay v a b) = .next (t.beside v a b) := by
  obtain ⟨hcache0, hcache1⟩ := State.replay_caches (a := a) (b := b) hv s
  cases h
  rw [execFragRefresh, fragUnconfigured_replay, State.replay_cfg, hcache0, hcache1]
  split_ifs
  · rw [raise_replay (by simp [Raised.owner])]
  · rw [begin_replay, resendUnit_replay hv, resendUnit_replay hv, Work.finish_replay]

end

/-! ## Unit RX -/

section
variable {v : CoreUnit} {a b : State} (hv : v ≠ .rx)
include hv

theorem State.replay_rxTable (s : State) : (s.replay v a b).rxTable = s.rxTable := by
  cases v with
  | rx => exact absurd rfl hv
  | _ => rfl

theorem State.replay_outq (s : State) : (s.replay v a b).outq = s.outq := by
  cases v with
  | rx => exact absurd rfl hv
  | _ => rfl

theorem setOutq_replay (items : List OutItem) (s : State) :
    { s.replay v a b with outq := items } = { s with outq := items }.replay v a b := by
  cases v with
  | rx => exact absurd rfl hv
  | _ => rfl

theorem setRxTable_replay (t : FrameTable) (s : State) :
    { s.replay v a b with rxTable := t } = { s with rxTable := t }.replay v a b := by
  cases v with
  | rx => exact absurd rfl hv
  | _ => rfl

theorem complete_replay (t : FrameTable) (s : State) :
    { s.replay v a b with
      rxTable := t
      cnt := { (s.replay v a b).cnt with rxFrames := inc32 (s.replay v a b).cnt.rxFrames } } =
      { s with rxTable := t, cnt := { s.cnt with rxFrames := inc32 s.cnt.rxFrames } }.replay v a b := by
  cases v with
  | rx => exact absurd rfl hv
  | _ => rfl

theorem countEvicted_replay (n : Nat) (s : State) :
    countEvicted n (s.replay v a b) = (countEvicted n s).replay v a b := by
  cases v with
  | rx => exact absurd rfl hv
  | _ => rfl

theorem pushOut_replay (item : OutItem) (s : State) :
    pushOut item (s.replay v a b) = (pushOut item s).replay v a b := by
  rw [pushOut, pushOut, State.replay_outq hv, State.replay_build]
  cases v with
  | rx => exact absurd rfl hv
  | _ => split_ifs <;> rfl

theorem countDup_replay (h : ChunkHeader) (e : Entry) (s : State) :
    countDup h e (s.replay v a b) = (countDup h e s).replay v a b := by
  unfold countDup
  cases v with
  | rx => exact absurd rfl hv
  | _ => split_ifs <;> rfl

theorem storeInto_replay (h : ChunkHeader) (e : Entry) (s : State) :
    storeInto h e (s.replay v a b) = (storeInto h e s).replay v a b := by
  rw [storeInto, storeInto, countDup_replay hv, State.replay_rxTable hv]
  split_ifs
  · rw [complete_replay hv, pushOut_replay hv]
  · rw [setRxTable_replay hv]

theorem receiveChunk_replay (h : ChunkHeader) (s : State) :
    receiveChunk h (s.replay v a b) = (receiveChunk h s).beside v a b := by
  have hbound : (s.replay v a b).cfg.rxMaxFrames = s.cfg.rxMaxFrames := by rw [State.replay_cfg]
  rw [receiveChunk, receiveChunk, State.replay_rxTable hv]
  cases mapGet h.fid s.rxTable with
  | some e => simp only [storeInto_replay hv, respond_replay]
  | none =>
    simp only [hbound, setRxTable_replay hv, countEvicted_replay hv]
    split_ifs
    · rw [storeInto_replay hv, respond_replay]
    · exact raise_replay (e := .rxOldest) (by simpa [Raised.owner] using hv.symm) _

theorem execRxPacket_replay {d : Bytes} {s t : State} (h : execRxPacket d s = .next t) :
    execRxPacket d (s.replay v a b) = .next (t.beside v a b) := by
  have hshort : Raised.rxShort.owner ≠ some v := by simpa [Raised.owner] using hv.symm
  cases h
  rw [execRxPacket, State.replay_cfg]
  cases s.cfg.fragVariant with
  | unset => exact congrArg Host.Outcome.next (raise_replay (by simp [Raised.owner]) s)
  | a =>
    simp only
    split_ifs
    · rw [raise_replay hshort]
    · rw [receiveChunk_replay hv]
  | b =>
    simp only
    split_ifs
    · rw [raise_replay hshort]
    · rw [pushOut_replay hv, respond_replay]

theorem execRxPop_replay {s t : State} (h : execRxPop s = .next t) :
    execRxPop (s.replay v a b) = .next (t.beside v a b) := by
  cases h
  rw [execRxPop, State.replay_outq hv]
  cases s.outq with
  | nil => exact congrArg Host.Outcome.next (respond_replay s [] .ok)
  | cons item rest => simp only [setOutq_replay hv, respond_replay]

end

/-! ## Two commands -/

/-- R61: performing a command of another unit first changes neither what a command does nor its response. -/
theorem exec_replay {i : Instr} {u v : CoreUnit} {a b s t : State} (hu : unitOf i = some u) (hv : v ≠ u)
    (h : exec i s = .next t) : exec i (s.replay v a b) = .next (t.beside v a b) := by
  cases u with
  | klv => exact exec_klv_replay hv hu h
  | ts =>
    cases i with
    | tsWrap data => exact execTsWrap_replay hv h
    | _ => cases hu
  | frag =>
    cases i with
    | fragSend tag ts f => exact execFragSend_replay hv h
    | fragRefresh => exact execFragRefresh_replay hv h
    | _ => cases hu
  | rx =>
    cases i with
    | rxPacket d => exact execRxPacket_replay hv h
    | rxPop => exact execRxPop_replay hv h
    | _ => cases hu

/-- The second of two commands of different units, `j` after `i`, ends beside `i` where it ends alone. -/
theorem exec_after_other {i j : Instr} {u v : CoreUnit} {s si sj sij : State} (hu : unitOf i = some u)
    (hv : unitOf j = some v) (huv : u ≠ v) (hi : exec i s = .next si) (hj : exec j s = .next sj)
    (hij : exec j si = .next sij) : sij = sj.beside u s si := by
  have hreplay := exec_replay (a := s) (b := si) hv huv hj
  rw [← (exec_unitFrame hu hi).eq_replay, hij] at hreplay
  cases hreplay
  rfl

/-- Settles O13. The statuses play no part: a command that raises an error of a shared counter increments it,
and increments commute too. -/
theorem commandsOfDifferentUnitsCommute : Obligations.CommandsOfDifferentUnitsCommute := by
  intro i j u v s si sij sj sji hu hv huv hi hij hj hji _ _ _ _
  have hsij : sij = sj.beside u s si := exec_after_other hu hv huv hi hj hij
  have hsji : sji = si.beside v s sj := exec_after_other hv hu huv.symm hj hi hji
  have hsi : si = s.replay u s si := (exec_unitFrame hu hi).eq_replay
  have hsj : sj = s.replay v s sj := (exec_unitFrame hv hj).eq_replay
  refine ⟨?_, by rw [hsji]; rfl, by rw [hsij]; rfl⟩
  calc { sij with resp := none }
      = { sj.replay u s si with resp := none } := by rw [hsij]; rfl
    _ = { (s.replay v s sj).replay u s si with resp := none } := by rw [← hsj]
    _ = { (s.replay u s si).replay v s sj with resp := none } := State.replay_comm huv ..
    _ = { si.replay v s sj with resp := none } := by rw [← hsi]
    _ = { sji with resp := none } := by rw [hsji]; rfl

end Sys2Proof.Machine
end

section
/-! PROOFS. The encoding of commands: how a byte string falls into opcode, length and argument, what the opcode
map reads from each argument format, and the two round trips that follow (spec/30_encoding.md R70 to R75, R78). -/

namespace Sys2Proof.Machine

/-! ## The framing of a command -/

/-- Behind five bytes the decoder goes by `alen` alone: the argument is whole or it is not (R75). -/
theorem decode_header (op a3 a2 a1 a0 : Byte) (tail : Bytes) :
    decode (op :: a3 :: a2 :: a1 :: a0 :: tail) =
      if tail.length < fromBe [a3, a2, a1, a0] then .truncated
      else
        (decodeArg op (tail.take (fromBe [a3, a2, a1, a0]))).elim
          (.illegal op (tail.drop (fromBe [a3, a2, a1, a0])))
          (.command · (tail.drop (fromBe [a3, a2, a1, a0]))) := by
  simp only [decode]
  split
  · rfl
  · cases decodeArg op (tail.take (fromBe [a3, a2, a1, a0])) <;> rfl

/-- A whole command is what its opcode and argument bytes say; the bytes after it are left (R70, R73). -/
theorem decode_framed (op : Byte) {arg : Bytes} (rest : Bytes) (hlen : arg.length < 2 ^ 32) :
    decode (op :: (be 4 arg.length ++ arg ++ rest)) =
      (decodeArg op arg).elim (.illegal op rest) (.command · rest) := by
  have halen : fromBe (be 4 arg.length) = arg.length := fromBe_be (by omega)
  rw [be_four] at halen ⊢
  simp only [List.cons_append, List.nil_append]
  rw [decode_header, halen, if_neg (by simp), List.take_left, List.drop_left]

theorem decode_of_short {b : Bytes} (h : b.length < 5) : decode b = .truncated := by
  match b with
  | [] | [_] | [_, _] | [_, _, _] | [_, _, _, _] => rfl
  | _ :: _ :: _ :: _ :: _ :: _ => simp at h; omega

/-- A byte string ends inside its first command, or begins with an opcode, the length of an argument and that
argument (R70, R75). -/
theorem decode_truncated_or_framed (b : Bytes) :
    decode b = .truncated ∨
      ∃ op arg rest, arg.length < 2 ^ 32 ∧ b = op :: (be 4 arg.length ++ arg ++ rest) := by
  match b with
  | [] | [_] | [_, _] | [_, _, _] | [_, _, _, _] => exact .inl rfl
  | op :: a3 :: a2 :: a1 :: a0 :: tail =>
    by_cases hshort : tail.length < fromBe [a3, a2, a1, a0]
    · left
      rw [decode_header, if_pos hshort]
    · right
      have hlen : (tail.take (fromBe [a3, a2, a1, a0])).length = fromBe [a3, a2, a1, a0] := by
        rw [List.length_take]
        omega
      refine ⟨op, tail.take (fromBe [a3, a2, a1, a0]), tail.drop (fromBe [a3, a2, a1, a0]), ?_, ?_⟩
      · rw [hlen]
        exact (fromBe_lt [a3, a2, a1, a0]).trans_eq (by norm_num)
      · have hhead : be 4 (fromBe [a3, a2, a1, a0]) = [a3, a2, a1, a0] := be_fromBe [a3, a2, a1, a0]
        rw [hlen, hhead, List.append_assoc, List.take_append_drop]
        rfl

/-- Only a whole command whose argument the opcode map accepts is decoded to a command. -/
theorem decode_eq_command {b rest : Bytes} {i : Instr} (h : decode b = .command i rest) :
    ∃ op arg, arg.length < 2 ^ 32 ∧ decodeArg op arg = some i ∧
      b = op :: (be 4 arg.length ++ arg ++ rest) := by
  rcases decode_truncated_or_framed b with htrunc | ⟨op, arg, rest', hlen, rfl⟩
  · rw [htrunc] at h
    cases h
  · rw [decode_framed op rest' hlen] at h
    cases hread : decodeArg op arg with
    | none =>
      rw [hread] at h
      cases h
    | some j =>
      rw [hread] at h
      cases h
      exact ⟨op, arg, hlen, hread, rfl⟩

/-! ## The argument formats: the lengths they take -/

@[simp] theorem argN_isSome (i : Instr) (arg : Bytes) : (argN i arg).isSome ↔ arg.length = 0 := by
  simp [argN]

@[simp] theorem arg64_isSome (mk : BitVec 64 → Instr) (arg : Bytes) :
    (arg64 mk arg).isSome ↔ arg.length = 8 := by
  simp [arg64]

@[simp] theorem arg32_isSome (mk : BitVec 32 → Instr) (arg : Bytes) :
    (arg32 mk arg).isSome ↔ arg.length = 4 := by
  simp [arg32]

@[simp] theorem argSend_isSome (arg : Bytes) : (argSend arg).isSome ↔ 9 ≤ arg.length := by
  simp [argSend]

@[simp] theorem argCsrw_isSome (arg : Bytes) : (argCsrw arg).isSome ↔ arg.length = 5 := by
  simp [argCsrw]

@[simp] theorem argCsrr_isSome (arg : Bytes) : (argCsrr arg).isSome ↔ arg.length = 1 := by
  simp [argCsrr]

/-- The opcode map accepts an argument exactly when the opcode is of R72 and its format admits the length
(R71, R73). The last case is the reserved opcodes (R74). -/
theorem decodeArg_isSome_iff (op : Byte) (arg : Bytes) :
    (decodeArg op arg).isSome ↔ FormatAdmits op.toNat arg.length := by
  unfold decodeArg FormatAdmits
  split
  case h_26 => simp_all
  all_goals simp [*]

theorem decodeArg_eq_none_iff (op : Byte) (arg : Bytes) :
    decodeArg op arg = none ↔ ¬ FormatAdmits op.toNat arg.length := by
  rw [← decodeArg_isSome_iff, Option.not_isSome_iff_eq_none]

/-! ## The argument formats: what is read is what was written -/

/-- A byte string of `n` bytes is the field of the number it spells, held in a word of that size. -/
theorem be_toNat_ofNat_fromBe {n w : Nat} {b : Bytes} (hlen : b.length = n) (hw : 256 ^ n = 2 ^ w) :
    be n (BitVec.ofNat w (fromBe b)).toNat = b := by
  subst hlen
  rw [BitVec.toNat_ofNat, ← hw, be_mod, be_fromBe]

/-- The opcode and the argument bytes are those the encoder writes for the command. -/
def Spells (op : Byte) (arg : Bytes) (i : Instr) : Prop := op = i.opcode ∧ arg = i.args

section
variable {op : Byte} {arg : Bytes} {i : Instr}

theorem spells_of_argN {j : Instr} (h : argN j arg = some i) (hop : op.toNat = j.opcode.toNat)
    (hargs : j.args = []) : Spells op arg i := by
  unfold argN at h
  split_ifs at h with hlen
  cases h
  exact ⟨BitVec.eq_of_toNat_eq hop, by rw [hargs, List.eq_nil_of_length_eq_zero hlen]⟩

theorem spells_of_arg64 {mk : BitVec 64 → Instr} (h : arg64 mk arg = some i)
    (hop : ∀ x, op.toNat = (mk x).opcode.toNat) (hargs : ∀ x, (mk x).args = be 8 x.toNat) : Spells op arg i := by
  unfold arg64 at h
  split_ifs at h with hlen
  cases h
  exact ⟨BitVec.eq_of_toNat_eq (hop _), by rw [hargs, be_toNat_ofNat_fromBe hlen (by norm_num)]⟩

theorem spells_of_arg32 {mk : BitVec 32 → Instr} (h : arg32 mk arg = some i)
    (hop : ∀ w, op.toNat = (mk w).opcode.toNat) (hargs : ∀ w, (mk w).args = be 4 w.toNat) : Spells op arg i := by
  unfold arg32 at h
  split_ifs at h with hlen
  cases h
  exact ⟨BitVec.eq_of_toNat_eq (hop _), by rw [hargs, be_toNat_ofNat_fromBe hlen (by norm_num)]⟩

theorem spells_of_argSend (h : argSend arg = some i) (hop : op.toNat = 0xA0) : Spells op arg i := by
  unfold argSend at h
  split_ifs at h with hlen
  cases h
  refine ⟨BitVec.eq_of_toNat_eq hop, ?_⟩
  obtain _ | ⟨tag, tail⟩ := arg
  · simp at hlen
  · have hts : (slice (tag :: tail) 1 9).length = 8 := by
      rw [slice_length]
      omega
    simp only [Instr.args]
    rw [be_toNat_ofNat_fromBe hts (by norm_num)]
    simp [slice]

theorem spells_of_argCsrw (h : argCsrw arg = some i) (hop : op.toNat = 0xC0) : Spells op arg i := by
  unfold argCsrw at h
  split_ifs at h with hlen
  cases h
  refine ⟨BitVec.eq_of_toNat_eq hop, ?_⟩
  obtain _ | ⟨csr, tail⟩ := arg
  · simp at hlen
  · have hvalue : slice (csr :: tail) 1 5 = tail := by
      simp only [List.length_cons] at hlen
      simp [slice, List.take_of_length_le (show tail.length ≤ 4 by omega)]
    have htail : tail.length = 4 := by simpa using hlen
    simp only [Instr.args, hvalue]
    rw [be_toNat_ofNat_fromBe htail (by norm_num)]
    rfl

theorem spells_of_argCsrr (h : argCsrr arg = some i) (hop : op.toNat = 0xC1) : Spells op arg i := by
  unfold argCsrr at h
  split_ifs at h with hlen
  cases h
  refine ⟨BitVec.eq_of_toNat_eq hop, ?_⟩
  obtain ⟨csr, rfl⟩ := List.length_eq_one_iff.1 hlen
  rfl

/-- The opcode map gives a command only for its own opcode and its own argument bytes (R71, R72). The rows are
split by format: 18 and 21 are `BLOB`, 26 is no row. -/
theorem spells_of_decodeArg (h : decodeArg op arg = some i) : Spells op arg i := by
  unfold decodeArg at h
  split at h
  case h_18 hop => cases h; exact ⟨BitVec.eq_of_toNat_eq hop, rfl⟩
  case h_21 hop => cases h; exact ⟨BitVec.eq_of_toNat_eq hop, rfl⟩
  case h_13 hop | h_14 hop | h_15 hop => exact spells_of_arg32 h (fun _ => hop) (fun _ => rfl)
  case h_16 hop | h_17 hop | h_20 hop | h_22 hop | h_25 hop => exact spells_of_argN h hop rfl
  case h_19 hop => exact spells_of_argSend h hop
  case h_23 hop => exact spells_of_argCsrw h hop
  case h_24 hop => exact spells_of_argCsrr h hop
  case h_26 => cases h
  all_goals exact spells_of_arg64 h (fun _ => ‹_›) (fun _ => rfl)

end

/-- The opcode map reads the argument bytes of every command as the command (R71, R72, R78). -/
theorem decodeArg_args (i : Instr) : decodeArg i.opcode i.args = some i := by
  cases i with
  | addTimestamp v => exact Laws.ArgsDecode.addTimestamp v
  | addRoll x => exact Laws.ArgsDecode.addRoll x
  | addPitch x => exact Laws.ArgsDecode.addPitch x
  | addHeading x => exact Laws.ArgsDecode.addHeading x
  | addLatitude x => exact Laws.ArgsDecode.addLatitude x
  | addLongitude x => exact Laws.ArgsDecode.addLongitude x
  | addAltitude x => exact Laws.ArgsDecode.addAltitude x
  | addHfov x => exact Laws.ArgsDecode.addHfov x
  | addVfov x => exact Laws.ArgsDecode.addVfov x
  | addGimbalRoll x => exact Laws.ArgsDecode.addGimbalRoll x
  | addGimbalPitch x => exact Laws.ArgsDecode.addGimbalPitch x
  | addGimbalYaw x => exact Laws.ArgsDecode.addGimbalYaw x
  | addSensorWidth w => exact Laws.ArgsDecode.addSensorWidth w
  | addSensorHeight w => exact Laws.ArgsDecode.addSensorHeight w
  | addFocalLength w => exact Laws.ArgsDecode.addFocalLength w
  | klvPack => exact Laws.ArgsDecode.klvPack
  | klvClear => exact Laws.ArgsDecode.klvClear
  | tsWrap data => exact Laws.ArgsDecode.tsWrap data
  | fragSend tag ts f => exact Laws.ArgsDecode.fragSend tag ts f
  | fragRefresh => exact Laws.ArgsDecode.fragRefresh
  | rxPacket d => exact Laws.ArgsDecode.rxPacket d
  | rxPop => exact Laws.ArgsDecode.rxPop
  | cfgWrite csr value => exact Laws.ArgsDecode.cfgWrite csr value
  | csrRead csr => exact Laws.ArgsDecode.csrRead csr
  | reset => exact Laws.ArgsDecode.reset

/-- A command is well-formed exactly when `alen` can state the length of its argument (R70). -/
theorem wellFormed_iff_args_length (i : Instr) : i.wellFormed = true ↔ i.args.length < 2 ^ 32 := by
  cases i with
  | fragSend tag ts f =>
    simp only [Instr.wellFormed, Instr.args, decide_eq_true_iff, List.length_cons, List.length_append,
      be_length]
    omega
  | _ => simp [Instr.wellFormed, Instr.args]

/-! ## What a step does with bytes that are no command -/

theorem step_of_illegal {s : State} {op : Byte} {rest : Bytes} (h : decode s.cmdIn = .illegal op rest) :
    step s = .next (afterIllegal (s.latch rest)) := by
  have hne : s.cmdIn.isEmpty = false := cmdIn_isEmpty_of_decode (by simp [h])
  simp [step, fetch, hne, h, execIllegal, raise_illegal]

theorem step_of_truncated {s : State} (hne : s.cmdIn ≠ []) (h : decode s.cmdIn = .truncated) :
    step s = .refused .truncatedCommand := by
  simp [step, fetch, hne, h]

/-! ## The statements -/

/-- Settles O2: a well-formed command is framed by its own length, and the opcode map reads back every
argument. -/
theorem decodeOfEncodeIsTheCommand : Obligations.DecodeOfEncodeIsTheCommand := by
  intro i rest hwf
  calc decode (encode i ++ rest)
      = (decodeArg i.opcode i.args).elim (.illegal i.opcode rest) (.command · rest) :=
        decode_framed i.opcode rest ((wellFormed_iff_args_length i).1 hwf)
    _ = .command i rest := by rw [decodeArg_args, Option.elim_some]

/-- Settles O3: the bytes are framed, and the opcode map accepts only what the encoder writes. -/
theorem decodedBytesAreTheEncoding : Obligations.DecodedBytesAreTheEncoding := by
  intro b i rest h
  obtain ⟨op, arg, hlen, hread, rfl⟩ := decode_eq_command h
  obtain ⟨rfl, rfl⟩ := spells_of_decodeArg hread
  exact ⟨(wellFormed_iff_args_length i).2 hlen, rfl⟩

/-- Settles O4, by whether the format admits the length. -/
theorem illegalCommandsAreConsumedAndCounted : Obligations.IllegalCommandsAreConsumedAndCounted := by
  intro op arg rest hlen
  refine ⟨fun hadmits => ?_, fun hrefused s hport => ?_⟩
  · obtain ⟨i, hread⟩ := Option.isSome_iff_exists.1 ((decodeArg_isSome_iff op arg).2 hadmits)
    exact ⟨i, by rw [decode_framed op rest hlen, hread, Option.elim_some]⟩
  · have hread : decodeArg op arg = none := (decodeArg_eq_none_iff op arg).2 hrefused
    have hdecode : decode s.cmdIn = .illegal op rest := by
      rw [hport, decode_framed op rest hlen, hread, Option.elim_none]
    exact step_of_illegal hdecode

/-- `RX_POP` with an item queued takes it and only responds besides (R220). -/
theorem perform_rxPop_cons {s : State} {item : OutItem} {queue : List OutItem} (h : s.outq = item :: queue) :
    perform .rxPop s =
      afterRecords { s with outq := queue } [{ port := .frameOut, flags := 0, data := itemBytes item }] := by
  simp only [perform, exec, execRxPop, h]
  rfl

/-- As many `RX_POP`s as items are queued leave the queue empty and the rest as it was, the response apart. -/
theorem popTimes_outq_length {n : Nat} {s : State} (h : s.outq.length = n) :
    { (popTimes n s).1 with resp := none } = { s with outq := [], resp := none } := by
  induction n generalizing s with
  | zero =>
    have hempty : s.outq = [] := List.eq_nil_of_length_eq_zero h
    rw [popTimes, ← hempty]
  | succ n ih =>
    obtain ⟨item, queue, hqueue⟩ := List.exists_cons_of_length_eq_add_one h
    have hpop := perform_rxPop_cons hqueue
    have hleft : (perform .rxPop s).outq.length = n := by
      rw [hpop]
      simpa [hqueue, afterRecords] using h
    calc { (popTimes (n + 1) s).1 with resp := none }
        = { perform .rxPop s with outq := [], resp := none } := ih hleft
      _ = { s with outq := [], resp := none } := by rw [hpop]; rfl

/-- Settles O59: `RECV` pops as often as items are queued. -/
theorem recvDrainsTheQueue : Obligations.RecvDrainsTheQueue :=
  fun _ _ => popTimes_outq_length rfl

/-- Settles O1, by running the decoder on the nine byte strings. -/
theorem writtenCommandsDecode : Obligations.WrittenCommandsDecode := by
  unfold Obligations.WrittenCommandsDecode
  decide

/-- Settles O5: no format admits any length under a reserved opcode. -/
theorem reservedOpcodesAreIllegal : Obligations.ReservedOpcodesAreIllegal := by
  intro op arg rest hlen hreserved
  have hrefused : ¬ FormatAdmits op.toNat arg.length := by
    simp only [FormatAdmits, List.mem_cons, List.not_mem_nil, or_false] at hreserved ⊢
    omega
  rw [decode_framed op rest hlen, (decodeArg_eq_none_iff op arg).2 hrefused, Option.elim_none]

/-- Settles O6: behind the header the decoder branches on the number of bytes left, then on the opcode map. -/
theorem commandEndsWhereAlenSays : Obligations.CommandEndsWhereAlenSays := by
  refine ⟨fun op a3 a2 a1 a0 tail => ⟨fun hshort => ?_, fun hwhole => ?_⟩, fun _ => decode_of_short,
    fun _ => step_of_truncated⟩
  · rw [decode_header, if_pos hshort]
  · rw [decode_header, if_neg (Nat.not_lt.2 hwhole)]
    cases decodeArg op (tail.take (fromBe [a3, a2, a1, a0])) with
    | none => exact .inr rfl
    | some i => exact .inl ⟨i, rfl⟩

end Sys2Proof.Machine
end

section
/-! PROOFS. The scaled integer is determined by the product it rounds (spec/00_scope.md R14): at most one
binary64 value and one integer is nearest, and rounding passes no bound that is itself representable. -/

namespace Sys2Proof.Machine

/-! ## The order of the binary64 magnitudes -/

/-- The magnitude, in units of the least positive binary64, that 63 bits below the sign stand for. -/
def f64MagOfBits (bits : ℕ) : ℕ :=
  (if bits / 2 ^ 52 = 0 then bits % 2 ^ 52 else 2 ^ 52 + bits % 2 ^ 52) * 2 ^ (max (bits / 2 ^ 52) 1 - 1)

/-- The bits below the sign. -/
def f64Bits (x : BitVec 64) : ℕ := x.toNat % 2 ^ 63

theorem f64Exp_eq_bits_div (x : BitVec 64) : f64Exp x = f64Bits x / 2 ^ 52 := by
  unfold f64Exp f64Bits
  omega

theorem f64Frac_eq_bits_mod (x : BitVec 64) : f64Frac x = f64Bits x % 2 ^ 52 := by
  unfold f64Frac f64Bits
  omega

theorem f64Rat_eq_magOfBits (x : BitVec 64) :
    f64Rat x = (if x.msb then -1 else 1) * (f64MagOfBits (f64Bits x) * f64Ulp) := by
  rw [f64Rat_eq_mant_mul, f64MagOfBits, f64Mant, f64Scale, f64Exp_eq_bits_div, f64Frac_eq_bits_mod]
  push_cast
  ring

theorem abs_f64Rat_eq_magOfBits (x : BitVec 64) : |f64Rat x| = f64MagOfBits (f64Bits x) * f64Ulp := by
  have hpos := f64Ulp_pos
  have hsign : |(if x.msb then -1 else 1 : ℚ)| = 1 := by split <;> simp
  rw [f64Rat_eq_magOfBits, abs_mul, hsign, one_mul, abs_of_nonneg (by positivity)]

/-- Of two magnitudes the one with the greater bits is the greater: the next fraction, or where the fraction
is full the next exponent. -/
theorem f64MagOfBits_strictMono : StrictMono f64MagOfBits := by
  refine strictMono_nat_of_lt_succ fun bits => ?_
  rcases Nat.lt_or_ge (bits % 2 ^ 52 + 1) (2 ^ 52) with hroom | hfull
  · have hexp : (bits + 1) / 2 ^ 52 = bits / 2 ^ 52 := by omega
    have hfrac : (bits + 1) % 2 ^ 52 = bits % 2 ^ 52 + 1 := by omega
    rw [f64MagOfBits, f64MagOfBits, hexp, hfrac]
    refine Nat.mul_lt_mul_of_pos_right ?_ (by positivity)
    split_ifs <;> omega
  · have hexp : (bits + 1) / 2 ^ 52 = bits / 2 ^ 52 + 1 := by omega
    have hfrac : (bits + 1) % 2 ^ 52 = 0 := by omega
    have hlast : bits % 2 ^ 52 = 2 ^ 52 - 1 := by omega
    rw [f64MagOfBits, f64MagOfBits, hexp, hfrac, hlast, if_neg (Nat.succ_ne_zero _)]
    cases bits / 2 ^ 52 with
    | zero => norm_num
    | succ e =>
      have hpos : 0 < 2 ^ e := by positivity
      simp only [Nat.add_one_ne_zero, if_false, Nat.max_eq_left (Nat.le_add_left 1 _),
        Nat.add_sub_cancel, pow_succ 2 e]
      omega

/-- Between two magnitudes of even fraction lies a third, of either sign. -/
theorem exists_f64_between {x z : BitVec 64} (hx : f64Frac x % 2 = 0) (hz : f64Frac z % 2 = 0)
    (hfin : f64Finite z = true) (hlt : |f64Rat x| < |f64Rat z|) (neg : Bool) :
    ∃ w, f64Finite w = true ∧ w.msb = neg ∧ |f64Rat x| < |f64Rat w| ∧ |f64Rat w| < |f64Rat z| := by
  have hpos := f64Ulp_pos
  simp only [abs_f64Rat_eq_magOfBits, mul_lt_mul_iff_left₀ hpos, Nat.cast_lt,
    f64MagOfBits_strictMono.lt_iff_lt] at hlt ⊢
  rw [f64Frac_eq_bits_mod] at hx hz
  rw [f64Finite, f64Exp_eq_bits_div, bne_iff_ne] at hfin
  have hzlt : f64Bits z < 2 ^ 63 := Nat.mod_lt _ (by norm_num)
  have hbelow : f64Bits z - 1 < 2 ^ 63 := by omega
  have hbits : f64Bits (f64OfBits neg (f64Bits z - 1)) = f64Bits z - 1 := by
    rw [f64Bits, f64OfBits_toNat neg hbelow]
    split <;> omega
  refine ⟨f64OfBits neg (f64Bits z - 1), ?_, f64OfBits_msb neg hbelow, ?_, ?_⟩
  · rw [f64Finite, f64OfBits_exp neg hbelow, bne_iff_ne]
    omega
  · omega
  · omega

theorem f64Rat_eq_sign_mul_abs (x : BitVec 64) : f64Rat x = (if x.msb then -1 else 1) * |f64Rat x| := by
  rw [abs_f64Rat_eq_magOfBits, ← f64Rat_eq_magOfBits]

/-! ## One nearest binary64 -/

section
variable {q : ℚ} {y z w : BitVec 64}

theorem NearestF64.finite (h : NearestF64 q y) : f64Finite y = true := h.1

theorem NearestF64.abs_sub_le (h : NearestF64 q y) (hz : f64Finite z = true) :
    |q - f64Rat y| ≤ |q - f64Rat z| := h.2.1 z hz

theorem NearestF64.even_of_tie (h : NearestF64 q y) (hz : f64Finite z = true) (hne : f64Rat z ≠ f64Rat y)
    (heq : |q - f64Rat z| = |q - f64Rat y|) : f64Frac y % 2 = 0 := h.2.2 z hz hne heq

/-- A number strictly between two others is nearer than one of them. -/
theorem abs_sub_lt_or_lt_of_between {c a b : ℚ} (hac : a < c) (hcb : c < b) :
    |q - c| < |q - a| ∨ |q - c| < |q - b| := by
  rcases le_total q c with h | h
  · right
    rw [abs_of_nonpos (sub_nonpos.2 h), abs_of_nonpos (by linarith)]
    linarith
  · left
    rw [abs_of_nonneg (sub_nonneg.2 h), abs_of_nonneg (by linarith)]
    linarith

theorem NearestF64.not_between (hy : NearestF64 q y) (hz : NearestF64 q z) (hw : f64Finite w = true)
    (hyw : f64Rat y < f64Rat w) : ¬ f64Rat w < f64Rat z := fun hwz =>
  (abs_sub_lt_or_lt_of_between hyw hwz).elim (hy.abs_sub_le hw).not_gt (hz.abs_sub_le hw).not_gt

/-- Two nearest binary64 values of different magnitude would both have even fractions, and one between them
would be nearer. -/
theorem NearestF64.abs_not_lt (hy : NearestF64 q y) (hz : NearestF64 q z) : ¬ |f64Rat y| < |f64Rat z| := by
  intro hlt
  have hne : f64Rat z ≠ f64Rat y := fun h => hlt.ne (by rw [h])
  have heq : |q - f64Rat z| = |q - f64Rat y| :=
    le_antisymm (hz.abs_sub_le hy.finite) (hy.abs_sub_le hz.finite)
  obtain ⟨w, hw, hsign, hyw, hwz⟩ := exists_f64_between (hy.even_of_tie hz.finite hne heq)
    (hz.even_of_tie hy.finite hne.symm heq.symm) hz.finite hlt z.msb
  obtain ⟨hlow, hhigh⟩ := abs_le.1 (le_refl |f64Rat y|)
  have hwval := f64Rat_eq_sign_mul_abs w
  have hzval := f64Rat_eq_sign_mul_abs z
  rw [hsign] at hwval
  cases hs : z.msb <;> simp only [hs, if_true, Bool.false_eq_true, if_false] at hwval hzval
  · exact hy.not_between hz hw (by linarith) (by linarith)
  · exact hz.not_between hy hw (by linarith) (by linarith)

/-- `fl(q)` is one value: nearest values of one magnitude and opposite signs would have 0 between them. -/
theorem NearestF64.rat_unique (hy : NearestF64 q y) (hz : NearestF64 q z) : f64Rat y = f64Rat z := by
  by_contra hne
  have habs : |f64Rat y| = |f64Rat z| := le_antisymm (not_lt.1 (hz.abs_not_lt hy)) (not_lt.1 (hy.abs_not_lt hz))
  have hopp : f64Rat y = -f64Rat z := (abs_eq_abs.1 habs).resolve_left hne
  have hzero : f64Finite 0 = true := by decide
  rcases lt_trichotomy (f64Rat z) 0 with h | h | h
  · exact hz.not_between hy hzero (by rwa [f64Rat_zero]) (by rw [f64Rat_zero]; linarith)
  · exact hne (by rw [hopp, h, neg_zero])
  · exact hy.not_between hz hzero (by rw [f64Rat_zero]; linarith) (by rwa [f64Rat_zero])

end

/-! ## Rounding passes no representable bound -/

/-- An integer of at most 53 bits is a binary64. -/
theorem exists_f64_of_int {n : ℤ} (hn : |n| ≤ 2 ^ 53) : ∃ y, f64Finite y = true ∧ f64Rat y = n := by
  have hone : (2 : ℚ) ^ 1074 * f64Ulp = 1 := by simpa using two_pow_add_mul_f64Ulp 0
  have hnat : n.natAbs ≤ 2 ^ 53 := by rw [Int.abs_eq_natAbs] at hn; omega
  have hlt : (n.natAbs : ℚ) * (2 ^ 1074 * f64Ulp) < 2 ^ 1024 := by
    rw [hone, mul_one]
    calc (n.natAbs : ℚ) ≤ 2 ^ 53 := by exact_mod_cast hnat
      _ < 2 ^ 1024 := pow_lt_pow_right₀ (by norm_num) (by norm_num)
  obtain ⟨y, hfin, hval, -⟩ := exists_f64_of_mant (decide (n < 0)) hnat hlt
  refine ⟨y, hfin, ?_⟩
  rw [hval, hone, mul_one, ite_neg_one_mul_natAbs]

theorem le_of_abs_sub_le_left {q a n : ℚ} (h : |q - a| ≤ |q - n|) (hq : q ≤ n) : a ≤ n := by
  rw [abs_of_nonpos (sub_nonpos.2 hq)] at h
  linarith [(abs_le.1 h).1]

theorem le_of_abs_sub_le_right {q a n : ℚ} (h : |q - a| ≤ |q - n|) (hq : n ≤ q) : n ≤ a := by
  rw [abs_of_nonneg (sub_nonneg.2 hq)] at h
  linarith [(abs_le.1 h).2]

theorem NearestInt.le_of_le {tie : Tie} {q : ℚ} {v n : ℤ} (h : NearestInt tie q v) (hq : q ≤ n) : v ≤ n := by
  exact_mod_cast le_of_abs_sub_le_left (h.abs_sub_le n) hq

theorem NearestInt.ge_of_ge {tie : Tie} {q : ℚ} {v n : ℤ} (h : NearestInt tie q v) (hq : n ≤ q) : n ≤ v := by
  exact_mod_cast le_of_abs_sub_le_right (h.abs_sub_le n) hq

theorem NearestF64.le_of_le {q : ℚ} {y : BitVec 64} {n : ℤ} (h : NearestF64 q y) (hn : |n| ≤ 2 ^ 53)
    (hq : q ≤ n) : f64Rat y ≤ n := by
  obtain ⟨z, hfin, hval⟩ := exists_f64_of_int hn
  exact le_of_abs_sub_le_left (hval ▸ h.abs_sub_le hfin) hq

theorem NearestF64.ge_of_ge {q : ℚ} {y : BitVec 64} {n : ℤ} (h : NearestF64 q y) (hn : |n| ≤ 2 ^ 53)
    (hq : n ≤ q) : n ≤ f64Rat y := by
  obtain ⟨z, hfin, hval⟩ := exists_f64_of_int hn
  exact le_of_abs_sub_le_right (hval ▸ h.abs_sub_le hfin) hq

/-! ## The scaled integer -/

theorem two_pow_53_lt_f64Max : (2 : ℤ) ^ 53 < f64Max := by
  have hpow : (2 : ℤ) ≤ 2 ^ 971 := le_self_pow₀ (by norm_num) (by norm_num)
  rw [f64Max, Nat.cast_mul, Nat.cast_pow, Nat.cast_ofNat]
  generalize (2 : ℤ) ^ 971 = p at hpow ⊢
  omega

theorem two_pow_53_lt_f64Beyond : (2 : ℚ) ^ 53 < f64Beyond := by
  have hpow : (2 : ℚ) ≤ 2 ^ 971 := le_self_pow₀ (by norm_num) (by norm_num)
  rw [f64Beyond_eq]
  generalize (2 : ℚ) ^ 971 = p at hpow ⊢
  linarith

theorem scaledFrom_exact {b : Build} {q : ℚ} {v : ℤ} (hmode : b.scaleMode = .exact) :
    ScaledFrom b q v ↔ NearestInt b.tie q v := by
  simp only [ScaledFrom, hmode]

theorem scaledFrom_binary64 {b : Build} {q : ℚ} {v : ℤ} (hmode : b.scaleMode = .binary64)
    (hfinite : |q| < f64Beyond) : ScaledFrom b q v ↔ ∃ y, NearestF64 q y ∧ NearestInt b.tie (f64Rat y) v := by
  simp only [ScaledFrom, hmode, if_pos hfinite]

theorem ScaledFrom.f64Max_le_abs {b : Build} {q : ℚ} {v : ℤ} (h : ScaledFrom b q v)
    (hmode : b.scaleMode = .binary64) (hbeyond : ¬ |q| < f64Beyond) : (f64Max : ℤ) ≤ |v| := by
  simp only [ScaledFrom, hmode, if_neg hbeyond] at h
  exact h.1

/-- The scaled integer is one integer, but for the free value, which is beyond every field (log entry 8). -/
theorem ScaledFrom.unique_or_beyond {b : Build} {q : ℚ} {u v : ℤ} (hu : ScaledFrom b q u)
    (hv : ScaledFrom b q v) : u = v ∨ ((f64Max : ℤ) ≤ |u| ∧ (f64Max : ℤ) ≤ |v|) := by
  cases hmode : b.scaleMode with
  | exact => exact .inl (((scaledFrom_exact hmode).1 hu).unique ((scaledFrom_exact hmode).1 hv))
  | binary64 =>
    by_cases hfinite : |q| < f64Beyond
    · obtain ⟨y, hy, hyu⟩ := (scaledFrom_binary64 hmode hfinite).1 hu
      obtain ⟨z, hz, hzv⟩ := (scaledFrom_binary64 hmode hfinite).1 hv
      rw [hy.rat_unique hz] at hyu
      exact .inl (hyu.unique hzv)
    · exact .inr ⟨hu.f64Max_le_abs hmode hfinite, hv.f64Max_le_abs hmode hfinite⟩

/-- The scaled integer lies between the integers the product lies between. -/
theorem ScaledFrom.bounds {b : Build} {q : ℚ} {v lo hi : ℤ} (h : ScaledFrom b q v) (hlo53 : |lo| ≤ 2 ^ 53)
    (hhi53 : |hi| ≤ 2 ^ 53) (hlo : lo ≤ q) (hhi : q ≤ hi) : lo ≤ v ∧ v ≤ hi := by
  cases hmode : b.scaleMode with
  | exact =>
    have hv := (scaledFrom_exact hmode).1 h
    exact ⟨hv.ge_of_ge hlo, hv.le_of_le hhi⟩
  | binary64 =>
    have hfinite : |q| < f64Beyond := by
      have hlow : -(2 : ℚ) ^ 53 ≤ lo := by exact_mod_cast (abs_le.1 hlo53).1
      have hhigh : (hi : ℚ) ≤ 2 ^ 53 := by exact_mod_cast (abs_le.1 hhi53).2
      exact (abs_le.2 ⟨by linarith, by linarith⟩).trans_lt two_pow_53_lt_f64Beyond
    obtain ⟨y, hy, hv⟩ := (scaledFrom_binary64 hmode hfinite).1 h
    exact ⟨hv.ge_of_ge (hy.ge_of_ge hlo53 hlo), hv.le_of_le (hy.le_of_le hhi53 hhi)⟩

/-- The machine's `scale` is a scaled integer (R14). -/
theorem scalesTo_scale (b : Build) (x : BitVec 64) (k : ℕ) : ScalesTo b x k (scale b x k) := by
  rw [ScalesTo, ← f64Val_rat]
  exact scaleDyad_scaledFrom b x k (f64Val_sh_le x)

end Sys2Proof.Machine
end

section
/-! PROOFS. The operand forms of the add commands (spec/40_klv.md R104 to R114): for each, when the operand
is in its domain and which integer its field then holds. -/

namespace Sys2Proof.Machine

variable {b : Build} {x : BitVec 64} {k : ℕ} {v : ℤ}

/-! ## The domain in degrees -/

theorem operandBounded_eq (b : Build) (x : BitVec 64) (bound k : ℕ) :
    operandBounded b x bound k =
      if f64Finite x = true ∧ |f64Rat x| ≤ bound then some (scale b x k) else none := by
  have hdomain : (!f64Finite x || (f64Val x).below (-(bound : ℤ)) || (f64Val x).above (bound : ℤ)) = true ↔
      ¬ (f64Finite x = true ∧ |f64Rat x| ≤ bound) := by
    simp only [Bool.or_eq_true, Dyad.below_iff, Dyad.above_iff, f64Val_rat, abs_le]
    push_cast
    cases f64Finite x
    · simp
    · simp only [Bool.not_true, Bool.false_eq_true, false_or, true_and, not_and_or, not_le]
  rw [operandBounded, if_congr hdomain rfl rfl, ite_not]

theorem operandBounded_of_mem {bound : ℕ} (hfin : f64Finite x = true) (hx : |f64Rat x| ≤ bound) :
    operandBounded b x bound k = some (scale b x k) := by
  rw [operandBounded_eq, if_pos ⟨hfin, hx⟩]

theorem operandBounded_of_beyond {bound : ℕ} (h : (bound : ℚ) < |f64Rat x|) :
    operandBounded b x bound k = none := by
  rw [operandBounded_eq, if_neg fun hin => hin.2.not_gt h]

/-! ## The range of the field -/

/-- The range test gives one answer for every scaled integer of the operand: a free value is beyond the
range (log entry 8). -/
theorem operandRanged_of_scalesTo {lo hi : ℤ} (hfin : f64Finite x = true) (h : ScalesTo b x k v)
    (hlo : -2 ^ 53 ≤ lo) (hhi : hi ≤ 2 ^ 53) :
    operandRanged b x k lo hi = if v < lo ∨ hi < v then none else some v := by
  have hmax := two_pow_53_lt_f64Max
  simp only [operandRanged, hfin, Bool.not_true, Bool.false_eq_true, if_false]
  rcases (scalesTo_scale b x k).unique_or_beyond h with heq | ⟨hscale, hv⟩
  · rw [heq]
  · rw [if_pos, if_pos]
    · rcases abs_choice v with e | e <;> omega
    · rcases abs_choice (scale b x k) with e | e <;> omega

theorem operandRanged_eq_some {lo hi : ℤ} (h : operandRanged b x k lo hi = some v) :
    ScalesTo b x k v ∧ lo ≤ v ∧ v ≤ hi := by
  unfold operandRanged at h
  split_ifs at h with _ hrange
  obtain rfl := Option.some.inj h
  exact ⟨scalesTo_scale b x k, by omega, by omega⟩

/-! ## The heading -/

/-- A finite binary64 does not round beyond the finite range. -/
theorem abs_f64Rat_lt_beyond (hfin : f64Finite x = true) : |f64Rat x| < f64Beyond := by
  have hulp := f64Ulp_pos
  have hsign : |(if x.msb then -1 else 1 : ℚ)| = 1 := by split <;> simp
  have hmant : (f64Mant x : ℚ) ≤ 2 ^ 53 - 1 := by
    have hnat : f64Mant x + 1 ≤ 2 ^ 53 := f64Mant_lt x
    have hcast : (f64Mant x : ℚ) + 1 ≤ 2 ^ 53 := by exact_mod_cast hnat
    linarith
  have hscale : f64Scale x ≤ 971 + 1074 := by
    have hexp : f64Exp x < 2 ^ 11 := Nat.mod_lt _ (by norm_num)
    have hne : f64Exp x ≠ 2047 := bne_iff_ne.1 hfin
    unfold f64Scale
    omega
  have hunit : 2 ^ f64Scale x * f64Ulp ≤ 2 ^ 971 := by
    rw [← two_pow_add_mul_f64Ulp 971]
    gcongr
    norm_num
  rw [f64Rat_eq_mant_mul, abs_mul, abs_mul, hsign, one_mul, Nat.abs_cast,
    abs_of_pos (by positivity : (0 : ℚ) < 2 ^ f64Scale x * f64Ulp), f64Beyond_eq]
  calc (f64Mant x : ℚ) * (2 ^ f64Scale x * f64Ulp)
      ≤ (2 ^ 53 - 1) * 2 ^ 971 := mul_le_mul hmant hunit (by positivity) (by norm_num)
    _ < (2 ^ 53 - 1 / 2) * 2 ^ 971 := mul_lt_mul_of_pos_right (by norm_num) (by positivity)

theorem f64Val_below_zero_iff (x : BitVec 64) : (f64Val x).below 0 = true ↔ f64Rat x < 0 := by
  rw [Dyad.below_iff, f64Val_rat, Int.cast_zero]

theorem headingNorm_of_nonneg (b : Build) (h : 0 ≤ f64Rat x) : headingNorm b x = f64Val x := by
  simp only [headingNorm, f64Val_below_zero_iff, if_neg h.not_gt]

theorem headingNorm_exact (hmode : b.scaleMode = .exact) (h : f64Rat x < 0) :
    headingNorm b x = (f64Val x).plus 360 := by
  simp only [headingNorm, f64Val_below_zero_iff, if_pos h, hmode]

/-- Under binary64 scaling a negative operand is normalised by one rounded sum, which is in the finite
range. -/
theorem headingNorm_binary64 (hmode : b.scaleMode = .binary64) (hfin : f64Finite x = true)
    (h : f64Rat x < 0) : fl ((f64Val x).plus 360) = some (headingNorm b x) := by
  have hsum : fl ((f64Val x).plus 360) ≠ none := by
    have hlow := (abs_lt.1 (abs_f64Rat_lt_beyond hfin)).1
    have hbig := two_pow_53_lt_f64Beyond
    rw [Ne, fl_eq_none_iff, not_le, Dyad.plus_rat, f64Val_rat, abs_lt]
    push_cast
    constructor <;> linarith
  obtain ⟨p, hp⟩ := Option.ne_none_iff_exists'.1 hsum
  simp only [headingNorm, f64Val_below_zero_iff, if_pos h, hmode, hp, Option.getD_some]

theorem headingNorm_sh_le (hfin : f64Finite x = true) : (headingNorm b x).sh ≤ 1074 := by
  have hsh := f64Val_sh_le x
  rcases lt_or_ge (f64Rat x) 0 with hneg | hnonneg
  · cases hmode : b.scaleMode with
    | exact => rw [headingNorm_exact hmode hneg]; exact hsh
    | binary64 => rw [eq_rounded_of_fl (headingNorm_binary64 hmode hfin hneg)]; exact hsh
  · rw [headingNorm_of_nonneg b hnonneg]; exact hsh

theorem headingNormal_of_nonneg {y : ℚ} (h : 0 ≤ f64Rat x) : HeadingNormal b x y ↔ y = f64Rat x := by
  rw [HeadingNormal, if_neg h.not_gt]

theorem headingNormal_exact {y : ℚ} (hmode : b.scaleMode = .exact) (h : f64Rat x < 0) :
    HeadingNormal b x y ↔ y = f64Rat x + 360 := by
  simp only [HeadingNormal, if_pos h, hmode]

theorem headingNormal_binary64 {y : ℚ} (hmode : b.scaleMode = .binary64) (h : f64Rat x < 0) :
    HeadingNormal b x y ↔ ∃ z, NearestF64 (f64Rat x + 360) z ∧ y = f64Rat z := by
  simp only [HeadingNormal, if_pos h, hmode]

/-- The machine normalises a heading as R109 says. -/
theorem headingNormal_headingNorm (b : Build) (hfin : f64Finite x = true) :
    HeadingNormal b x (headingNorm b x).rat := by
  have hsum : ((f64Val x).plus 360).rat = f64Rat x + 360 := by
    rw [Dyad.plus_rat, f64Val_rat, Nat.cast_ofNat]
  rcases lt_or_ge (f64Rat x) 0 with hneg | hnonneg
  · cases hmode : b.scaleMode with
    | exact => rw [headingNormal_exact hmode hneg, headingNorm_exact hmode hneg, hsum]
    | binary64 =>
      obtain ⟨z, hz, hval⟩ := exists_nearestF64_of_fl (q := (f64Val x).plus 360) (f64Val_sh_le x)
        (headingNorm_binary64 hmode hfin hneg)
      exact (headingNormal_binary64 hmode hneg).2 ⟨z, hsum ▸ hz, hval.symm⟩
  · rw [headingNormal_of_nonneg hnonneg, headingNorm_of_nonneg b hnonneg, f64Val_rat]

/-- A heading has one normalised value. -/
theorem HeadingNormal.unique {y z : ℚ} (hy : HeadingNormal b x y) (hz : HeadingNormal b x z) : y = z := by
  rcases lt_or_ge (f64Rat x) 0 with hneg | hnonneg
  · cases hmode : b.scaleMode with
    | exact => rw [(headingNormal_exact hmode hneg).1 hy, (headingNormal_exact hmode hneg).1 hz]
    | binary64 =>
      obtain ⟨u, hu, rfl⟩ := (headingNormal_binary64 hmode hneg).1 hy
      obtain ⟨w, hw, rfl⟩ := (headingNormal_binary64 hmode hneg).1 hz
      exact hu.rat_unique hw
  · rw [(headingNormal_of_nonneg hnonneg).1 hy, (headingNormal_of_nonneg hnonneg).1 hz]

/-- One normalisation brings every operand from -360 to 360 into the domain: a rounded sum passes neither
bound. -/
theorem HeadingNormal.bounds {y : ℚ} (h : HeadingNormal b x y) (hx : |f64Rat x| ≤ 360) : 0 ≤ y ∧ y ≤ 360 := by
  obtain ⟨hlow, hhigh⟩ := abs_le.1 hx
  rcases lt_or_ge (f64Rat x) 0 with hneg | hnonneg
  · cases hmode : b.scaleMode with
    | exact =>
      have hy := (headingNormal_exact hmode hneg).1 h
      constructor <;> linarith
    | binary64 =>
      obtain ⟨z, hz, rfl⟩ := (headingNormal_binary64 hmode hneg).1 h
      have hge := hz.ge_of_ge (n := 0) (by norm_num) (by push_cast; linarith)
      have hle := hz.le_of_le (n := 360) (by norm_num) (by push_cast; linarith)
      exact ⟨by exact_mod_cast hge, by exact_mod_cast hle⟩
  · rw [(headingNormal_of_nonneg hnonneg).1 h]
    exact ⟨hnonneg, hhigh⟩

theorem operandHeading_eq {y : ℚ} (hfin : f64Finite x = true) (hy : HeadingNormal b x y) :
    operandHeading b x =
      if 0 ≤ y ∧ y ≤ 360 then some (scaleDyad b x (headingNorm b x) 100) else none := by
  have hdomain : ((headingNorm b x).below 0 || (headingNorm b x).above 360) = true ↔
      ¬ (0 ≤ y ∧ y ≤ 360) := by
    rw [hy.unique (headingNormal_headingNorm b hfin), Bool.or_eq_true, Dyad.below_iff, Dyad.above_iff,
      not_and_or, not_le, not_le]
    norm_num
  simp only [operandHeading, hfin, Bool.not_true, Bool.false_eq_true, if_false]
  rw [if_congr hdomain rfl rfl, ite_not]

/-- The integer of a heading is scaled from its normalised value. -/
theorem HeadingNormal.scaledFrom {y : ℚ} (hy : HeadingNormal b x y) (hfin : f64Finite x = true) :
    ScaledFrom b (y * 100) (scaleDyad b x (headingNorm b x) 100) := by
  rw [hy.unique (headingNormal_headingNorm b hfin)]
  exact_mod_cast scaleDyad_scaledFrom b x 100 (headingNorm_sh_le hfin)

/-! ## The altitude -/

theorem operandAltitude_of_finite (h : f64Finite x = true) :
    operandAltitude b x = some (scale b x 10 % 65536) := by
  simp [operandAltitude, h]

/-! ## Operands that are not finite -/

section
variable (hnan : f64Finite x = false)
include hnan

theorem operandBounded_of_not_finite (bound : ℕ) : operandBounded b x bound k = none := by
  simp [operandBounded, hnan]

theorem operandRanged_of_not_finite (lo hi : ℤ) : operandRanged b x k lo hi = none := by
  simp [operandRanged, hnan]

theorem operandAltitude_of_not_finite : operandAltitude b x = none := by simp [operandAltitude, hnan]

theorem operandHeading_of_not_finite : operandHeading b x = none := by simp [operandHeading, hnan]

end

end Sys2Proof.Machine
end

section
/-! PROOFS. The add commands of unit KLV (spec/40_klv.md R102 to R117, R122, R123): what each appends or how
it is refused, and what its field decodes to. -/

namespace Sys2Proof.Machine

/-! ## The field of an integer -/

theorem beInt_of_nonneg (n : ℕ) {v : ℤ} (h : 0 ≤ v) : beInt n v = be n v.toNat := by
  rw [beInt, Int.toNat_emod h (Int.natCast_nonneg _), Int.toNat_natCast, be_mod]

theorem beInt_two (v : ℤ) : beInt 2 v = be 2 (v % 2 ^ 16).toNat := rfl

theorem beInt_four (v : ℤ) : beInt 4 v = be 4 (v % 2 ^ 32).toNat := rfl

theorem fromBe_beInt (n : ℕ) (v : ℤ) : (fromBe (beInt n v) : ℤ) = v % (256 ^ n : ℕ) := by
  have hpos : (0 : ℤ) < (256 ^ n : ℕ) := by positivity
  have hnonneg := Int.emod_nonneg v hpos.ne'
  rw [beInt, fromBe_be ((Int.toNat_lt hnonneg).2 (Int.emod_lt_of_pos v hpos)), Int.toNat_of_nonneg hnonneg]

/-- An integer that fits its unsigned field is read back. -/
theorem fromBe_beInt_of_fits {n : ℕ} {v : ℤ} (hlo : 0 ≤ v) (hhi : v < (256 ^ n : ℕ)) :
    (fromBe (beInt n v) : ℤ) = v := by
  rw [fromBe_beInt, Int.emod_eq_of_lt hlo hhi]

/-- An integer that fits its signed field is read back. -/
theorem signedBe_beInt_of_fits {n : ℕ} {v : ℤ} (hlo : -(256 ^ n : ℕ) ≤ 2 * v) (hhi : 2 * v < (256 ^ n : ℕ)) :
    signedBe n (beInt n v) = v := by
  have hread := fromBe_beInt n v
  unfold signedBe
  generalize fromBe (beInt n v) = u at hread ⊢
  generalize 256 ^ n = m at *
  rcases lt_or_ge v 0 with hneg | hnonneg
  · rw [← Int.add_emod_right, Int.emod_eq_of_lt (by omega) (by omega)] at hread
    split_ifs <;> omega
  · rw [Int.emod_eq_of_lt hnonneg (by omega)] at hread
    split_ifs <;> omega

/-! ## The three ends of an add command -/

section
variable {s : State} {tag : Byte} {n : ℕ} {operand : Option ℤ} {v : ℤ}

theorem appendFixed_of_none (h : operand = none) : appendFixed tag n operand s = afterValidationError s := by
  rw [h, appendFixed, raise_validation]

theorem appendFixed_of_fits (h : operand = some v) (hfit : s.klvItems.length + (n + 2) ≤ s.build.klvBufMax) :
    appendFixed tag n operand s = afterItem s tag (beInt n v) := by
  rw [h, appendFixed, appendItem_of_fits (by rwa [beInt_length])]

theorem appendFixed_of_full (h : operand = some v) (hfull : s.build.klvBufMax < s.klvItems.length + (n + 2)) :
    appendFixed tag n operand s = afterCapacityError s := by
  rw [h, appendFixed, appendItem_of_full (by rwa [beInt_length])]

/-- An add command that ends with `OK` had an operand in its domain, and its value bytes end the buffer. -/
theorem exists_of_appendFixed_ok (h : (appendFixed tag n operand s).lastStatus = some .ok) :
    ∃ v, operand = some v ∧
      (appendFixed tag n operand s).klvItems.drop (s.klvItems.length + 2) = beInt n v := by
  rcases appendFixed_cases tag n operand s with ⟨-, hend⟩ | ⟨v, -, -, hend⟩ | ⟨v, hv, -, hend⟩
  · rw [hend] at h; cases h
  · rw [hend] at h; cases h
  · refine ⟨v, hv, ?_⟩
    rw [hend, afterItem, List.drop_length_add_append]
    rfl

end

/-! ## Refusals -/

/-- Settles O25: each operand form has no value there. -/
theorem outOfDomainOperandsAreRefused : Obligations.OutOfDomainOperandsAreRefused := by
  intro x s
  have refused {tag : Byte} {n : ℕ} {operand : Option ℤ} (h : operand = none) :
      (.next (appendFixed tag n operand s) : Host.Outcome State Fault Refusal) =
        .next (afterValidationError s) := congrArg _ (appendFixed_of_none h)
  refine ⟨fun hnan => ?_, fun hfin => ⟨fun h => ?_, fun h => ?_, fun h => ?_, fun y hy hneg => ?_⟩⟩
  · simp only [List.forall_mem_cons, List.not_mem_nil, IsEmpty.forall_iff, implies_true, and_true]
    exact ⟨refused (operandBounded_of_not_finite hnan _), refused (operandBounded_of_not_finite hnan _),
      refused (operandHeading_of_not_finite hnan), refused (operandBounded_of_not_finite hnan _),
      refused (operandBounded_of_not_finite hnan _), refused (operandAltitude_of_not_finite hnan),
      refused (operandRanged_of_not_finite hnan _ _), refused (operandRanged_of_not_finite hnan _ _),
      refused (operandRanged_of_not_finite hnan _ _), refused (operandRanged_of_not_finite hnan _ _),
      refused (operandRanged_of_not_finite hnan _ _)⟩
  · exact ⟨refused (operandBounded_of_beyond (by exact_mod_cast h)),
      refused (operandBounded_of_beyond (by exact_mod_cast h))⟩
  · exact ⟨refused (operandBounded_of_beyond (by exact_mod_cast h)),
      refused (operandBounded_of_beyond (by exact_mod_cast h))⟩
  · have hy : HeadingNormal s.build x (f64Rat x) := by
      rw [headingNormal_of_nonneg (by linarith)]
    refine refused ?_
    rw [operandHeading_eq hfin hy, if_neg fun hin => hin.2.not_gt h]
  · refine refused ?_
    rw [operandHeading_eq hfin hy, if_neg fun hin => hin.1.not_gt hneg]

/-- Settles O26: the operand has a value, and the item does not fit. -/
theorem itemsPastTheCapacityAreRefused : Obligations.ItemsPastTheCapacityAreRefused := by
  intro s
  have refused {tag : Byte} {n : ℕ} {operand : Option ℤ} {v : ℤ}
      (hfull : s.build.klvBufMax < s.klvItems.length + (n + 2)) (h : operand = some v) :
      (.next (appendFixed tag n operand s) : Host.Outcome State Fault Refusal) =
        .next (afterCapacityError s) := congrArg _ (appendFixed_of_full h hfull)
  refine ⟨fun hfull x hfin => ⟨fun h => ?_, fun h => ?_, fun v hv hlo hhi => ?_⟩,
    fun hfull x hfin => ⟨?_, fun h => ?_, fun h => ?_, fun h => ?_, fun v hv hlo hhi => ?_⟩⟩
  · exact refused hfull (operandBounded_of_mem hfin (by exact_mod_cast h))
  · exact refused hfull (operandBounded_of_mem hfin (by exact_mod_cast h))
  · have hoperand := operandRanged_of_scalesTo (lo := -2147483648) (hi := 2147483647) hfin hv (by norm_num)
      (by norm_num)
    rw [if_neg (by omega)] at hoperand
    exact ⟨refused hfull hoperand, refused hfull hoperand, refused hfull hoperand⟩
  · exact refused hfull (operandAltitude_of_finite hfin)
  · exact refused hfull (operandBounded_of_mem hfin (by exact_mod_cast h))
  · exact refused hfull (operandBounded_of_mem hfin (by exact_mod_cast h))
  · refine refused hfull ((operandHeading_eq hfin (headingNormal_headingNorm s.build hfin)).trans (if_pos ?_))
    exact (headingNormal_headingNorm s.build hfin).bounds h
  · have hoperand := operandRanged_of_scalesTo (lo := 0) (hi := 65535) hfin hv (by norm_num) (by norm_num)
    rw [if_neg (by omega)] at hoperand
    exact ⟨refused hfull hoperand, refused hfull hoperand⟩

/-! ## Appended items -/

/-- The integer of an operand within a bound in degrees is within the scaled bound. -/
theorem scale_mem_of_bounded {x : BitVec 64} {bound k : ℕ} (b : Build) (hx : |f64Rat x| ≤ bound)
    (h53 : bound * k ≤ 2 ^ 53) :
    -((bound * k : ℕ) : ℤ) ≤ scale b x k ∧ scale b x k ≤ (bound * k : ℕ) := by
  have hcast : ((bound * k : ℕ) : ℤ) ≤ 2 ^ 53 := by exact_mod_cast h53
  obtain ⟨hlow, hhigh⟩ := abs_le.1 hx
  have hk : (0 : ℚ) ≤ k := Nat.cast_nonneg k
  refine (scalesTo_scale b x k).bounds ?_ ?_ ?_ ?_
  · rwa [abs_neg, Nat.abs_cast]
  · rwa [Nat.abs_cast]
  · push_cast
    nlinarith
  · push_cast
    nlinarith

/-- A command with a domain in degrees appends the scaled integer of an operand in that domain. -/
theorem appendFixed_operandBounded {s : State} {x : BitVec 64} {bound k n : ℕ} (tag : Byte)
    (hfin : f64Finite x = true) (hx : |f64Rat x| ≤ bound) (h53 : bound * k ≤ 2 ^ 53)
    (hfit : s.klvItems.length + (n + 2) ≤ s.build.klvBufMax) :
    ∃ v : ℤ, ScalesTo s.build x k v ∧ -((bound * k : ℕ) : ℤ) ≤ v ∧ v ≤ (bound * k : ℕ) ∧
      appendFixed tag n (operandBounded s.build x bound k) s = afterItem s tag (beInt n v) := by
  obtain ⟨hlo, hhi⟩ := scale_mem_of_bounded s.build hx h53
  exact ⟨scale s.build x k, scalesTo_scale s.build x k, hlo, hhi,
    appendFixed_of_fits (operandBounded_of_mem hfin hx) hfit⟩

/-- Settles O16. -/
theorem addLatitudeAppendsScaledDegrees : Obligations.AddLatitudeAppendsScaledDegrees := by
  intro x s hfin hx hfit
  obtain ⟨v, hv, hlo, hhi, happend⟩ := appendFixed_operandBounded (bound := 90) (k := 10000000) (n := 4) 13 hfin
    (by exact_mod_cast hx) (by norm_num) hfit
  exact ⟨v, hv, hlo, hhi, by rw [← beInt_four]; exact congrArg _ happend⟩

/-- Settles O17. -/
theorem addLongitudeAppendsScaledDegrees : Obligations.AddLongitudeAppendsScaledDegrees := by
  intro x s hfin hx hfit
  obtain ⟨v, hv, hlo, hhi, happend⟩ := appendFixed_operandBounded (bound := 180) (k := 10000000) (n := 4) 14 hfin
    (by exact_mod_cast hx) (by norm_num) hfit
  exact ⟨v, hv, hlo, hhi, by rw [← beInt_four]; exact congrArg _ happend⟩

/-- Settles O18. -/
theorem addRollAppendsScaledDegrees : Obligations.AddRollAppendsScaledDegrees := by
  intro x s hfin hx hfit
  obtain ⟨v, hv, hlo, hhi, happend⟩ := appendFixed_operandBounded (bound := 180) (k := 100) (n := 2) 5 hfin
    (by exact_mod_cast hx) (by norm_num) hfit
  exact ⟨v, hv, hlo, hhi, by rw [← beInt_two]; exact congrArg _ happend⟩

/-- Settles O19. -/
theorem addPitchAppendsScaledDegrees : Obligations.AddPitchAppendsScaledDegrees := by
  intro x s hfin hx hfit
  obtain ⟨v, hv, hlo, hhi, happend⟩ := appendFixed_operandBounded (bound := 90) (k := 100) (n := 2) 6 hfin
    (by exact_mod_cast hx) (by norm_num) hfit
  exact ⟨v, hv, hlo, hhi, by rw [← beInt_two]; exact congrArg _ happend⟩

/-- The integer of a heading in its domain is from 0 to 36000. -/
theorem ScaledFrom.heading_bounds {b : Build} {y : ℚ} {v : ℤ} (h : ScaledFrom b (y * 100) v) (hlo : 0 ≤ y)
    (hhi : y ≤ 360) : 0 ≤ v ∧ v ≤ 36000 :=
  h.bounds (by norm_num) (by norm_num) (by push_cast; linarith) (by push_cast; linarith)

/-- Settles O20: the normalised heading is in its domain, and its scaled integer needs no sign. -/
theorem addHeadingAppendsNormalisedDegrees : Obligations.AddHeadingAppendsNormalisedDegrees := by
  intro x s hfin hx hfit
  have hy := headingNormal_headingNorm s.build hfin
  obtain ⟨hlo, hhi⟩ := hy.bounds hx
  have hv := hy.scaledFrom hfin
  obtain ⟨hvlo, hvhi⟩ := hv.heading_bounds hlo hhi
  refine ⟨_, _, hy, hlo, hhi, hv, hvlo, hvhi, ?_⟩
  rw [← beInt_of_nonneg 2 hvlo]
  exact congrArg _ (appendFixed_of_fits ((operandHeading_eq hfin hy).trans (if_pos ⟨hlo, hhi⟩)) hfit)

/-- Settles O21. -/
theorem addAltitudeWrapsToSixteenBits : Obligations.AddAltitudeWrapsToSixteenBits := by
  intro x s hfin hfit
  refine ⟨scale s.build x 10, scalesTo_scale s.build x 10, ?_⟩
  rw [← beInt_of_nonneg 2 (Int.emod_nonneg _ (by norm_num))]
  exact congrArg _ (appendFixed_of_fits (operandAltitude_of_finite hfin) hfit)

/-- Settles O22: the range test of the operand form answers for any scaled integer. -/
theorem fieldsOfViewAppendWhatSixteenBitsHold : Obligations.FieldsOfViewAppendWhatSixteenBitsHold := by
  intro x s v hfin hv
  have hoperand := operandRanged_of_scalesTo (lo := 0) (hi := 65535) hfin hv (by norm_num) (by norm_num)
  refine ⟨fun hlo hhi hfit => ?_, fun hout => ?_⟩
  · rw [if_neg (by omega)] at hoperand
    rw [← beInt_of_nonneg 2 hlo]
    exact ⟨congrArg _ (appendFixed_of_fits hoperand hfit), congrArg _ (appendFixed_of_fits hoperand hfit)⟩
  · rw [if_pos hout] at hoperand
    exact ⟨congrArg _ (appendFixed_of_none hoperand), congrArg _ (appendFixed_of_none hoperand)⟩

/-- Settles O23, as O22. -/
theorem gimbalAnglesAppendWhatThirtyTwoBitsHold : Obligations.GimbalAnglesAppendWhatThirtyTwoBitsHold := by
  intro x s v hfin hv
  have hoperand := operandRanged_of_scalesTo (lo := -2147483648) (hi := 2147483647) hfin hv (by norm_num)
    (by norm_num)
  refine ⟨fun hlo hhi hfit => ?_, fun hout => ?_⟩
  · rw [if_neg (by omega)] at hoperand
    rw [← beInt_four]
    exact ⟨congrArg _ (appendFixed_of_fits hoperand hfit), congrArg _ (appendFixed_of_fits hoperand hfit),
      congrArg _ (appendFixed_of_fits hoperand hfit)⟩
  · rw [if_pos hout] at hoperand
    exact ⟨congrArg _ (appendFixed_of_none hoperand), congrArg _ (appendFixed_of_none hoperand),
      congrArg _ (appendFixed_of_none hoperand)⟩

/-- Settles O15: the item of a timestamp takes 10 bytes. -/
theorem addTimestampAppendsEightBytes : Obligations.AddTimestampAppendsEightBytes :=
  fun v _ =>
    ⟨fun hfit => congrArg _ (appendItem_of_fits (by rwa [be_length])),
      fun hfull => congrArg _ (appendItem_of_full (by rwa [be_length]))⟩

/-- Settles O24: the item of a raw float takes 6 bytes. -/
theorem rawFloatsAppendTheirFourBytes : Obligations.RawFloatsAppendTheirFourBytes := by
  intro w s
  refine ⟨fun hfit => ?_, fun hfull => ?_⟩
  · have appended (tag : Byte) : appendItem tag (be 4 w.toNat) s = afterItem s tag (be 4 w.toNat) :=
      appendItem_of_fits (by rwa [be_length])
    exact ⟨congrArg _ (appended 102), congrArg _ (appended 103), congrArg _ (appended 104)⟩
  · have refused (tag : Byte) : appendItem tag (be 4 w.toNat) s = afterCapacityError s :=
      appendItem_of_full (by rwa [be_length])
    exact ⟨congrArg _ (refused 102), congrArg _ (refused 103), congrArg _ (refused 104)⟩

/-! ## Fields read back -/

section
variable {s : State} {x : BitVec 64}

/-- A nearest integer is within half a step of what it was rounded from. -/
theorem NearestInt.abs_div_sub_le {tie : Tie} {q k : ℚ} {v : ℤ} (hk : 0 < k) (h : NearestInt tie (q * k) v) :
    |(v : ℚ) / k - q| ≤ 1 / (2 * k) := by
  have hdiff : (v : ℚ) / k - q = -((q * k - v) / k) := by
    field_simp
    ring
  rw [hdiff, abs_neg, abs_div, abs_of_pos hk, ← div_div]
  exact div_le_div_of_nonneg_right h.1 hk.le

/-- A field read back is within half a step where the integer it holds is scaled from the operand and fits
the field (R123). -/
theorem decode_within_half_step {tag : Byte} {n : ℕ} {operand : Option ℤ} {decode : Bytes → ℤ} {k : ℕ}
    {step q : ℚ} (hmode : s.build.scaleMode = .exact) (hk : 0 < k) (hstep : (k : ℚ) = step)
    (hoperand : ∀ v, operand = some v → ScaledFrom s.build (q * k) v ∧ decode (beInt n v) = v) (t : State)
    (hnext : (.next (appendFixed tag n operand s) : Host.Outcome State Fault Refusal) = .next t)
    (hok : t.lastStatus = some .ok) :
    |(decode (t.klvItems.drop (s.klvItems.length + 2)) : ℚ) / step - q| ≤ 1 / (2 * step) := by
  cases hnext
  subst hstep
  obtain ⟨v, hv, hfield⟩ := exists_of_appendFixed_ok hok
  obtain ⟨hscaled, hread⟩ := hoperand v hv
  rw [hfield, hread]
  exact ((scaledFrom_exact hmode).1 hscaled).abs_div_sub_le (Nat.cast_pos.2 hk)

theorem operandBounded_reads_back {bound k n : ℕ} (h53 : bound * k ≤ 2 ^ 53) (hfield : 2 * (bound * k) < 256 ^ n)
    {v : ℤ} (h : operandBounded s.build x bound k = some v) :
    ScalesTo s.build x k v ∧ signedBe n (beInt n v) = v := by
  rw [operandBounded_eq] at h
  split_ifs at h with hin
  obtain rfl := Option.some.inj h
  obtain ⟨hlo, hhi⟩ := scale_mem_of_bounded s.build hin.2 h53
  have hcast : 2 * ((bound * k : ℕ) : ℤ) < (256 ^ n : ℕ) := by exact_mod_cast hfield
  exact ⟨scalesTo_scale s.build x k, signedBe_beInt_of_fits (by omega) (by omega)⟩

theorem operandHeading_reads_back {y : ℚ} {v : ℤ} (hy : HeadingNormal s.build x y)
    (h : operandHeading s.build x = some v) :
    ScaledFrom s.build (y * (100 : ℕ)) v ∧ (fromBe (beInt 2 v) : ℤ) = v := by
  cases hfin : f64Finite x with
  | false => rw [operandHeading_of_not_finite hfin] at h; cases h
  | true =>
    rw [operandHeading_eq hfin hy] at h
    split_ifs at h with hin
    obtain rfl := Option.some.inj h
    have hv := hy.scaledFrom hfin
    obtain ⟨hlo, hhi⟩ := hv.heading_bounds hin.1 hin.2
    exact ⟨by exact_mod_cast hv, fromBe_beInt_of_fits hlo (by norm_num; omega)⟩

theorem operandAltitude_reads_back {u v : ℤ} (hmode : s.build.scaleMode = .exact) (hv : ScalesTo s.build x 10 v)
    (hlo : 0 ≤ v) (hhi : v ≤ 65535) (h : operandAltitude s.build x = some u) :
    ScalesTo s.build x 10 u ∧ (fromBe (beInt 2 u) : ℤ) = u := by
  have hscale : scale s.build x 10 = v :=
    ((scaledFrom_exact hmode).1 (scalesTo_scale s.build x 10)).unique ((scaledFrom_exact hmode).1 hv)
  unfold operandAltitude at h
  split_ifs at h
  obtain rfl : v = u := by
    rw [← Option.some.inj h, hscale, Int.emod_eq_of_lt hlo (by omega)]
  exact ⟨hv, fromBe_beInt_of_fits hlo (by norm_num; omega)⟩

theorem fieldOfView_reads_back {v : ℤ} (h : operandRanged s.build x 100 0 65535 = some v) :
    ScalesTo s.build x 100 v ∧ (fromBe (beInt 2 v) : ℤ) = v := by
  obtain ⟨hv, hlo, hhi⟩ := operandRanged_eq_some h
  exact ⟨hv, fromBe_beInt_of_fits hlo (by norm_num; omega)⟩

theorem gimbalAngle_reads_back {v : ℤ} (h : operandRanged s.build x 1000000 (-2147483648) 2147483647 = some v) :
    ScalesTo s.build x 1000000 v ∧ signedBe 4 (beInt 4 v) = v := by
  obtain ⟨hv, hlo, hhi⟩ := operandRanged_eq_some h
  exact ⟨hv, signedBe_beInt_of_fits (by norm_num; omega) (by norm_num; omega)⟩

end

/-- Settles O28: each operand form gives an integer scaled from the operand that its field holds. -/
theorem decodedFieldsAreWithinHalfAStep : Obligations.DecodedFieldsAreWithinHalfAStep := by
  intro x s hmode
  refine ⟨?_, ?_, ?_, ?_, fun y hy => ?_, fun v hv hlo hhi => ?_, ?_, ?_, ?_, ?_, ?_⟩
  · exact decode_within_half_step hmode (by norm_num) Nat.cast_ofNat fun _ =>
      operandBounded_reads_back (n := 4) (by norm_num) (by norm_num)
  · exact decode_within_half_step hmode (by norm_num) Nat.cast_ofNat fun _ =>
      operandBounded_reads_back (n := 4) (by norm_num) (by norm_num)
  · exact decode_within_half_step hmode (by norm_num) Nat.cast_ofNat fun _ =>
      operandBounded_reads_back (n := 2) (by norm_num) (by norm_num)
  · exact decode_within_half_step hmode (by norm_num) Nat.cast_ofNat fun _ =>
      operandBounded_reads_back (n := 2) (by norm_num) (by norm_num)
  · exact decode_within_half_step (decode := fun b => (fromBe b : ℤ)) hmode (by norm_num) Nat.cast_ofNat
      fun _ => operandHeading_reads_back hy
  · exact decode_within_half_step (decode := fun b => (fromBe b : ℤ)) hmode (by norm_num) Nat.cast_ofNat
      fun _ => operandAltitude_reads_back hmode hv hlo hhi
  · exact decode_within_half_step (decode := fun b => (fromBe b : ℤ)) hmode (by norm_num) Nat.cast_ofNat
      fun _ => fieldOfView_reads_back
  · exact decode_within_half_step (decode := fun b => (fromBe b : ℤ)) hmode (by norm_num) Nat.cast_ofNat
      fun _ => fieldOfView_reads_back
  · exact decode_within_half_step hmode (by norm_num) Nat.cast_ofNat fun _ => gimbalAngle_reads_back
  · exact decode_within_half_step hmode (by norm_num) Nat.cast_ofNat fun _ => gimbalAngle_reads_back
  · exact decode_within_half_step hmode (by norm_num) Nat.cast_ofNat fun _ => gimbalAngle_reads_back

/-! ## The frame -/

/-- Settles O12: the frame of the unit, command by command. -/
theorem unitsWriteOnlyTheirOwnState : Obligations.UnitsWriteOnlyTheirOwnState :=
  fun _ _ _ _ => exec_unitFrame

end Sys2Proof.Machine
end

section
/-! PROOFS. Packing (spec/40_klv.md R118 to R121, spec/95_test_vectors.md section 3): the BER length is read
back, and a packet parses to the items of its buffer. -/

namespace Sys2Proof.Machine

/-! ## The BER length -/

section
variable {n : ℕ}

theorem ber_short (h : n < 128) : ber n = be 1 n := by
  rw [ber, if_pos h]

theorem ber_one_byte (hlo : 128 ≤ n) (hhi : n < 256) : ber n = 0x81 :: be 1 n := by
  rw [ber, if_neg (by omega), if_pos hhi]

theorem ber_two_bytes (hlo : 256 ≤ n) (hhi : n < 65536) : ber n = 0x82 :: be 2 n := by
  rw [ber, if_neg (by omega), if_neg (by omega), if_pos hhi]

theorem ber_four_bytes (hlo : 65536 ≤ n) (hhi : n < 2 ^ 32) : ber n = 0x84 :: be 4 n := by
  rw [ber, if_neg (by omega), if_neg (by omega), if_neg (by omega), if_pos hhi]

/-- The decoder reads back the length the coder wrote (R118). -/
theorem unber_ber_append (rest : Bytes) (h : n < 2 ^ 32) : unber (ber n ++ rest) = some (n, rest) := by
  rcases Nat.lt_or_ge n 128 with h1 | h1
  · have hbyte : (BitVec.ofNat 8 n).toNat = n := Nat.mod_eq_of_lt (by omega)
    simp only [ber_short h1, be_one, List.singleton_append, unber, hbyte, if_pos h1]
  rcases Nat.lt_or_ge n 256 with h2 | h2
  · have hread : fromBe (be 1 n) = n := fromBe_be (by omega)
    simp [ber_one_byte h1 h2, unber, hread]
  rcases Nat.lt_or_ge n 65536 with h3 | h3
  · have hread : fromBe (be 2 n) = n := fromBe_be (by omega)
    simp [ber_two_bytes h2 h3, unber, hread]
  · have hread : fromBe (be 4 n) = n := fromBe_be (by omega)
    simp [ber_four_bytes h3 h, unber, hread]

end

/-- Settles O29. -/
theorem berLengthForms : Obligations.BerLengthForms := by
  refine fun n => ⟨fun h => ?_, fun hlo hhi => ?_, fun hlo hhi => ?_, fun hlo hhi => ?_⟩
  · rw [ber_short h, be_one]
  · rw [ber_one_byte hlo (by omega), be_one]
  · rw [ber_two_bytes hlo (by omega), be_two]
  · rw [ber_four_bytes hlo hhi, be_four]

/-- Settles O30: what is read back is determined by the code. -/
theorem berLengthsRoundTrip : Obligations.BerLengthsRoundTrip := by
  refine ⟨fun n rest h => unber_ber_append rest h, fun n m hn hm heq => ?_⟩
  have hread := unber_ber_append [] hn
  rw [heq, unber_ber_append [] hm] at hread
  cases hread
  rfl

/-! ## Items -/

theorem parseItems_nil (fuel : ℕ) : parseItems fuel [] = some [] := by cases fuel <;> rfl

/-- The head of an item buffer is read as one item. -/
theorem parseItems_klvItem_append {tag : Byte} {value : Bytes} (fuel : ℕ) (rest : Bytes)
    (hlen : value.length ≤ 255) :
    parseItems (fuel + 1) (klvItem tag value ++ rest) =
      (parseItems fuel rest).map ((tag, value) :: ·) := by
  have hbyte : (BitVec.ofNat 8 value.length).toNat = value.length := Nat.mod_eq_of_lt (by omega)
  have hroom : ¬ (value ++ rest).length < value.length := by simp
  rw [klvItem, List.cons_append, List.cons_append, parseItems, hbyte, if_neg hroom, List.drop_left,
    List.take_left]
  cases parseItems fuel rest <;> rfl

theorem parseItems_flatten {items : List (Byte × Bytes)} {fuel : ℕ} (hlen : ∀ p ∈ items, p.2.length ≤ 255)
    (hfuel : items.length ≤ fuel) :
    parseItems fuel (items.map fun p => klvItem p.1 p.2).flatten = some items := by
  induction items generalizing fuel with
  | nil => exact parseItems_nil fuel
  | cons p items ih =>
    obtain ⟨hp, hitems⟩ := List.forall_mem_cons.1 hlen
    obtain ⟨fuel, rfl⟩ : ∃ m, fuel = m + 1 := Nat.exists_eq_add_one.2 (by rw [List.length_cons] at hfuel; omega)
    rw [List.map_cons, List.flatten_cons, parseItems_klvItem_append fuel _ hp,
      ih hitems (Nat.le_of_succ_le_succ hfuel)]
    rfl

/-- Every item takes a byte at least, so the length of the buffer is fuel enough. -/
theorem length_le_length_flatten (items : List (Byte × Bytes)) :
    items.length ≤ ((items.map fun p => klvItem p.1 p.2).flatten).length := by
  induction items with
  | nil => exact Nat.zero_le _
  | cons p items ih =>
    rw [List.map_cons, List.flatten_cons, List.length_append, klvItem_length, List.length_cons]
    omega

/-- The key and the length of a packet are taken off, and its buffer is parsed. -/
theorem parsePacket_klvPacket {buffer : Bytes} (h : buffer.length < 2 ^ 32) :
    parsePacket (klvPacket buffer) = parseItems buffer.length buffer := by
  have hkey : klvKey.length = 16 := rfl
  rw [parsePacket, klvPacket, List.append_assoc, List.take_left' hkey, if_pos rfl, List.drop_left' hkey,
    unber_ber_append buffer h]
  exact if_pos rfl

/-- Settles O33: the packet parses as its buffer, and the buffer item by item. -/
theorem packedItemsParseBack : Obligations.PackedItemsParseBack := by
  intro items hlen hsize
  rw [parsePacket_klvPacket hsize]
  exact parseItems_flatten hlen (length_le_length_flatten items)

/-! ## The buffer as a whole -/

/-- Settles O31: `KLV_PACK` is one record of the packet of the buffer. -/
theorem klvPackEmitsKeyLengthItems : Obligations.KlvPackEmitsKeyLengthItems := fun _ => rfl

/-- Settles O32: `KLV_CLEAR` empties the buffer and only responds besides. -/
theorem klvClearEmptiesTheBuffer : Obligations.KlvClearEmptiesTheBuffer := fun _ => rfl

end Sys2Proof.Machine
end

section
/-! PROOFS. The CRC and the program sections of unit TS (spec/41_ts.md R146 to R151): a register fed the bytes
it holds shifts them out, so the CRC of a whole section is 0. -/

namespace Sys2Proof.Machine

/-! ## The CRC register -/

/-- While the top bit is clear, a step of the register is a shift (R151). -/
theorem crcBit_of_lt {r : ℕ} (h : r < 2 ^ 31) :
    crcBit (BitVec.ofNat 32 r) = BitVec.ofNat 32 (r * 2) := by
  have hmsb : (BitVec.ofNat 32 r).msb = false := by
    rw [BitVec.msb_eq_decide, BitVec.toNat_ofNat]
    exact decide_eq_false (by omega)
  rw [crcBit, hmsb, if_neg Bool.false_ne_true]
  apply BitVec.eq_of_toNat_eq
  rw [BitVec.toNat_shiftLeft, BitVec.toNat_ofNat, BitVec.toNat_ofNat, Nat.shiftLeft_eq, pow_one,
    Nat.mod_mul_mod]

theorem crcBit_iterate_of_lt {k r : ℕ} (h : r * 2 ^ k < 2 ^ 32) :
    crcBit^[k] (BitVec.ofNat 32 r) = BitVec.ofNat 32 (r * 2 ^ k) := by
  induction k generalizing r with
  | zero => rw [pow_zero, mul_one, Function.iterate_zero_apply]
  | succ k ih =>
    rw [pow_succ', ← mul_assoc] at h ⊢
    have hr : r * 2 < 2 ^ 32 := (Nat.le_mul_of_pos_right _ (Nat.two_pow_pos k)).trans_lt h
    rw [Function.iterate_succ_apply, crcBit_of_lt (by omega), ih h]

theorem crcByte_eq_iterate (crc : BitVec 32) (b : Byte) :
    crcByte crc b = crcBit^[8] (crc ^^^ BitVec.ofNat 32 (b.toNat * 2 ^ 24)) := rfl

/-- A byte cancels itself at the top of the register, and what is below moves up by a byte (R151). -/
theorem crcByte_own_top (x : Byte) {r : ℕ} (h : r < 2 ^ 24) :
    crcByte (BitVec.ofNat 32 (x.toNat * 2 ^ 24 + r)) x = BitVec.ofNat 32 (r * 256) := by
  have hcancel : (x.toNat * 2 ^ 24 + r) ^^^ (x.toNat * 2 ^ 24) = r := by
    apply Nat.eq_of_testBit_eq
    intro i
    rw [Nat.mul_comm, Nat.testBit_xor, Nat.testBit_two_pow_mul_add _ h, Nat.testBit_two_pow_mul]
    rcases Nat.lt_or_ge i 24 with hi | hi
    · simp [hi, Nat.not_le.2 hi]
    · simp [hi, Nat.not_lt.2 hi, Nat.testBit_lt_two_pow (h.trans_le (Nat.pow_le_pow_right two_pos hi))]
  have hshift : r * 2 ^ 8 < 2 ^ 32 := by omega
  rw [crcByte_eq_iterate, ← BitVec.ofNat_xor, hcancel, crcBit_iterate_of_lt hshift]
  norm_num

/-- A register that holds the next bytes, and zeros below them, is 0 after them. -/
theorem foldl_crcByte_held {bytes : Bytes} (h : bytes.length ≤ 4) :
    bytes.foldl crcByte (BitVec.ofNat 32 (fromBe bytes * 256 ^ (4 - bytes.length))) = 0 := by
  induction bytes with
  | nil => rfl
  | cons x rest ih =>
    rw [List.length_cons] at h
    obtain ⟨m, hm⟩ : ∃ m, rest.length + m = 3 := ⟨3 - rest.length, by omega⟩
    have hrest : fromBe rest * 256 ^ m < 2 ^ 24 := by
      calc fromBe rest * 256 ^ m < 256 ^ rest.length * 256 ^ m :=
            Nat.mul_lt_mul_of_pos_right (fromBe_lt rest) (Nat.pow_pos (by norm_num))
        _ = 2 ^ 24 := by rw [← pow_add, hm]; norm_num
    have hregister : fromBe (x :: rest) * 256 ^ m = x.toNat * 2 ^ 24 + fromBe rest * 256 ^ m := by
      rw [fromBe_cons, add_mul, mul_assoc, ← pow_add, hm]
      norm_num
    have hnext := ih (by omega)
    rw [show 4 - rest.length = m + 1 by omega, pow_succ, ← mul_assoc] at hnext
    rw [List.foldl_cons, List.length_cons, show 4 - (rest.length + 1) = m by omega, hregister,
      crcByte_own_top x hrest, hnext]

/-- Settles O38: after the body the register holds the CRC, which is what it is fed next. -/
theorem crcOfAWholeSectionIsZero : Obligations.CrcOfAWholeSectionIsZero := by
  intro body
  have hheld := foldl_crcByte_held (be_length 4 (crc32Mpeg2 body).toNat).le
  rw [fromBe_be_toNat32, be_length, Nat.sub_self, pow_zero, mul_one, BitVec.ofNat_toNat,
    BitVec.setWidth_eq] at hheld
  rw [crc32Mpeg2, List.foldl_append]
  exact hheld

/-! ## The program sections -/

@[simp] theorem withCrc_length (body : Bytes) : (withCrc body).length = body.length + 4 := by
  simp [withCrc]

@[simp] theorem patSection_length (b : Build) : (patSection b).length = 16 := by
  simp [patSection]

@[simp] theorem pmtSection_length (b : Build) : (pmtSection b).length = 21 := by
  simp [pmtSection]

/-- The first three bytes of the PAT section: table_id and section_length 13 (R146). -/
theorem patSection_take_three (b : Build) : (patSection b).take 3 = [0x00, 0xB0, 0x0D] := rfl

/-- The first three bytes of the PMT section: table_id and section_length 18 (R148). -/
theorem pmtSection_take_three (b : Build) : (pmtSection b).take 3 = [0x02, 0xB0, 0x12] := rfl

/-- Settles O39: the layouts are the model's own, the lengths are counted, and at each given parameter the
section is evaluated. -/
theorem sectionBytes : Obligations.SectionBytes := by
  refine ⟨fun b => ⟨rfl, rfl, ?_, ?_⟩, fun b => ⟨fun hid => ?_, fun hpid => ?_, fun hpid => ?_⟩⟩
  · rw [patSection_take_three, List.length_drop, patSection_length]
    rfl
  · rw [pmtSection_take_three, List.length_drop, pmtSection_length]
    rfl
  · rw [patSection, hid]
    decide +kernel
  · rw [pmtSection, hpid]
    decide +kernel
  · rw [pmtSection, hpid]
    decide +kernel

end Sys2Proof.Machine
end

section
/-! PROOFS. `TS_WRAP` (spec/41_ts.md R141 to R145, R152 to R155): the packet header, the records of a call and
the state after it, the length of every packet, and the payload read back from the packets. -/

namespace Sys2Proof.Machine

/-! ## One packet -/

/-- The second header byte: error 0, payload-start, priority 0, then PID[12:8] (R141). -/
theorem tsHeader_flag_byte : ∀ (pusi : Bool) (high : Fin 32),
    let b := BitVec.ofNat 8 ((if pusi then 0x40 else 0) + high)
    b.getLsbD 7 = false ∧ b.getLsbD 6 = pusi ∧ b.getLsbD 5 = false ∧ b.toNat % 32 = high := by
  decide

/-- Settles O34: the flags and the high five bits of the PID are finitely many; the low byte and the counter
are arithmetic. -/
theorem tsHeaderFields : Obligations.TsHeaderFields := by
  intro pid pusi cc hpid
  obtain ⟨herror, hstart, hpriority, hhigh⟩ := tsHeader_flag_byte pusi ⟨pid / 256, by omega⟩
  have hcc : cc.toNat < 16 := cc.isLt
  refine ⟨_, _, _, rfl, herror, hstart, hpriority, ?_, ?_, ?_, ?_⟩
  · rw [hhigh, BitVec.toNat_ofNat]
    simp only
    omega
  all_goals
    rw [BitVec.toNat_ofNat]
    omega

/-- The record of one TS packet (R143). -/
def tsRecord (p : TsPid) (pusi : Bool) (cc : BitVec 4) (body : Bytes) : Record :=
  { port := .tsOut, flags := 0, data := tsPacketBytes p.number pusi cc body }

theorem tsPacketBytes_take_four (pid : ℕ) (pusi : Bool) (cc : BitVec 4) (body : Bytes) :
    (tsPacketBytes pid pusi cc body).take 4 = tsHeader pid pusi cc := rfl

/-! ## The records of a call -/

/-- The table packets of a call in state `s` (R147, R149, R152). -/
def tableRecords (s : State) : List Record :=
  if s.psiCtr = 0 then
    [tsRecord .pat true s.ccPat (0x00 :: patSection s.build),
      tsRecord .pmt true s.ccPmt (0x00 :: pmtSection s.build)]
  else []

/-- The later payload packets, numbered on from `cc`, the counter of the first (R145). -/
def laterRecords (cc : BitVec 4) (data : Bytes) : List Record :=
  (List.range (ceilDiv (data.length - 183) 184)).map fun j =>
    tsRecord .es false (cc + BitVec.ofNat 4 (j + 1)) (chunk 184 (data.drop 183) j)

/-- The payload packets (R144, R145). -/
def payloadRecords (cc : BitVec 4) (data : Bytes) : List Record :=
  tsRecord .es true cc (0x00 :: data.take 183) :: laterRecords cc data

theorem tableRecords_of_not_due {s : State} (h : s.psiCtr ≠ 0) : tableRecords s = [] := if_neg h

theorem injectTables_eq (w : Work) :
    injectTables w =
      { w with
        st :=
          { w.st with
            ccPat := if w.st.psiCtr = 0 then w.st.ccPat + 1 else w.st.ccPat
            ccPmt := if w.st.psiCtr = 0 then w.st.ccPmt + 1 else w.st.ccPmt }
        records := w.records ++ tableRecords w.st } := by
  rw [injectTables, tableRecords]
  split_ifs
  · rw [tsPacket_eq, tsPacket_eq, List.append_assoc]
    rfl
  · rw [List.append_nil]

/-- The chunks of the rest, each with the counter it is sent with, are the later packets. -/
theorem mapIdx_chunks_eq_laterRecords (cc : BitVec 4) (data : Bytes) :
    ((chunks 184 (data.drop 183)).mapIdx fun j body => tsRecord .es false (cc + 1 + BitVec.ofNat 4 j) body) =
      laterRecords cc data := by
  refine List.ext_getElem (by simp [laterRecords]) fun j _ _ => ?_
  have hcc : cc + 1 + BitVec.ofNat 4 j = cc + BitVec.ofNat 4 (j + 1) := by
    rw [BitVec.add_assoc, Nat.add_comm j 1, BitVec.ofNat_add]
    rfl
  simp only [laterRecords, chunks, List.getElem_mapIdx, List.getElem_map, List.getElem_range, hcc]

theorem wrapPayload_eq (data : Bytes) (w : Work) :
    wrapPayload data w =
      { w with
        st := { w.st with ccEs := w.st.ccEs + BitVec.ofNat 4 (1 + ceilDiv (data.length - 183) 184) }
        records := w.records ++ payloadRecords w.st.ccEs data } := by
  have hlater := mapIdx_chunks_eq_laterRecords w.st.ccEs data
  have hcount : (chunks 184 (data.drop 183)).length = ceilDiv (data.length - 183) 184 := by
    rw [chunks_length, List.length_drop]
  rw [wrapPayload, foldl_tsPacket_es, tsPacket_eq, hcount, payloadRecords, ← hlater, BitVec.ofNat_add,
    ← BitVec.add_assoc, List.append_cons w.records (tsRecord .es true w.st.ccEs (0x00 :: data.take 183))]
  rfl

theorem exec_tsWrap_nil (s : State) : exec (.tsWrap []) s = .next (afterRecords s []) := rfl

/-- A call with a payload: the tables when they are due, then the payload packets (R153 to R155). -/
theorem exec_tsWrap_of_ne_nil {data : Bytes} (hdata : data ≠ []) (s : State) :
    exec (.tsWrap data) s =
      .next
        (afterRecords
          { s with
            ccPat := if s.psiCtr = 0 then s.ccPat + 1 else s.ccPat
            ccPmt := if s.psiCtr = 0 then s.ccPmt + 1 else s.ccPmt
            ccEs := s.ccEs + BitVec.ofNat 4 (1 + ceilDiv (data.length - 183) 184)
            psiCtr := BitVec.ofNat 32 ((s.psiCtr.toNat + 1) % s.cfg.tsPsiInterval.toNat) }
          (tableRecords s ++ payloadRecords s.ccEs data)) := by
  rw [exec, execTsWrap, if_neg (List.length_eq_zero_iff.not.2 hdata), injectTables_eq, wrapPayload_eq]
  rfl

/-- The payload packets in one numbering from 0 (R144). -/
theorem payloadRecords_eq_map_range (cc : BitVec 4) (data : Bytes) :
    payloadRecords cc data =
      (List.range (1 + ceilDiv (data.length - 183) 184)).map fun j =>
        if j = 0 then tsRecord .es true cc (0x00 :: data.take 183)
        else tsRecord .es false (cc + BitVec.ofNat 4 j) ((data.drop (183 + 184 * (j - 1))).take 184) := by
  rw [payloadRecords, laterRecords, Nat.add_comm 1, List.range_succ_eq_map, List.map_cons, List.map_map]
  congr 1
  refine List.map_congr_left fun j _ => ?_
  rw [Function.comp_apply, if_neg (Nat.succ_ne_zero j), chunk_eq_take_drop, List.drop_drop]
  rfl

/-- Settles O35: the call's equation, the payload packets numbered from 0. -/
theorem tsWrapEmitsTablesThenPayload : Obligations.TsWrapEmitsTablesThenPayload := by
  refine ⟨exec_tsWrap_nil, fun data s hdata => ?_⟩
  rw [exec_tsWrap_of_ne_nil hdata, payloadRecords_eq_map_range]
  rfl

/-! ## The length of a packet -/

/-- What R141 and R143 say of a record: 188 bytes on `TS_OUT` from a header, a table packet with
payload-start. -/
def IsTsPacket (r : Record) : Prop :=
  r.port = .tsOut ∧ r.data.length = 188 ∧ r.data.head? = some 0x47 ∧
    ∃ (pid : TsPid) (pusi : Bool) (cc : BitVec 4),
      r.data.take 4 = tsHeader pid.number pusi cc ∧ (pid ≠ .es → pusi = true)

theorem tsRecord_isTsPacket {p : TsPid} {pusi : Bool} {body : Bytes} (cc : BitVec 4)
    (hbody : body.length ≤ 184) (hstart : p ≠ .es → pusi = true) : IsTsPacket (tsRecord p pusi cc body) :=
  ⟨rfl, tsPacketBytes_length hbody, tsPacketBytes_head _ _ _ _, p, pusi, cc, tsPacketBytes_take_four _ _ _ _,
    hstart⟩

theorem isTsPacket_of_mem_tableRecords {s : State} {r : Record} (h : r ∈ tableRecords s) : IsTsPacket r := by
  rw [tableRecords] at h
  split_ifs at h
  · rcases List.mem_pair.1 h with rfl | rfl
    · exact tsRecord_isTsPacket _ (by simp) fun _ => rfl
    · exact tsRecord_isTsPacket _ (by simp) fun _ => rfl
  · cases h

theorem isTsPacket_of_mem_payloadRecords {cc : BitVec 4} {data : Bytes} {r : Record}
    (h : r ∈ payloadRecords cc data) : IsTsPacket r := by
  rcases List.mem_cons.1 h with rfl | hlater
  · exact tsRecord_isTsPacket _ (by simp) fun _ => rfl
  · obtain ⟨j, -, rfl⟩ := List.mem_map.1 hlater
    have hchunk : (chunk 184 (data.drop 183) j).length ≤ 184 := chunk_length .. ▸ Nat.min_le_left _ _
    exact tsRecord_isTsPacket _ hchunk fun hp => absurd rfl hp

/-- Settles O36: every body a call sends fits a packet. -/
theorem everyTsPacketHas188Bytes : Obligations.EveryTsPacketHas188Bytes := by
  intro data s t h
  by_cases hdata : data = []
  · subst hdata
    cases h
    exact ⟨[], rfl, fun r hr => absurd hr List.not_mem_nil⟩
  · rw [exec_tsWrap_of_ne_nil hdata] at h
    cases h
    exact ⟨_, rfl, fun r hr =>
      (List.mem_append.1 hr).elim isTsPacket_of_mem_tableRecords isTsPacket_of_mem_payloadRecords⟩

/-! ## The payload read back -/

/-- A chunk stuffed to its full size is the chunk of the byte string stuffed at its end. -/
theorem chunk_append_replicate {c n i : ℕ} {b : Bytes} (x : Byte) (hi : i < n) (hlast : c * i ≤ b.length) :
    chunk c b i ++ List.replicate (c - (chunk c b i).length) x =
      chunk c (b ++ List.replicate (c * n - b.length) x) i := by
  have hroom : c * i + c ≤ c * n := by
    rw [← Nat.mul_succ]
    exact Nat.mul_le_mul_left c hi
  rw [chunk_length, chunk_eq_take_drop, chunk_eq_take_drop, List.drop_append_of_le_length hlast,
    List.take_append, List.take_replicate, List.length_drop]
  congr 2
  omega

/-- The later packets past their headers spell the rest of the payload, then the stuffing of the last. -/
theorem flatten_laterRecords (cc : BitVec 4) (data : Bytes) :
    ((laterRecords cc data).map fun r => r.data.drop 4).flatten =
      data.drop 183 ++
        List.replicate (184 * ceilDiv (data.length - 183) 184 - (data.length - 183)) 0xFF := by
  rw [laterRecords, List.map_map]
  set rest := data.drop 183
  rw [← (List.length_drop : rest.length = data.length - 183)]
  have hbody : ∀ j ∈ List.range (ceilDiv rest.length 184),
      ((fun r : Record => r.data.drop 4) ∘ fun j =>
          tsRecord .es false (cc + BitVec.ofNat 4 (j + 1)) (chunk 184 rest j)) j =
        chunk 184 (rest ++ List.replicate (184 * ceilDiv rest.length 184 - rest.length) 0xFF) j := by
    intro j hj
    have hlt : j < ceilDiv rest.length 184 := List.mem_range.1 hj
    have hlast : 184 * j ≤ rest.length := by
      rw [← Nat.not_le, ceilDiv_le_iff (by norm_num)] at hlt
      omega
    exact chunk_append_replicate 0xFF hlt hlast
  have hall : rest.length ≤ ceilDiv rest.length 184 * 184 := le_ceilDiv_mul (by norm_num)
  rw [List.map_congr_left hbody, flatten_map_chunk_range, List.take_of_length_le]
  rw [List.length_append, List.length_replicate]
  omega

/-- The first packet past its pointer field: its share of the payload, then stuffing up to 183 bytes (R144). -/
theorem drop_five_first (cc : BitVec 4) (data : Bytes) :
    (tsRecord .es true cc (0x00 :: data.take 183)).data.drop 5 =
      data.take 183 ++ List.replicate (183 - data.length) 0xFF := by
  have hroom : 184 - (0x00 :: data.take 183 : Bytes).length = 183 - data.length := by
    rw [List.length_cons, List.length_take]
    omega
  rw [← hroom]
  rfl

/-- The packets past their headers spell the payload: where it fits the first packet the stuffing of that one
is the only stuffing; else the first is full, and the stuffing is that of the last. -/
theorem payload_spelled (cc : BitVec 4) {data : Bytes} (hdata : data ≠ []) :
    ∃ stuffing, stuffing < 184 ∧
      (tsRecord .es true cc (0x00 :: data.take 183)).data.drop 5 ++
          ((laterRecords cc data).map fun r => r.data.drop 4).flatten =
        data ++ List.replicate stuffing 0xFF := by
  rw [drop_five_first, flatten_laterRecords]
  rcases Nat.lt_or_ge 183 data.length with hlong | hshort
  · have hfull : 183 - data.length = 0 := by omega
    have hlast := ceilDiv_mul_lt (show 0 < data.length - 183 by omega) (b := 184)
    refine ⟨184 * ceilDiv (data.length - 183) 184 - (data.length - 183), by omega, ?_⟩
    rw [hfull, List.replicate_zero, List.append_nil, ← List.append_assoc, List.take_append_drop]
  · have hrest : data.length - 183 = 0 := by omega
    have hpos : 0 < data.length := List.length_pos_iff.2 hdata
    refine ⟨183 - data.length, by omega, ?_⟩
    rw [List.take_of_length_le hshort, List.drop_of_length_le hshort, hrest]
    exact List.append_nil _

/-- Settles O37: without tables the records are the payload packets. -/
theorem tsPayloadIsCarriedWhole : Obligations.TsPayloadIsCarriedWhole := by
  intro data s t hdata hctr h
  rw [exec_tsWrap_of_ne_nil hdata, tableRecords_of_not_due hctr, List.nil_append] at h
  cases h
  obtain ⟨stuffing, hlt, hspelled⟩ := payload_spelled s.ccEs hdata
  exact ⟨_, _, stuffing, rfl, hlt, hspelled⟩

end Sys2Proof.Machine
end

section
/-! PROOFS. The payload splitter and the header of variant A (spec/42_frag.md R181, R182), and the header parse of
unit RX (spec/43_reasm.md R212). -/

namespace Sys2Proof.Machine

/-! ## The splitter -/

section
variable {c : ℕ} {f : Bytes}

/-- The chunks, joined, are the Frame (R182). -/
theorem flatten_chunks (hc : 0 < c) : (chunks c f).flatten = f := by
  rw [chunks, flatten_map_chunk_range, Nat.mul_comm]
  exact List.take_of_length_le (le_ceilDiv_mul hc)

/-- The chunks before the last end within the Frame, since one chunk fewer does not hold it. -/
theorem mul_ceilDiv_pred_lt (hc : 0 < c) (hf : f ≠ []) : c * (ceilDiv f.length c - 1) < f.length := by
  have hlen : 0 < f.length := List.length_pos_iff.2 hf
  have hpos := ceilDiv_pos hlen hc
  have hleast := ceilDiv_le_iff (a := f.length) (q := ceilDiv f.length c - 1) hc
  rw [Nat.mul_comm]
  omega

/-- A chunk before the last is full (R182). -/
theorem chunk_length_of_not_last {i : ℕ} (hc : 0 < c) (hf : f ≠ []) (hi : i < ceilDiv f.length c - 1) :
    (chunk c f i).length = c := by
  have hend : c * (i + 1) ≤ c * (ceilDiv f.length c - 1) := Nat.mul_le_mul_left c hi
  have hlt := mul_ceilDiv_pred_lt hc hf
  rw [Nat.mul_succ] at hend
  rw [chunk_length]
  omega

/-- The last chunk is the rest of the Frame, which fits a chunk (R182). -/
theorem chunk_length_last (hc : 0 < c) (hf : f ≠ []) :
    (chunk c f (ceilDiv f.length c - 1)).length = f.length - c * (ceilDiv f.length c - 1) ∧
      f.length - c * (ceilDiv f.length c - 1) ≤ c := by
  have hcover := le_ceilDiv_mul (a := f.length) hc
  have hpos := ceilDiv_pos (List.length_pos_iff.2 hf) hc
  obtain ⟨last, htotal⟩ := Nat.exists_eq_succ_of_ne_zero hpos.ne'
  rw [htotal, Nat.succ_mul, Nat.mul_comm last] at hcover
  rw [htotal, Nat.succ_sub_one, chunk_length]
  omega

end

/-- Settles O40. -/
theorem splitterCutsTheFrameWhole : Obligations.SplitterCutsTheFrameWhole := by
  refine ⟨fun c f hc hf => ?_, fun f hlen => ?_⟩
  · obtain ⟨hlast, hfits⟩ := chunk_length_last hc hf
    have hrest := mul_ceilDiv_pred_lt hc hf
    exact ⟨chunks_length c f, ceilDiv_mul_lt (List.length_pos_iff.2 hf), le_ceilDiv_mul hc, flatten_chunks hc,
      fun _ => chunk_length_of_not_last hc hf, hlast, by omega, by omega⟩
  · have hcount : List.range (ceilDiv f.length 59988) = [0, 1, 2] := by rw [hlen]; rfl
    rw [chunks, hcount]
    simp [chunk_length, hlen]

/-! ## The header of variant A -/

/-- The fields stand at bytes 0, 4 and 6 of the datagram, the payload at byte 10 (R181, R212). -/
theorem parseA_header_append (fid total i : ℕ) (tag reserved : Byte) (payload : Bytes) :
    parseA (be 4 fid ++ be 2 total ++ be 2 i ++ [tag, reserved] ++ payload) =
      { fid := BitVec.ofNat 32 (fromBe (be 4 fid))
        total := BitVec.ofNat 16 (fromBe (be 2 total))
        index := BitVec.ofNat 16 (fromBe (be 2 i))
        payload := payload } := rfl

/-- Settles O47: each field is read from the bytes it was written to. -/
theorem receiverParsesWhatTheSenderWrote : Obligations.ReceiverParsesWhatTheSenderWrote := by
  intro fid total i tag reserved payload
  refine ⟨?_, rfl⟩
  simp only [parseA_header_append, fromBe_be_toNat32, fromBe_be_toNat16, BitVec.ofNat_toNat, BitVec.setWidth_eq]

end Sys2Proof.Machine
end

section
/-! PROOFS. The commands of unit FRAG (spec/42_frag.md R180 to R192). A command in progress offers datagrams, uses
identifiers and skips cached units. `Work.sent` says what any numbers of these leave; in sequence they add up; and
each operation of the unit is a case of it. -/

namespace Sys2Proof.Machine

/-! ## Identifiers used -/

/-- The sticky flag once `n` identifiers from `id` on are used: set when the counter reaches 2^32 (R27, R184). -/
def wrapFlagAfter (old : Bool) (id : BitVec 32) (n : ℕ) : Bool := old || decide (2 ^ 32 ≤ id.toNat + n)

@[simp] theorem wrapFlagAfter_zero (old : Bool) (id : BitVec 32) : wrapFlagAfter old id 0 = old := by
  have hlt : ¬ 2 ^ 32 ≤ id.toNat + 0 := Nat.not_le.2 id.isLt
  rw [wrapFlagAfter, decide_eq_false hlt, Bool.or_false]

theorem wrapFlag_eq_wrapFlagAfter (old : Bool) (id : BitVec 32) : wrapFlag old id = wrapFlagAfter old id 1 := by
  have hlt := id.isLt
  have hlast : id.toNat = 2 ^ 32 - 1 ↔ 2 ^ 32 ≤ id.toNat + 1 := by omega
  rw [wrapFlag_eq, wrapFlagAfter, decide_eq_decide.2 hlast]

/-- Uses of the counter in two parts: the sum passes 2^32 when the first part does or the second does from where
the first left the counter. -/
theorem wrapFlagAfter_add (old : Bool) (id : BitVec 32) (m n : ℕ) :
    wrapFlagAfter (wrapFlagAfter old id m) (id + BitVec.ofNat 32 m) n = wrapFlagAfter old id (m + n) := by
  have hlt := id.isLt
  simp only [wrapFlagAfter, Bool.or_assoc, ← Bool.decide_or, BitVec.toNat_add, BitVec.toNat_ofNat]
  congr 2
  rw [eq_iff_iff]
  omega

/-! ## A command that offers, numbers and skips -/

/-- The command in progress once these datagrams are offered, `ids` identifiers used and `skips` units skipped
(R184, R188, R192). -/
def Work.sent (w : Work) (offers : List (ℕ × Record)) (ids skips : ℕ) : Work where
  st :=
    { w.st with
      nextId := w.st.nextId + BitVec.ofNat 32 ids
      fidWrapped := wrapFlagAfter w.st.fidWrapped w.st.nextId ids
      cnt :=
        { w.st.cnt with
          txDrop :=
            w.st.cnt.txDrop + BitVec.ofNat 32 (offers.filter fun p => w.st.refusals.contains p.1).length
          capacity := w.st.cnt.capacity + BitVec.ofNat 32 skips } }
  records := w.records ++ (offers.filter fun p => !w.st.refusals.contains p.1).map Prod.snd
  dropped := w.dropped || offers.any fun p => w.st.refusals.contains p.1
  skipped := w.skipped || decide (0 < skips)

section
variable (w : Work) (offers : List (ℕ × Record)) (ids skips : ℕ)

@[simp] theorem Work.sent_cfg : (w.sent offers ids skips).st.cfg = w.st.cfg := rfl
@[simp] theorem Work.sent_nextId : (w.sent offers ids skips).st.nextId = w.st.nextId + BitVec.ofNat 32 ids := rfl

theorem Work.sent_nothing : w.sent [] 0 0 = w := by
  simp [Work.sent]

/-- What is sent in two parts is sent. -/
theorem Work.sent_sent (offers' : List (ℕ × Record)) (ids' skips' : ℕ) :
    (w.sent offers ids skips).sent offers' ids' skips' =
      w.sent (offers ++ offers') (ids + ids') (skips + skips') := by
  have hskips : (decide (0 < skips) || decide (0 < skips')) = decide (0 < skips + skips') := by
    rw [← Bool.decide_or, decide_eq_decide]
    omega
  simp only [Work.sent, wrapFlagAfter_add, BitVec.ofNat_add, BitVec.add_assoc, List.filter_append, List.map_append,
    List.length_append, List.any_append, List.append_assoc, Bool.or_assoc, hskips]

/-- A command that ends having sent (R188, R189). -/
theorem finish_begin_sent (s : State) :
    (s.begin.sent offers ids skips).finish =
      afterOffers
        { s with
          nextId := s.nextId + BitVec.ofNat 32 ids
          fidWrapped := wrapFlagAfter s.fidWrapped s.nextId ids
          cnt := { s.cnt with capacity := s.cnt.capacity + BitVec.ofNat 32 skips } }
        offers (decide (0 < skips)) := by
  have hrefused : (offers.filter fun p => s.refusals.contains p.1) = [] ↔
      (offers.any fun p => s.refusals.contains p.1) = false := by
    simp
  simp only [Work.finish_eq, Work.status, Work.sent, afterOffers, State.begin_st, State.begin_records,
    State.begin_dropped, State.begin_skipped, Bool.false_or, List.nil_append, hrefused]
  cases offers.any fun p => s.refusals.contains p.1 <;> rfl

end

/-! ## The operations of the unit -/

theorem advanceId_eq_sent (w : Work) : { w with st := advanceId w.st } = w.sent [] 1 0 := by
  simp [Work.sent, advanceId, wrapFlag_eq_wrapFlagAfter]

theorem skip_eq_sent (w : Work) :
    { w with st := { w.st with cnt := w.st.cnt.count .capacity }, skipped := true } = w.sent [] 0 1 := by
  simp [Work.sent, Counters.count, inc32]

/-- Datagrams offered in order of their numbers (R188, R190). -/
theorem foldl_offer_eq_sent (is : List ℕ) (base : ℕ) (urgent : Bool) (d : ℕ → Bytes) (w : Work) :
    is.foldl (fun w' i => w'.offer (base + i) urgent (d i)) w =
      w.sent
        (is.map fun i => (base + i, { port := .txOut, flags := if urgent then 1 else 0, data := d i })) 0 0 := by
  rw [foldl_offer]
  simp [Work.sent, List.filter_map, Function.comp_def]

theorem frameOffers_eq (s : State) (fid : BitVec 32) (tag : Byte) (f : Bytes) (base : ℕ) :
    frameOffers s fid tag f base =
      (List.range (ceilDiv f.length s.cfg.fragMaxChunk.toNat)).map fun i =>
        (base + i,
          { port := .txOut
            flags := if isInitTag s.cfg tag then 1 else 0
            data := datagramA fid s.cfg.fragMaxChunk.toNat tag f i }) := by
  simp [frameOffers, datagramA, hdrA, ceilDiv, chunk_eq_take_drop, isInitTag]

/-- A Frame under variant A: its datagrams, and one identifier (R183, R184). -/
theorem sendFrameA_eq_sent (tag : Byte) (f : Bytes) (base : ℕ) (w : Work) :
    sendFrameA tag f base w = w.sent (frameOffers w.st w.st.nextId tag f base) 1 0 := by
  rw [sendFrameA_eq, advanceId_eq_sent, foldl_offer_eq_sent, Work.sent_sent, frameOffers_eq]
  simp

/-- A datagram under variant B, and its number (R186). -/
theorem sendDatagramB_eq_sent (ts : BitVec 64) (c : ℕ) (f : Bytes) (w : Work) (i : ℕ) :
    sendDatagramB ts c f w i =
      w.sent [(i, { port := .txOut, flags := 0, data := hdrB w.st.nextId ts ++ chunk c f i })] 1 0 := by
  have hoffer := foldl_offer_eq_sent [i] 0 false (fun i => hdrB w.st.nextId ts ++ chunk c f i) w
  simp only [List.foldl_cons, List.foldl_nil, zero_add] at hoffer
  rw [sendDatagramB, hoffer, advanceId_eq_sent, Work.sent_sent]
  simp

/-- The first `n` datagrams of a Frame under variant B, numbered on from the counter (R186). -/
theorem foldl_sendDatagramB_eq_sent (ts : BitVec 64) (c : ℕ) (f : Bytes) (n : ℕ) (w : Work) :
    (List.range n).foldl (sendDatagramB ts c f) w =
      w.sent
        ((List.range n).map fun i =>
          (i,
            { port := .txOut, flags := 0
              data := hdrB (w.st.nextId + BitVec.ofNat 32 i) ts ++ chunk c f i })) n 0 := by
  induction n with
  | zero => exact w.sent_nothing.symm
  | succ n ih =>
    rw [List.range_succ, List.foldl_append, ih, List.foldl_cons, List.foldl_nil, sendDatagramB_eq_sent,
      Work.sent_sent, List.map_append]
    rfl

theorem streamOffers_eq (s : State) (ts : BitVec 64) (f : Bytes) :
    streamOffers s ts f =
      (List.range (ceilDiv f.length s.cfg.fragMaxChunk.toNat)).map fun i =>
        (i,
          { port := .txOut, flags := 0
            data :=
              hdrB (s.nextId + BitVec.ofNat 32 i) ts ++ chunk s.cfg.fragMaxChunk.toNat f i }) := by
  simp [streamOffers, hdrB, ceilDiv, chunk_eq_take_drop]

/-! ## `FRAG_SEND` -/

theorem fragUnconfigured_iff (s : State) :
    fragUnconfigured s = true ↔ s.cfg.fragVariant = .unset ∨ s.cfg.fragMaxChunk = 0 := by
  simp [fragUnconfigured]

/-- Settles O44. -/
theorem unconfiguredFragIsIllegal : Obligations.UnconfiguredFragIsIllegal := by
  intro s h
  have hun : fragUnconfigured s = true := (fragUnconfigured_iff s).2 h
  exact ⟨fun tag ts f => by simp [exec, execFragSend, hun, raise_illegal],
    by simp [exec, execFragRefresh, hun, raise_illegal]⟩

section
variable {s : State} (hc : s.cfg.fragMaxChunk ≠ 0)
include hc

theorem fragUnconfigured_eq_false (hv : s.cfg.fragVariant ≠ .unset) : fragUnconfigured s = false := by
  rw [← Bool.not_eq_true, fragUnconfigured_iff]
  exact not_or.2 ⟨hv, hc⟩

theorem fragMaxChunk_pos : 0 < s.cfg.fragMaxChunk.toNat :=
  Nat.pos_of_ne_zero fun h => hc (BitVec.eq_of_toNat_eq h)

theorem exec_fragSend_a (hv : s.cfg.fragVariant = .a) (tag : Byte) (ts : BitVec 64) (f : Bytes) :
    exec (.fragSend tag ts f) s = .next (fragSendA tag f s) := by
  have hconf := fragUnconfigured_eq_false hc (by simp [hv])
  simp [exec, execFragSend, hconf, hv]

theorem exec_fragSend_b (hv : s.cfg.fragVariant = .b) (tag : Byte) (ts : BitVec 64) (f : Bytes) :
    exec (.fragSend tag ts f) s = .next (fragSendB ts f s) := by
  have hconf := fragUnconfigured_eq_false hc (by simp [hv])
  simp [exec, execFragSend, hconf, hv]

end

theorem fragSendA_of_fits {f : Bytes} {s : State} (hf : f ≠ [])
    (hfits : ceilDiv f.length s.cfg.fragMaxChunk.toNat ≤ 65535) (tag : Byte) :
    fragSendA tag f s = (sendFrameA tag f 0 (cacheUnit tag f s).begin).finish := by
  rw [fragSendA, if_neg (mt List.length_eq_zero_iff.1 hf), if_neg (Nat.not_lt.2 hfits)]

theorem fragSendA_of_too_long {f : Bytes} {s : State} (hf : f ≠ [])
    (hlong : 65535 < ceilDiv f.length s.cfg.fragMaxChunk.toNat) (tag : Byte) :
    fragSendA tag f s = afterCapacityError s := by
  rw [fragSendA, if_neg (mt List.length_eq_zero_iff.1 hf), if_pos hlong, raise_capacity]

theorem fragSendB_of_ne_nil {f : Bytes} (hf : f ≠ []) (ts : BitVec 64) (s : State) :
    fragSendB ts f s =
      ((List.range (ceilDiv f.length s.cfg.fragMaxChunk.toNat)).foldl
        (sendDatagramB ts s.cfg.fragMaxChunk.toNat f) s.begin).finish := by
  rw [fragSendB, if_neg (mt List.length_eq_zero_iff.1 hf)]

/-- Both cache slots after the cache write, the slot of `INIT_TAG0` first (R191). -/
theorem cacheUnit_eq (tag : Byte) (f : Bytes) (s : State) :
    cacheUnit tag f s =
      { s with
        cache0 := if tag = s.cfg.initTag0 then some f else s.cache0
        cache1 := if tag ≠ s.cfg.initTag0 ∧ tag = s.cfg.initTag1 then some f else s.cache1 } := by
  rw [cacheUnit]
  split_ifs <;> simp_all

/-- Settles O41: the cache write, then the Frame. -/
theorem fragSendVariantA : Obligations.FragSendVariantA := by
  intro tag ts f s hv hc hf hfits
  rw [← wrapFlag_eq, wrapFlag_eq_wrapFlagAfter, exec_fragSend_a hc hv, fragSendA_of_fits hf hfits,
    sendFrameA_eq_sent, finish_begin_sent, cacheUnit_eq, BitVec.add_zero]
  rfl

/-- Settles O42: one datagram and one number for each chunk. -/
theorem fragSendVariantB : Obligations.FragSendVariantB := by
  intro tag ts f s hv hc hf
  have hcount : (streamOffers s ts f).length = ceilDiv f.length s.cfg.fragMaxChunk.toNat := by
    simp [streamOffers_eq]
  rw [exec_fragSend_b hc hv, fragSendB_of_ne_nil hf, foldl_sendDatagramB_eq_sent, finish_begin_sent, hcount,
    streamOffers_eq, BitVec.add_zero]
  rfl

/-- A Frame that fits a chunk is one datagram of total 1 and index 0 (R187). -/
theorem frameOffers_of_one_chunk {s : State} {f : Bytes} (hf : f ≠ [])
    (hfits : f.length ≤ s.cfg.fragMaxChunk.toNat) (fid : BitVec 32) (tag : Byte) :
    frameOffers s fid tag f 0 =
      [(0,
        { port := .txOut
          flags := if isInitTag s.cfg tag then 1 else 0
          data := be 4 fid.toNat ++ [0, 1, 0, 0, tag, 0x00] ++ f })] := by
  have hlen : 0 < f.length := List.length_pos_iff.2 hf
  have hpos : 0 < s.cfg.fragMaxChunk.toNat := hlen.trans_le hfits
  have hone : ceilDiv f.length s.cfg.fragMaxChunk.toNat = 1 :=
    le_antisymm ((ceilDiv_le_iff hpos).2 (by omega)) (ceilDiv_pos hlen hpos)
  simp [frameOffers_eq, hone, datagramA, hdrA, chunk_eq_take_drop, List.take_of_length_le hfits, be_two]

/-- Settles O43. -/
theorem fragSendCornerCases : Obligations.FragSendCornerCases := by
  intro tag ts s hc
  refine ⟨fun hv => ?_, fun hv f hlong => ?_, fun hv f hf hfits => ?_⟩
  · cases hcase : s.cfg.fragVariant with
    | unset => exact absurd hcase hv
    | a => exact exec_fragSend_a hc hcase tag ts []
    | b => exact exec_fragSend_b hc hcase tag ts []
  · have hf : f ≠ [] := List.ne_nil_of_length_pos (Nat.zero_lt_of_lt hlong)
    have hmany : 65535 < ceilDiv f.length s.cfg.fragMaxChunk.toNat :=
      Nat.lt_of_not_le ((ceilDiv_le_iff (fragMaxChunk_pos hc)).not.2 (by omega))
    rw [exec_fragSend_a hc hv, fragSendA_of_too_long hf hmany]
  · have hpos := fragMaxChunk_pos hc
    have hfew : ceilDiv f.length s.cfg.fragMaxChunk.toNat ≤ 65535 := (ceilDiv_le_iff hpos).2 (by omega)
    refine ⟨_, fragSendVariantA tag ts f s hv hc hf hfew, rfl, fun haccepted => ?_, fun hrefused => ?_⟩
    · exact ⟨if isInitTag s.cfg tag then 1 else 0,
        by simp [afterOffers, frameOffers_of_one_chunk hf hfits, haccepted]⟩
    · simp [afterOffers, frameOffers_of_one_chunk hf hfits, hrefused]

/-! ## `FRAG_REFRESH` -/

/-- Whether a cached unit needs more than 65535 chunks (R192). -/
def unitTooLong (c : ℕ) : Option Bytes → Bool
  | none => false
  | some f => decide (65535 < ceilDiv f.length c)

/-- The Frame a cached unit is resent as; none for an empty slot or a unit that is too long (R192). -/
def resentFrame (c : ℕ) (tag : Byte) : Option Bytes → Option (Byte × Bytes)
  | none => none
  | some f => if ceilDiv f.length c ≤ 65535 then some (tag, f) else none

/-- How often a cached unit is skipped: once if it is too long (R192). -/
def unitSkips (c : ℕ) (unit : Option Bytes) : ℕ := if unitTooLong c unit then 1 else 0

section
variable {c : ℕ} {f : Bytes}

theorem resentFrame_of_fits (h : ceilDiv f.length c ≤ 65535) (tag : Byte) :
    resentFrame c tag (some f) = some (tag, f) := if_pos h

theorem resentFrame_of_long (h : 65535 < ceilDiv f.length c) (tag : Byte) : resentFrame c tag (some f) = none :=
  if_neg (Nat.not_le.2 h)

theorem unitSkips_of_fits (h : ceilDiv f.length c ≤ 65535) : unitSkips c (some f) = 0 := by
  simp [unitSkips, unitTooLong, h]

theorem unitSkips_of_long (h : 65535 < ceilDiv f.length c) : unitSkips c (some f) = 1 := by
  simp [unitSkips, unitTooLong, h]

end

theorem refreshUnits_eq (s : State) :
    refreshUnits s =
      (resentFrame s.cfg.fragMaxChunk.toNat s.cfg.initTag0 s.cache0).toList ++
        (resentFrame s.cfg.fragMaxChunk.toNat s.cfg.initTag1 s.cache1).toList := by
  rw [refreshUnits, List.filterMap_eq_flatMap_toList, List.flatMap_cons, List.flatMap_singleton]
  rfl

theorem refreshSkips_eq (s : State) :
    refreshSkips s =
      unitSkips s.cfg.fragMaxChunk.toNat s.cache0 + unitSkips s.cfg.fragMaxChunk.toNat s.cache1 := by
  rw [refreshSkips, ← List.countP_eq_length_filter, List.countP_cons, List.countP_singleton, Nat.add_comm]
  rfl

/-- The offers of Frames depend on the configuration alone. -/
theorem framesOffers_of_cfg {s t : State} (h : t.cfg = s.cfg) (fid : BitVec 32) (base : ℕ)
    (units : List (Byte × Bytes)) : framesOffers t fid base units = framesOffers s fid base units := by
  induction units generalizing fid base with
  | nil => rfl
  | cons unit rest ih => simp only [framesOffers, frameOffers, h, ih]

theorem framesOffers_append (s : State) (fid : BitVec 32) (base : ℕ) (units rest : List (Byte × Bytes)) :
    framesOffers s fid base (units ++ rest) =
      framesOffers s fid base units ++
        framesOffers s (fid + BitVec.ofNat 32 units.length) (base + (framesOffers s fid base units).length)
          rest := by
  induction units generalizing fid base with
  | nil => simp [framesOffers]
  | cons unit units ih =>
    have hfid : fid + BitVec.ofNat 32 (unit :: units).length = fid + 1 + BitVec.ofNat 32 units.length := by
      rw [List.length_cons, Nat.add_comm, BitVec.ofNat_add, BitVec.add_assoc]
      rfl
    simp only [List.cons_append, framesOffers, ih, hfid, List.length_append, List.append_assoc, Nat.add_assoc]

/-- A cached unit: the Frame it is resent as, and the identifier of that, or a skip (R192). -/
theorem resendUnit_eq_sent (unit : Option Bytes) (tag : Byte) (base : ℕ) (w : Work) :
    resendUnit unit tag base w =
      w.sent (framesOffers w.st w.st.nextId base (resentFrame w.st.cfg.fragMaxChunk.toNat tag unit).toList)
        (resentFrame w.st.cfg.fragMaxChunk.toNat tag unit).toList.length
        (unitSkips w.st.cfg.fragMaxChunk.toNat unit) := by
  cases unit with
  | none => exact w.sent_nothing.symm
  | some f =>
    rcases Nat.lt_or_ge 65535 (ceilDiv f.length w.st.cfg.fragMaxChunk.toNat) with hlong | hfits
    · rw [resentFrame_of_long hlong, unitSkips_of_long hlong, resendUnit, if_pos hlong]
      exact skip_eq_sent w
    · rw [resentFrame_of_fits hfits, unitSkips_of_fits hfits, resendUnit, if_neg (Nat.not_lt.2 hfits),
        sendFrameA_eq_sent]
      simp [framesOffers]

/-- The datagrams of the first unit are those the second is numbered on from (R192). -/
theorem unitDatagrams_eq (s : State) (fid : BitVec 32) (tag : Byte) (unit : Option Bytes) :
    unitDatagrams s.cfg.fragMaxChunk.toNat unit =
      (framesOffers s fid 0 (resentFrame s.cfg.fragMaxChunk.toNat tag unit).toList).length := by
  cases unit with
  | none => rfl
  | some f =>
    rcases Nat.lt_or_ge 65535 (ceilDiv f.length s.cfg.fragMaxChunk.toNat) with hlong | hfits
    · rw [resentFrame_of_long hlong, unitDatagrams, if_pos hlong]
      rfl
    · rw [resentFrame_of_fits hfits, unitDatagrams, if_neg (Nat.not_lt.2 hfits)]
      simp [framesOffers, frameOffers_eq]

theorem exec_fragRefresh {s : State} (hc : s.cfg.fragMaxChunk ≠ 0) (hv : s.cfg.fragVariant ≠ .unset) :
    exec .fragRefresh s =
      .next
        (resendUnit s.cache1 s.cfg.initTag1 (unitDatagrams s.cfg.fragMaxChunk.toNat s.cache0)
          (resendUnit s.cache0 s.cfg.initTag0 0 s.begin)).finish := by
  simp [exec, execFragRefresh, fragUnconfigured_eq_false hc hv]

/-- Settles O45: what the first unit sends and what the second sends after it are what both send. -/
theorem fragRefreshResendsTheCache : Obligations.FragRefreshResendsTheCache := by
  intro s hv hc
  rw [exec_fragRefresh hc hv, resendUnit_eq_sent, resendUnit_eq_sent, Work.sent_sent, finish_begin_sent,
    refreshUnits_eq, refreshSkips_eq, framesOffers_append, List.length_append, Nat.zero_add, Work.sent_cfg,
    Work.sent_nextId, State.begin_st, framesOffers_of_cfg (Work.sent_cfg ..), State.begin_st,
    unitDatagrams_eq s s.nextId s.cfg.initTag0]
  rfl

end Sys2Proof.Machine
end

section
/-! PROOFS. The commands of unit RX (spec/43_reasm.md R210 to R220, R224): what `RX_PACKET` does under each variant,
what a store leaves with the entry complete and incomplete, and what a chunk of a tracked and of a new frame_id
does. -/

namespace Sys2Proof.Machine

section
variable {d : Bytes} {s : State}

/-! ## `RX_PACKET` and `RX_POP` -/

theorem exec_rxPacket_unset (hv : s.cfg.fragVariant = .unset) (d : Bytes) :
    exec (.rxPacket d) s = .next (afterIllegal s) := by
  simp only [exec, execRxPacket, hv, raise_illegal]

theorem exec_rxPacket_a_short (hv : s.cfg.fragVariant = .a) (hshort : d.length < 10) :
    exec (.rxPacket d) s = .next (afterShort s) := by
  simp only [exec, execRxPacket, hv, if_pos hshort, raise_rxShort]

theorem exec_rxPacket_a (hv : s.cfg.fragVariant = .a) (hwhole : 10 ≤ d.length) :
    exec (.rxPacket d) s = .next (receiveChunk (parseA d) s) := by
  simp only [exec, execRxPacket, hv, if_neg (Nat.not_lt.2 hwhole)]

theorem exec_rxPacket_b_short (hv : s.cfg.fragVariant = .b) (hshort : d.length < 12) :
    exec (.rxPacket d) s = .next (afterShort s) := by
  simp only [exec, execRxPacket, hv, if_pos hshort, raise_rxShort]

theorem exec_rxPacket_b (hv : s.cfg.fragVariant = .b) (hwhole : 12 ≤ d.length) :
    exec (.rxPacket d) s = .next (afterRecords (afterPush s (parseB d)) []) := by
  simp only [exec, execRxPacket, hv, if_neg (Nat.not_lt.2 hwhole), pushOut_eq, respond_ok]

theorem exec_rxPop_nil (hqueue : s.outq = []) : exec .rxPop s = .next (afterRecords s []) := by
  simp only [exec, execRxPop, hqueue, respond_ok]

theorem exec_rxPop_cons {item : OutItem} {rest : List OutItem} (hqueue : s.outq = item :: rest) :
    exec .rxPop s =
      .next
        (afterRecords { s with outq := rest } [{ port := .frameOut, flags := 0, data := itemBytes item }]) := by
  simp only [exec, execRxPop, hqueue, respond_ok]

end

/-- The fields stand at bytes 0 and 4 of the datagram, the payload at byte 12 (R185, R224). -/
theorem parseB_header_append (seq ts : ℕ) (payload : Bytes) :
    parseB (be 4 seq ++ be 8 ts ++ payload) =
      .datagram (BitVec.ofNat 32 (fromBe (be 4 seq))) (BitVec.ofNat 64 (fromBe (be 8 ts))) payload := rfl

/-- Settles O46. -/
theorem unreadableDatagramsAreRefused : Obligations.UnreadableDatagramsAreRefused := fun d _ =>
  ⟨fun hv => exec_rxPacket_unset hv d, exec_rxPacket_a_short, exec_rxPacket_b_short⟩

/-- Settles O53: each field is read from the bytes it was written to. -/
theorem variantBPassesDatagramsOn : Obligations.VariantBPassesDatagramsOn := by
  refine fun s hv => ⟨fun seq ts payload => ?_, fun d hshort => exec_rxPacket_b_short hv hshort⟩
  have hparse : parseB (be 4 seq.toNat ++ be 8 ts.toNat ++ payload) = .datagram seq ts payload := by
    simp only [parseB_header_append, fromBe_be_toNat32, fromBe_be_toNat64, BitVec.ofNat_toNat, BitVec.setWidth_eq]
  have hwhole : 12 ≤ (be 4 seq.toNat ++ be 8 ts.toNat ++ payload).length := by
    simp only [List.length_append, be_length]
    omega
  rw [exec_rxPacket_b hv hwhole, hparse]

/-- Settles O54. -/
theorem rxPopRemovesTheHead : Obligations.RxPopRemovesTheHead := fun _ _ =>
  ⟨exec_rxPop_nil, fun _ _ => exec_rxPop_cons, fun _ _ _ => exec_rxPop_cons⟩

/-! ## Storing a chunk -/

/-- What `CNT_RX_DUP` counts of a chunk: one when its `chunk_id` is already there (R215). -/
def duplicates (h : ChunkHeader) (e : Entry) : BitVec 32 := if (mapGet h.index e.chunks).isSome then 1 else 0

@[simp] theorem duplicates_of_no_chunk (h : ChunkHeader) (total : BitVec 16) :
    duplicates h { total := total, chunks := [] } = 0#32 := rfl

theorem countDup_eq (h : ChunkHeader) (e : Entry) (s : State) :
    countDup h e s = { s with cnt := { s.cnt with rxDup := s.cnt.rxDup + duplicates h e } } := by
  rw [countDup, duplicates]
  split_ifs
  · rfl
  · simp

theorem entryComplete_iff (e : Entry) : entryComplete e = true ↔ e.chunks.length = e.total.toNat := beq_iff_eq

/-- A store that leaves the entry incomplete writes it back (R215, R216). -/
theorem storeInto_of_incomplete {h : ChunkHeader} {e : Entry} (hincomplete : entryComplete (storeChunk h e) = false)
    (s : State) :
    storeInto h e s =
      { s with
        rxTable := mapSet h.fid (storeChunk h e) s.rxTable
        cnt := { s.cnt with rxDup := s.cnt.rxDup + duplicates h e } } := by
  simp only [storeInto, countDup_eq, hincomplete, Bool.false_eq_true, if_false]

/-- A store that completes the entry deletes it and pushes the Frame (R216, R217). -/
theorem storeInto_of_complete {h : ChunkHeader} {e : Entry} (hcomplete : entryComplete (storeChunk h e) = true)
    (s : State) :
    storeInto h e s =
      afterPush
        { s with
          rxTable := mapDel h.fid s.rxTable
          cnt :=
            { s.cnt with rxDup := s.cnt.rxDup + duplicates h e, rxFrames := s.cnt.rxFrames + 1 } }
        (.frame h.fid (entryData (storeChunk h e))) := by
  simp only [storeInto, countDup_eq, hcomplete, if_true, pushOut_eq, inc32]

/-! ## A chunk of a tracked and of a new frame_id -/

theorem receiveChunk_of_tracked {h : ChunkHeader} {e : Entry} {s : State}
    (hentry : mapGet h.fid s.rxTable = some e) :
    receiveChunk h s = afterRecords (storeInto h e s) [] := by
  simp only [receiveChunk, hentry, respond_ok]

/-- A new frame_id opens an entry in what `makeRoom` leaves, or is itself dropped (R213, R214). -/
theorem receiveChunk_of_new {h : ChunkHeader} {s : State} (hnew : mapGet h.fid s.rxTable = none) {room : Room}
    (hroom : makeRoom s.cfg.rxMaxFrames.toNat h.fid s.rxTable = room) :
    receiveChunk h s =
      if room.admitted then
        afterRecords
          (storeInto h { total := h.total, chunks := [] }
            (countEvicted room.evicted { s with rxTable := room.table })) []
      else raise .rxOldest (countEvicted room.evicted { s with rxTable := room.table }) := by
  simp only [receiveChunk, hnew, hroom, respond_ok]

/-- Settles O48, by whether the counts are equal. -/
theorem chunkOfATrackedFrameIsStored : Obligations.ChunkOfATrackedFrameIsStored := by
  intro d s e hv hwhole hentry h stored dup s'
  rw [exec_rxPacket_a hv hwhole, receiveChunk_of_tracked hentry]
  have hcomplete : entryComplete (storeChunk h e) = true ↔ stored.chunks.length = h.total.toNat :=
    entryComplete_iff _
  refine ⟨fun hne => ?_, fun heq => ?_⟩
  · rw [storeInto_of_incomplete (Bool.eq_false_iff.2 (mt hcomplete.1 hne))]
    rfl
  · rw [storeInto_of_complete (hcomplete.2 heq)]
    rfl

/-- A first chunk completes its entry exactly when it is the only one (R216). -/
theorem entryComplete_first_iff (h : ChunkHeader) :
    entryComplete (storeChunk h { total := h.total, chunks := [] }) = true ↔ h.total = 1 := by
  have hcount : (storeChunk h { total := h.total, chunks := [] }).chunks.length = 1 := rfl
  rw [entryComplete_iff, hcount, eq_comm, ← BitVec.toNat_inj]
  rfl

/-- A new frame_id of one chunk completes at once and is not tracked (R216, R217). -/
theorem storeInto_new_of_one {h : ChunkHeader} {s : State} (hone : h.total = 1)
    (hnew : mapGet h.fid s.rxTable = none) :
    storeInto h { total := h.total, chunks := [] } s =
      afterPush { s with cnt := { s.cnt with rxFrames := s.cnt.rxFrames + 1 } } (.frame h.fid h.payload) := by
  have hdata : entryData (storeChunk h { total := h.total, chunks := [] }) = h.payload := List.append_nil h.payload
  rw [storeInto_of_complete ((entryComplete_first_iff h).2 hone), hdata, mapDel_of_none hnew,
    duplicates_of_no_chunk, BitVec.add_zero]

/-- A new frame_id of any other number of chunks is tracked with its first (R215). -/
theorem storeInto_new_of_not_one {h : ChunkHeader} (hmore : h.total ≠ 1) (s : State) :
    storeInto h { total := h.total, chunks := [] } s =
      { s with
        rxTable := mapSet h.fid { total := h.total, chunks := [(h.index, h.payload)] } s.rxTable } := by
  rw [storeInto_of_incomplete (Bool.eq_false_iff.2 (mt (entryComplete_first_iff h).1 hmore)),
    duplicates_of_no_chunk, BitVec.add_zero]
  rfl

/-- What stands in a canonical table from an entry above a frame_id on stands above it. -/
theorem lt_of_head_lt {t rest : FrameTable} {fid m : BitVec 32} {e : Entry} (hwf : mapWf t = true)
    (ht : t = (m, e) :: rest) (hlow : fid.toNat < m.toNat) : ∀ p ∈ t, fid.toNat < p.1.toNat := by
  subst ht
  obtain ⟨hrest, -⟩ := (mapWf_cons m e rest).1 hwf
  exact List.forall_mem_cons.2 ⟨hlow, fun p hp => hlow.trans (hrest p hp)⟩

/-- Settles O49: `makeRoom_cases` gives the number of evictions; an absent key is not one of those evicted, and in
what is left there is room, or the head and so every key is above the new one. -/
theorem newFrameIsAdmittedOrDropped : Obligations.NewFrameIsAdmittedOrDropped := by
  intro d s hv hwhole hwf hbound hnew h
  obtain ⟨n, hn, htable, hevicted, htake, hfull, hend⟩ := makeRoom_cases s.cfg.rxMaxFrames.toNat h.fid s.rxTable
  have hpos : 0 < s.cfg.rxMaxFrames.toNat := (BitVec.pos_iff_ne_zero _).2 hbound
  have hother := (mapGet_eq_none_iff _ _).1 hnew
  refine ⟨n, hn, fun p hp => ?_, hfull, ?_⟩
  · exact lt_of_le_of_ne (htake p hp) fun heq => hother p (List.mem_of_mem_take hp) (BitVec.eq_of_toNat_eq heq)
  intro kept s'
  rw [exec_rxPacket_a hv hwhole, receiveChunk_of_new hnew rfl, htable, hevicted]
  rcases hend with ⟨hadmitted, hroom⟩ | ⟨hrefused, hnoroom, m, e, rest, hkept, hlow⟩
  · left
    rw [if_pos hadmitted]
    refine ⟨hroom.elim id fun hnil => by simpa [kept, hnil] using hpos, ?_⟩
    by_cases hone : h.total = 1
    · refine .inl ⟨hone, ?_⟩
      rw [storeInto_new_of_one hone (mapGet_drop_of_none n hnew)]
      rfl
    · refine .inr ⟨hone, ?_⟩
      rw [storeInto_new_of_not_one hone]
      rfl
  · right
    rw [if_neg (Bool.eq_false_iff.1 hrefused)]
    exact ⟨hnoroom, lt_of_head_lt (mapWf_drop n hwf) hkept hlow, rfl⟩

end Sys2Proof.Machine
end

section
/-! PROOFS. Reassembly of one Frame (spec/43_reasm.md R213 to R217, R222, R226). The chunk map of an entry is what the
datagrams of the Frame that came have written; it depends only on which came. So the entry is complete exactly when
all have, and its data is then that of the chunks in ascending order, the Frame. -/

namespace Sys2Proof.Machine

/-! ## The chunk map of the datagrams received -/

/-- A key above every key of a map is written at its end. -/
theorem mapSet_of_forall_lt {w : ℕ} {α : Type} {k : BitVec w} (v : α) {m : KeyMap w α}
    (h : ∀ p ∈ m, p.1.toNat < k.toNat) : mapSet k v m = m ++ [(k, v)] := by
  induction m with
  | nil => rfl
  | cons p m ih =>
    obtain ⟨k', v'⟩ := p
    obtain ⟨hlt, hm⟩ := List.forall_mem_cons.1 h
    have hne : k ≠ k' := by
      rintro rfl
      exact lt_irrefl _ hlt
    rw [mapSet, if_neg (Nat.lt_asymm hlt), if_neg hne, ih hm, List.cons_append]

theorem toNat_ofNat16 {i : ℕ} (h : i < 65536) : (BitVec.ofNat 16 i).toNat = i := Nat.mod_eq_of_lt h

/-- The chunk map once the datagrams `is` of a Frame have been stored, in this order (R215). -/
def receivedChunks (c : ℕ) (f : Bytes) (is : List ℕ) : KeyMap 16 Bytes :=
  is.foldl (fun m i => mapSet (BitVec.ofNat 16 i) (chunk c f i) m) []

section
variable {c : ℕ} {f : Bytes} {is js : List ℕ} {i : ℕ}

theorem receivedChunks_append (c : ℕ) (f : Bytes) (is : List ℕ) (i : ℕ) :
    receivedChunks c f (is ++ [i]) = mapSet (BitVec.ofNat 16 i) (chunk c f i) (receivedChunks c f is) :=
  List.foldl_concat ..

theorem mapWf_receivedChunks (c : ℕ) (f : Bytes) (is : List ℕ) : mapWf (receivedChunks c f is) = true := by
  induction is using List.reverseRecOn with
  | nil => rfl
  | append_singleton is i ih =>
    rw [receivedChunks_append]
    exact mapWf_mapSet _ _ ih

/-- At a `chunk_id` stands that chunk of the Frame if its datagram came, and nothing otherwise. -/
theorem mapGet_receivedChunks (c : ℕ) (f : Bytes) (h : ∀ i ∈ is, i < 65536) (k : BitVec 16) :
    mapGet k (receivedChunks c f is) = if k.toNat ∈ is then some (chunk c f k.toNat) else none := by
  induction is using List.reverseRecOn with
  | nil => rfl
  | append_singleton is i ih =>
    obtain ⟨his, hi⟩ := List.forall_mem_append.1 h
    have hi := List.forall_mem_singleton.1 hi
    rw [receivedChunks_append]
    by_cases hk : k = BitVec.ofNat 16 i
    · subst hk
      simp [toNat_ofNat16 hi]
    · have hne : k.toNat ≠ i := by
        rintro rfl
        exact hk (by simp)
      simp [mapGet_mapSet_ne hk, ih his, hne]

/-- Neither the order nor the repetition of the datagrams shows in the chunk map (R222). -/
theorem receivedChunks_congr (c : ℕ) (f : Bytes) (his : ∀ i ∈ is, i < 65536) (h : ∀ i, i ∈ is ↔ i ∈ js) :
    receivedChunks c f is = receivedChunks c f js := by
  have hjs : ∀ j ∈ js, j < 65536 := fun j hj => his j ((h j).2 hj)
  refine eq_of_mapGet_eq (mapWf_receivedChunks ..) (mapWf_receivedChunks ..) fun k => ?_
  simp only [mapGet_receivedChunks c f his, mapGet_receivedChunks c f hjs, h]

/-- Datagrams in ascending order give the chunks in that order. -/
theorem receivedChunks_range (c : ℕ) (f : Bytes) {n : ℕ} (hn : n ≤ 65536) :
    receivedChunks c f (List.range n) = (List.range n).map fun i => (BitVec.ofNat 16 i, chunk c f i) := by
  induction n with
  | zero => rfl
  | succ n ih =>
    rw [List.range_succ, receivedChunks_append, ih (Nat.le_of_succ_le hn), List.map_append]
    refine mapSet_of_forall_lt _ fun p hp => ?_
    obtain ⟨i, hi, rfl⟩ := List.mem_map.1 hp
    have hi := List.mem_range.1 hi
    rw [toNat_ofNat16 hn, toNat_ofNat16 (hi.trans hn)]
    exact hi

/-- As many chunks are stored as different datagrams came. -/
theorem receivedChunks_length (c : ℕ) (f : Bytes) (h : ∀ i ∈ is, i < 65536) :
    (receivedChunks c f is).length = is.toFinset.card := by
  induction is using List.reverseRecOn with
  | nil => rfl
  | append_singleton is i ih =>
    obtain ⟨his, hi⟩ := List.forall_mem_append.1 h
    have hi := List.forall_mem_singleton.1 hi
    have hget := mapGet_receivedChunks c f his (BitVec.ofNat 16 i)
    have hset : (is ++ [i]).toFinset = insert i is.toFinset := by
      ext
      simp
    rw [toNat_ofNat16 hi] at hget
    rw [receivedChunks_append, hset]
    by_cases hmem : i ∈ is
    · rw [if_pos hmem] at hget
      rw [mapSet_length_of_some _ (mapWf_receivedChunks ..) hget, ih his,
        Finset.insert_eq_of_mem (List.mem_toFinset.2 hmem)]
    · rw [if_neg hmem] at hget
      rw [mapSet_length_of_none _ hget, ih his, Finset.card_insert_of_notMem (mt List.mem_toFinset.1 hmem)]

end

/-! ## The entry and the table -/

/-- The entry of a Frame of which the datagrams `is` came (R215). -/
def receivedEntry (c : ℕ) (f : Bytes) (is : List ℕ) : Entry where
  total := BitVec.ofNat 16 (ceilDiv f.length c)
  chunks := receivedChunks c f is

/-- The frame table while a Frame is incomplete: nothing is new before the first datagram, and after it the Frame has
its entry (R213 to R215). -/
def receivedTable (fid : BitVec 32) (c : ℕ) (f : Bytes) (is : List ℕ) (t : FrameTable) : FrameTable :=
  if is = [] then t else mapSet fid (receivedEntry c f is) t

section
variable {c : ℕ} {f : Bytes} {is : List ℕ} {fid : BitVec 32} {t : FrameTable}

/-- The entry is complete exactly when every datagram of the Frame came (R216). -/
theorem entryComplete_receivedEntry_iff (hmax : ceilDiv f.length c ≤ 65535)
    (his : ∀ i ∈ is, i < ceilDiv f.length c) :
    entryComplete (receivedEntry c f is) = true ↔ ∀ i < ceilDiv f.length c, i ∈ is := by
  have hsub : is.toFinset ⊆ Finset.range (ceilDiv f.length c) := fun i hi =>
    Finset.mem_range.2 (his i (List.mem_toFinset.1 hi))
  have hcount : (receivedEntry c f is).chunks.length = is.toFinset.card :=
    receivedChunks_length c f fun i hi => (his i hi).trans_le (by omega)
  have htotal : (receivedEntry c f is).total.toNat = (Finset.range (ceilDiv f.length c)).card := by
    rw [Finset.card_range]
    exact toNat_ofNat16 (by omega)
  rw [entryComplete_iff, hcount, htotal]
  constructor
  · intro hcard i hi
    have hall := Finset.eq_of_subset_of_card_le hsub hcard.ge
    exact List.mem_toFinset.1 (hall ▸ Finset.mem_range.2 hi)
  · intro hall
    exact congrArg Finset.card (hsub.antisymm fun i hi => List.mem_toFinset.2 (hall i (Finset.mem_range.1 hi)))

theorem receivedEntry_incomplete {missing : ℕ} (hmax : ceilDiv f.length c ≤ 65535)
    (his : ∀ i ∈ is, i < ceilDiv f.length c) (hmissing : missing < ceilDiv f.length c) (hnot : missing ∉ is) :
    entryComplete (receivedEntry c f is) = false :=
  Bool.eq_false_iff.2 fun hcomplete =>
    hnot ((entryComplete_receivedEntry_iff hmax his).1 hcomplete missing hmissing)

/-- The data of an entry that every datagram came to is the Frame (R217, R222). -/
theorem entryData_receivedEntry (hc : 0 < c) (hmax : ceilDiv f.length c ≤ 65535)
    (his : ∀ i ∈ is, i < ceilDiv f.length c) (hall : ∀ i < ceilDiv f.length c, i ∈ is) :
    entryData (receivedEntry c f is) = f := by
  have hrange : receivedChunks c f is = receivedChunks c f (List.range (ceilDiv f.length c)) :=
    receivedChunks_congr c f (fun i hi => (his i hi).trans_le (by omega)) fun i =>
      ⟨fun hi => List.mem_range.2 (his i hi), fun hi => hall i (List.mem_range.1 hi)⟩
  calc entryData (receivedEntry c f is)
      = ((receivedChunks c f (List.range (ceilDiv f.length c))).map Prod.snd).flatten := by
        rw [entryData, receivedEntry, hrange]
    _ = (chunks c f).flatten := by
        rw [receivedChunks_range c f (by omega), List.map_map]
        rfl
    _ = f := flatten_chunks hc

theorem receivedTable_of_ne_nil (h : is ≠ []) (fid : BitVec 32) (c : ℕ) (f : Bytes) (t : FrameTable) :
    receivedTable fid c f is t = mapSet fid (receivedEntry c f is) t := if_neg h

/-- The entry the next datagram is stored into: that of the table, or a new one before the first (R213, R214). -/
theorem mapGet_receivedTable_getD (hnew : mapGet fid t = none) :
    (mapGet fid (receivedTable fid c f is t)).getD
        { total := BitVec.ofNat 16 (ceilDiv f.length c), chunks := [] } = receivedEntry c f is := by
  by_cases h : is = []
  · subst h
    rw [receivedTable, if_pos rfl, hnew]
    rfl
  · rw [receivedTable_of_ne_nil h, mapGet_mapSet_self, Option.getD_some]

theorem receivedTable_append (i : ℕ) :
    mapSet fid (receivedEntry c f (is ++ [i])) (receivedTable fid c f is t) =
      receivedTable fid c f (is ++ [i]) t := by
  rw [receivedTable_of_ne_nil (List.concat_ne_nil i is), receivedTable]
  split_ifs
  · rfl
  · exact mapSet_mapSet ..

/-- Without the Frame's entry the table is as it was. -/
theorem mapDel_receivedTable (hnew : mapGet fid t = none) : mapDel fid (receivedTable fid c f is t) = t := by
  rw [receivedTable]
  split_ifs
  · exact mapDel_of_none hnew
  · exact mapDel_mapSet_of_none _ hnew

/-- Where the Frame has no entry yet, the table is as it was and has the room it had. -/
theorem receivedTable_length_lt {k : ℕ} (hroom : t.length < k)
    (h : mapGet fid (receivedTable fid c f is t) = none) : (receivedTable fid c f is t).length < k := by
  rw [receivedTable] at h ⊢
  split_ifs at h ⊢
  · exact hroom
  · simp at h

end

/-! ## One datagram of the Frame -/

theorem makeRoom_of_room {k : ℕ} {t : FrameTable} (h : t.length < k) (fid : BitVec 32) :
    makeRoom k fid t = { table := t, evicted := 0, admitted := true } := by
  cases t with
  | nil => rfl
  | cons p rest => exact if_neg (Nat.not_lt.2 h)

@[simp] theorem countEvicted_zero (s : State) : countEvicted 0 s = s := by
  simp [countEvicted]

/-- With room for a new frame_id a chunk is stored in the entry of the table or in a new one (R213, R214). -/
theorem receiveChunk_of_room {h : ChunkHeader} {s : State}
    (hroom : mapGet h.fid s.rxTable = none → s.rxTable.length < s.cfg.rxMaxFrames.toNat) :
    receiveChunk h s =
      afterRecords (storeInto h ((mapGet h.fid s.rxTable).getD { total := h.total, chunks := [] }) s) [] := by
  cases hentry : mapGet h.fid s.rxTable with
  | some e => exact receiveChunk_of_tracked hentry
  | none =>
    rw [receiveChunk_of_new hentry (makeRoom_of_room (hroom hentry) h.fid), if_pos rfl, countEvicted_zero]
    rfl

/-- What the receiver reads of datagram `i` of a Frame (R181, R212). -/
def sentHeader (fid : BitVec 32) (c : ℕ) (f : Bytes) (i : ℕ) : ChunkHeader where
  fid := fid
  total := BitVec.ofNat 16 (ceilDiv f.length c)
  index := BitVec.ofNat 16 i
  payload := chunk c f i

theorem ofNat_fromBe_be_two (n : ℕ) : BitVec.ofNat 16 (fromBe (be 2 n)) = BitVec.ofNat 16 n := by
  apply BitVec.eq_of_toNat_eq
  simp [fromBe_be_mod]

theorem parseA_datagramA (fid : BitVec 32) (c : ℕ) (tag : Byte) (f : Bytes) (i : ℕ) :
    parseA (datagramA fid c tag f i) = sentHeader fid c f i := by
  rw [datagramA, hdrA, parseA_header_append, fromBe_be_toNat32, ofNat_fromBe_be_two, ofNat_fromBe_be_two,
    BitVec.ofNat_toNat, BitVec.setWidth_eq]
  rfl

theorem ten_le_datagramA_length (fid : BitVec 32) (c : ℕ) (tag : Byte) (f : Bytes) (i : ℕ) :
    10 ≤ (datagramA fid c tag f i).length := by
  simp only [datagramA, hdrA, List.length_append, be_length, List.length_cons]
  omega

theorem storeChunk_sentHeader (fid : BitVec 32) (c : ℕ) (f : Bytes) (is : List ℕ) (i : ℕ) :
    storeChunk (sentHeader fid c f i) (receivedEntry c f is) = receivedEntry c f (is ++ [i]) := by
  rw [receivedEntry, receivedEntry, receivedChunks_append]
  rfl

/-- A datagram of a Frame, where there is room for its entry, is stored in it or opens it (R211 to R215). -/
theorem perform_datagramA_of_room {fid : BitVec 32} {c : ℕ} {tag : Byte} {f : Bytes} {i : ℕ} {s : State}
    (hv : s.cfg.fragVariant = .a) (hroom : mapGet fid s.rxTable = none → s.rxTable.length < s.cfg.rxMaxFrames.toNat) :
    perform (.rxPacket (datagramA fid c tag f i)) s =
      afterRecords
        (storeInto (sentHeader fid c f i)
          ((mapGet fid s.rxTable).getD { total := BitVec.ofNat 16 (ceilDiv f.length c), chunks := [] }) s) [] := by
  rw [perform, exec_rxPacket_a hv (ten_le_datagramA_length ..), parseA_datagramA]
  exact receiveChunk_of_room hroom

/-! ## The datagrams of the Frame -/

/-- A receiver given datagrams of one Frame in this order (R222). -/
def receiveAll (fid : BitVec 32) (c : ℕ) (tag : Byte) (f : Bytes) (is : List ℕ) (s : State) : State :=
  performAll (is.map fun i => .rxPacket (datagramA fid c tag f i)) s

theorem receiveAll_append (fid : BitVec 32) (c : ℕ) (tag : Byte) (f : Bytes) (is : List ℕ) (i : ℕ) (s : State) :
    receiveAll fid c tag f (is ++ [i]) s =
      perform (.rxPacket (datagramA fid c tag f i)) (receiveAll fid c tag f is s) := by
  rw [receiveAll, List.map_append, performAll, List.foldl_append]
  rfl

/-- `t` is `s` but for its frame table, which is `table`, its count of duplicates and its response. -/
def Collected (table : FrameTable) (s t : State) : Prop :=
  ∃ dup resp, t = { s with rxTable := table, cnt := { s.cnt with rxDup := dup }, resp := resp }

section
variable {table : FrameTable} {s t : State} (ht : Collected table s t)
include ht

theorem Collected.rxTable : t.rxTable = table := by obtain ⟨_, _, rfl⟩ := ht; rfl
theorem Collected.cfg : t.cfg = s.cfg := by obtain ⟨_, _, rfl⟩ := ht; rfl
theorem Collected.outq : t.outq = s.outq := by obtain ⟨_, _, rfl⟩ := ht; rfl
theorem Collected.cnt_rxFrames : t.cnt.rxFrames = s.cnt.rxFrames := by obtain ⟨_, _, rfl⟩ := ht; rfl

end

section
variable {s t : State} {f : Bytes} {c : ℕ} {fid : BitVec 32} {tag : Byte} {is : List ℕ} {i : ℕ}
  (hv : s.cfg.fragVariant = .a) (hnew : mapGet fid s.rxTable = none)
  (hroom : s.rxTable.length < s.cfg.rxMaxFrames.toNat)
include hv hnew hroom

/-- The next datagram is stored in the entry of those before it. -/
theorem Collected.perform_datagramA (ht : Collected (receivedTable fid c f is s.rxTable) s t) :
    perform (.rxPacket (datagramA fid c tag f i)) t =
      afterRecords (storeInto (sentHeader fid c f i) (receivedEntry c f is) t) [] := by
  have hroom' : mapGet fid t.rxTable = none → t.rxTable.length < t.cfg.rxMaxFrames.toNat := by
    rw [ht.rxTable, ht.cfg]
    exact receivedTable_length_lt hroom
  have hvariant : t.cfg.fragVariant = .a := by rw [ht.cfg, hv]
  rw [perform_datagramA_of_room hvariant hroom', ht.rxTable, mapGet_receivedTable_getD hnew]

/-- A datagram that leaves the Frame incomplete adds its chunk to the entry (R215). -/
theorem Collected.perform_of_incomplete (ht : Collected (receivedTable fid c f is s.rxTable) s t)
    (hincomplete : entryComplete (receivedEntry c f (is ++ [i])) = false) :
    Collected (receivedTable fid c f (is ++ [i]) s.rxTable) s (perform (.rxPacket (datagramA fid c tag f i)) t) := by
  rw [← storeChunk_sentHeader fid] at hincomplete
  rw [ht.perform_datagramA hv hnew hroom, storeInto_of_incomplete hincomplete, storeChunk_sentHeader,
    ← receivedTable_append]
  obtain ⟨dup, resp, rfl⟩ := ht
  exact ⟨_, _, rfl⟩

/-- The datagram that completes the Frame leaves the table as it was and pushes the Frame (R216, R217). -/
theorem Collected.perform_of_complete (ht : Collected (receivedTable fid c f is s.rxTable) s t)
    (hcomplete : entryComplete (receivedEntry c f (is ++ [i])) = true) :
    ∃ dup resp,
      perform (.rxPacket (datagramA fid c tag f i)) t =
        afterRecords
          (afterPush
            { s with cnt := { s.cnt with rxDup := dup, rxFrames := s.cnt.rxFrames + 1 }, resp := resp }
            (.frame fid (entryData (receivedEntry c f (is ++ [i]))))) [] := by
  rw [← storeChunk_sentHeader fid] at hcomplete
  rw [ht.perform_datagramA hv hnew hroom, storeInto_of_complete hcomplete, storeChunk_sentHeader]
  obtain ⟨dup, resp, rfl⟩ := ht
  refine ⟨dup + duplicates (sentHeader fid c f i) (receivedEntry c f is), resp, ?_⟩
  simp only [sentHeader, mapDel_receivedTable hnew]

/-- While a datagram is missing, all that is new is the entry of those that came (R215, R226). -/
theorem receiveAll_of_missing {missing : ℕ} (hmax : ceilDiv f.length c ≤ 65535)
    (hmissing : missing < ceilDiv f.length c) (his : ∀ i ∈ is, i < ceilDiv f.length c) (hnot : missing ∉ is) :
    Collected (receivedTable fid c f is s.rxTable) s (receiveAll fid c tag f is s) := by
  induction is using List.reverseRecOn with
  | nil => exact ⟨_, _, rfl⟩
  | append_singleton is i ih =>
    have ht := ih (fun j hj => his j (List.mem_append_left _ hj)) (mt (List.mem_append_left _) hnot)
    rw [receiveAll_append]
    exact ht.perform_of_incomplete hv hnew hroom (receivedEntry_incomplete hmax his hmissing hnot)

end

/-! ## The statements -/

/-- Whether an item is appended depends on the queue and its depth alone (R219). -/
theorem afterPush_outq_congr {s t : State} (hqueue : t.outq = s.outq) (hbuild : t.build = s.build) (item : OutItem) :
    (afterPush t item).outq = (afterPush s item).outq := by
  rw [afterPush, afterPush, hqueue, hbuild]
  split_ifs <;> rfl

theorem afterPush_rxTable (s : State) (item : OutItem) : (afterPush s item).rxTable = s.rxTable :=
  pushOut_rxTable item s

theorem afterPush_cnt_rxFrames (s : State) (item : OutItem) :
    (afterPush s item).cnt.rxFrames = s.cnt.rxFrames := by
  unfold afterPush
  split_ifs <;> rfl

/-- Settles O51: before the last datagram the Frame is incomplete, and the last completes it; its data is the Frame
in whatever order the chunks came. -/
theorem reassemblyIsOrderIndependent : Obligations.ReassemblyIsOrderIndependent := by
  intro s f c fid tag order last hv hc _ hmax _ hnew hroom horder hlast hnot hall receive
  have hbefore : Collected (receivedTable fid c f order s.rxTable) s (receive order) :=
    receiveAll_of_missing hv hnew hroom hmax hlast horder hnot
  have hin : ∀ i ∈ order ++ [last], i < ceilDiv f.length c :=
    List.forall_mem_append.2 ⟨horder, List.forall_mem_singleton.2 hlast⟩
  have hcame : ∀ i < ceilDiv f.length c, i ∈ order ++ [last] := by simpa using hall
  obtain ⟨dup, resp, hafter⟩ :=
    hbefore.perform_of_complete (tag := tag) hv hnew hroom ((entryComplete_receivedEntry_iff hmax hin).2 hcame)
  rw [entryData_receivedEntry hc hmax hin hcame] at hafter
  have happend : receive (order ++ [last]) = perform (.rxPacket (datagramA fid c tag f last)) (receive order) :=
    receiveAll_append ..
  rw [happend, hafter]
  exact ⟨hbefore.outq, hbefore.cnt_rxFrames, afterPush_rxTable .., afterPush_cnt_rxFrames ..,
    afterPush_outq_congr (by rfl) (by rfl) _⟩

/-- Settles O52: as before the last datagram of O51, all that is new is an incomplete entry. -/
theorem missingChunkNeverCompletes : Obligations.MissingChunkNeverCompletes := by
  intro s f c fid tag order missing hv _ _ hmax _ hnew hroom hne horder hmissing hnot t
  have ht : Collected (receivedTable fid c f order s.rxTable) s t :=
    receiveAll_of_missing hv hnew hroom hmax hmissing horder hnot
  rw [ht.rxTable, receivedTable_of_ne_nil hne]
  exact ⟨ht.outq, ht.cnt_rxFrames, receivedEntry c f order, mapGet_mapSet_self ..,
    receivedEntry_incomplete hmax horder hmissing hnot⟩

end Sys2Proof.Machine
end

section
/-! PROOFS. What a legal write of a configuration register leaves, and the CSR map as read (spec/10_state.md R36,
R37, spec/44_control.md R251 to R257). -/

namespace Sys2Proof.Machine

/-! ## Legal writes -/

theorem lowByte_setWidth (tag : Byte) : (tag.setWidth 32).setWidth 8 = tag := by
  rw [BitVec.setWidth_setWidth_of_le tag (by decide), BitVec.setWidth_eq]

/-- The converse of `csrSet_write`: every legal write is performed. -/
theorem csrSet_of_write {csr : Byte} {value : BitVec 32} {s t : State} (h : CsrWrite s csr value t) :
    csrSet csr value s = some t := by
  cases h with
  | variant hunset v =>
    change setVariant v.code s = _
    rw [setVariant, if_pos hunset]
    cases v with
    | unset =>
      change some s = _
      rw [← hunset]
    | a => rfl
    | b => rfl
  | maxChunk c => rfl
  | interval hn => exact if_neg hn
  | maxFrames hk => exact if_neg hk
  | tag0 tag =>
    have hbyte : ¬ 255 < (tag.setWidth 32).toNat := Nat.not_lt.2 (toNat_setWidth_le tag)
    exact (if_neg hbyte).trans (by rw [lowByte_setWidth])
  | tag1 tag =>
    have hbyte : ¬ 255 < (tag.setWidth 32).toNat := Nat.not_lt.2 (toNat_setWidth_le tag)
    exact (if_neg hbyte).trans (by rw [lowByte_setWidth])

/-- A legal `CFG_WRITE` ends with `OK` and leaves what the write leaves (R251). -/
theorem exec_cfgWrite_of_write {csr : Byte} {value : BitVec 32} {s t : State} (h : CsrWrite s csr value t) :
    exec (.cfgWrite csr value) s = .next (afterRecords t []) := by
  change execCfgWrite csr value s = _
  rw [execCfgWrite, csrSet_of_write h]
  rfl

/-- `FRAG_VARIANT` written 0 while unset stays as it is (R253). -/
theorem CsrWrite.variantUnset {s : State} (hunset : s.cfg.fragVariant = .unset) : CsrWrite s 0x00 0 s :=
  setVariant_write (if_pos hunset)

/-- Settles O55: each of the writes is legal, and a legal write is performed. -/
theorem legalConfigurationWrites : Obligations.LegalConfigurationWrites := by
  intro v s
  refine ⟨fun hunset => ⟨?_, ?_, ?_⟩, ?_, fun hv => ⟨?_, ?_⟩, fun hv => ?_⟩
  · exact exec_cfgWrite_of_write (.variantUnset hunset)
  · exact exec_cfgWrite_of_write (.variant hunset .a)
  · exact exec_cfgWrite_of_write (.variant hunset .b)
  · exact exec_cfgWrite_of_write (.maxChunk v)
  · exact exec_cfgWrite_of_write (.interval hv)
  · exact exec_cfgWrite_of_write (.maxFrames hv)
  · have h0 := exec_cfgWrite_of_write (.tag0 (s := s) (v.setWidth 8))
    have h1 := exec_cfgWrite_of_write (.tag1 (s := s) (v.setWidth 8))
    rw [setWidth_setWidth_of_le (Nat.not_lt.2 hv)] at h0 h1
    exact ⟨h0, h1⟩

/-! ## The CSR map as read -/

/-- The three flags of `STATUS` stand in bits of their own (R36). -/
theorem statusWord_toNat (s : State) :
    (statusWord s).toNat =
      (if s.fidWrapped then 1 else 0) + (if s.outq = [] then 0 else 2) + (if s.klvItems = [] then 0 else 4) := by
  simp only [statusWord, List.isEmpty_iff]
  split_ifs <;> rfl

theorem outqLevel_toNat {n : Nat} (h : n < 2 ^ 32) : (outqLevel n).toNat = n := by
  rw [outqLevel, if_pos h, BitVec.toNat_ofNat, Nat.mod_eq_of_lt h]

theorem FragVariant.code_toNat (v : FragVariant) :
    v.code.toNat = match v with | .unset => 0 | .a => 1 | .b => 2 := by
  cases v <;> rfl

/-- The numbers of the CSR map (R36). -/
def csrNumbers : List Byte :=
  [0x00, 0x01, 0x02, 0x03, 0x04, 0x05, 0x10, 0x11, 0x13, 0x14, 0x15, 0x16, 0x17, 0x18, 0x19, 0x20, 0x21, 0x22,
    0x23, 0x24, 0x25, 0x26, 0x27, 0x28]

/-- Every number the map does not hold is reserved (R36). -/
theorem csrGet_of_notMem {csr : Byte} {s : State} (h : csr ∉ csrNumbers) : csrGet csr s = none := by
  unfold csrGet
  split
  case h_25 => rfl
  all_goals
    rename_i hcsr
    exact absurd (by simp [csrNumbers, ← BitVec.toNat_inj, hcsr]) h

theorem exec_csrRead_of_notMem {csr : Byte} {s : State} (h : csr ∉ csrNumbers) :
    exec (.csrRead csr) s = .next (afterIllegal s) := by
  change execCsrRead csr s = _
  rw [execCsrRead, csrGet_of_notMem h, raise_illegal]

/-- Settles O57: each number of the map reads its register, and no other number reads one. -/
theorem readsFollowTheCsrMap : Obligations.ReadsFollowTheCsrMap := by
  intro s hklv hqueue htable map
  have hget : ∀ p ∈ map, ∃ value, csrGet p.1 s = some value ∧ value.toNat = p.2 := by
    simp only [map, List.forall_mem_cons]
    have hbyte (b : Byte) : (b.zeroExtend 32).toNat = b.toNat := BitVec.toNat_setWidth_of_le (by decide)
    have hnibble (b : BitVec 4) : (b.zeroExtend 32).toNat = b.toNat := BitVec.toNat_setWidth_of_le (by decide)
    exact ⟨⟨_, rfl, FragVariant.code_toNat _⟩, ⟨_, rfl, rfl⟩, ⟨_, rfl, rfl⟩, ⟨_, rfl, rfl⟩,
      ⟨_, rfl, hbyte _⟩, ⟨_, rfl, hbyte _⟩, ⟨_, rfl, statusWord_toNat s⟩, ⟨_, rfl, Nat.mod_eq_of_lt hklv⟩,
      ⟨_, rfl, hnibble _⟩, ⟨_, rfl, hnibble _⟩, ⟨_, rfl, hnibble _⟩, ⟨_, rfl, rfl⟩, ⟨_, rfl, rfl⟩,
      ⟨_, rfl, Nat.mod_eq_of_lt htable⟩, ⟨_, rfl, outqLevel_toNat hqueue⟩, ⟨_, rfl, rfl⟩, ⟨_, rfl, rfl⟩,
      ⟨_, rfl, rfl⟩, ⟨_, rfl, rfl⟩, ⟨_, rfl, rfl⟩, ⟨_, rfl, rfl⟩, ⟨_, rfl, rfl⟩, ⟨_, rfl, rfl⟩, ⟨_, rfl, rfl⟩,
      List.forall_mem_nil _⟩
  refine ⟨fun p hp => ?_, fun csr hcsr => exec_csrRead_of_notMem fun hmem => ?_⟩
  · obtain ⟨value, hvalue, hnat⟩ := hget p hp
    rw [← hnat]
    exact execCsrRead_of_get hvalue
  · have hnumbers : map.map Prod.fst = csrNumbers := rfl
    rw [← hnumbers] at hmem
    obtain ⟨p, hp, hpcsr⟩ := List.mem_map.1 hmem
    exact hcsr p hp hpcsr

end Sys2Proof.Machine
end
